-- ==== Sys2Proof/Word.lean ====
section
/-!
DEFINITION. The widths of the machine's values (rules R20, R22, R70): every register and memory value is an
unsigned number of 4, 8 or 12 bits, and a secondary-memory slot index is one of 8.
-/

namespace Sys2Proof

/-- A value of one nibble: INPR, PRC, TAR, TP, NS, OUTR, SC (rule R22). -/
abbrev Nibble := BitVec 4

/-- A value of two nibbles: AR, PC, TM, and every primary-memory address (rules R22, R70). -/
abbrev Addr := BitVec 8

/-- A value of three nibbles: DR, AC, IR, TR, and every primary-memory cell (rules R22, R51). -/
abbrev Word := BitVec 12

/-- The index of one of the 8 slots of the secondary memory (rule R50). -/
abbrev Slot := BitVec 3

end Sys2Proof
end

