-- ==== Sys2Proof/Syntax.lean ====
section
/-!
DEFINITION. The instruction set as syntax (rules R100 to R108): one constructor of `Instr` per row of
spec/opcode_table.json, in the table's order, with exactly the fields the encoding gives it. A format M instruction
has an indirect flag and an 8-bit operand, format P (LDP) has an operand only, format R has no field.
-/

namespace Sys2Proof

/-- The three instruction formats (rule R102). -/
inductive Format where
  /-- register-reference: no operand (rule R105) -/
  | r
  /-- operand instruction, direct or indirect (rule R103) -/
  | m
  /-- LDP: an operand, direct only (rule R104) -/
  | p
deriving DecidableEq, Repr

/-- The 33 instructions. `ind` is the indirect flag `w[11]` and `adr` the operand `w[7:0]` (rule R106). -/
inductive Instr where
  /-- CAL (rule R154): compute into AC with the operation (A0,A1) selects. -/
  | cal (ind : Bool) (adr : Addr)
  /-- LDA (rule R161): load AC. -/
  | lda (ind : Bool) (adr : Addr)
  /-- STA (rule R162): store AC. -/
  | sta (ind : Bool) (adr : Addr)
  /-- BR (rule R163): branch. -/
  | br (ind : Bool) (adr : Addr)
  /-- ISA (rule R164): increment a cell, skip when it matches AC. -/
  | isa (ind : Bool) (adr : Addr)
  /-- SWT (rule R188): switch to a named process. -/
  | swt (ind : Bool) (adr : Addr)
  /-- AWT (rule R189): wait until a process has stopped. -/
  | awt (ind : Bool) (adr : Addr)
  /-- LDP (rule R190): load a stored context into the live registers. -/
  | ldp (adr : Addr)
  /-- ADD (rule R155): select addition for CAL. -/
  | add
  /-- SUB (rule R156): select subtraction for CAL. -/
  | sub
  /-- AND (rule R157): select bitwise and for CAL. -/
  | and
  /-- OR (rule R158): select bitwise or for CAL. -/
  | or
  /-- SZA (rule R171): skip if AC is zero. -/
  | sza
  /-- SZE (rule R172): skip if E is zero. -/
  | sze
  /-- CLE (rule R173): clear E. -/
  | cle
  /-- CMA (rule R174): complement AC. -/
  | cma
  /-- CME (rule R175): complement E. -/
  | cme
  /-- CIR (rule R176): rotate AC right through E. -/
  | cir
  /-- CIL (rule R177): rotate AC left through E. -/
  | cil
  /-- ICA (rule R178): increment AC. -/
  | ica
  /-- ESW (rule R182): enable quantum-expiry preemption. -/
  | esw
  /-- DSW (rule R183): disable quantum-expiry preemption. -/
  | dsw
  /-- HLT (rule R184): stop the current process. -/
  | hlt
  /-- FORK (rule R186): create a copy of the current process. -/
  | fork
  /-- RST (rule R187): reset the stored record of the current process. -/
  | rst
  /-- SPA (rule R191): skip if the current process's table entry equals AC. -/
  | spa
  /-- UTM (rule R192): reload the timer. -/
  | utm
  /-- INP (rule R201): read the input register. -/
  | inp
  /-- OUT (rule R202): write the output register. -/
  | out
  /-- SKI (rule R203): skip on the input flag. -/
  | ski
  /-- SKO (rule R204): skip on the output flag. -/
  | sko
  /-- EI (rule R205): enable interrupts. -/
  | ei
  /-- DI (rule R206): disable interrupts. -/
  | di
deriving DecidableEq, Repr

/-- The 33 mnemonics of the opcode table, in its order. -/
inductive Mnemonic where
  | cal
  | lda
  | sta
  | br
  | isa
  | swt
  | awt
  | ldp
  | add
  | sub
  | and
  | or
  | sza
  | sze
  | cle
  | cma
  | cme
  | cir
  | cil
  | ica
  | esw
  | dsw
  | hlt
  | fork
  | rst
  | spa
  | utm
  | inp
  | out
  | ski
  | sko
  | ei
  | di
deriving DecidableEq, Repr

/-- All mnemonics, in the table's order. -/
def Mnemonic.all : List Mnemonic :=
  [.cal, .lda, .sta, .br, .isa, .swt, .awt, .ldp, .add, .sub, .and, .or, .sza, .sze, .cle, .cma, .cme,
   .cir, .cil, .ica, .esw, .dsw, .hlt, .fork, .rst, .spa, .utm, .inp, .out, .ski, .sko, .ei, .di]

/-- The format each mnemonic is encoded in (rules R107, R108, R104). -/
def Mnemonic.format : Mnemonic → Format
  | .cal | .lda | .sta | .br | .isa | .swt | .awt => .m
  | .ldp => .p
  | .add | .sub | .and | .or => .r
  | .sza | .sze | .cle | .cma | .cme | .cir | .cil | .ica => .r
  | .esw | .dsw | .hlt | .fork | .rst | .spa | .utm => .r
  | .inp | .out | .ski | .sko | .ei | .di => .r

/-- The upper-case text of a mnemonic (rule R115). -/
def Mnemonic.text : Mnemonic → String
  | .cal => "CAL"
  | .lda => "LDA"
  | .sta => "STA"
  | .br => "BR"
  | .isa => "ISA"
  | .swt => "SWT"
  | .awt => "AWT"
  | .ldp => "LDP"
  | .add => "ADD"
  | .sub => "SUB"
  | .and => "AND"
  | .or => "OR"
  | .sza => "SZA"
  | .sze => "SZE"
  | .cle => "CLE"
  | .cma => "CMA"
  | .cme => "CME"
  | .cir => "CIR"
  | .cil => "CIL"
  | .ica => "ICA"
  | .esw => "ESW"
  | .dsw => "DSW"
  | .hlt => "HLT"
  | .fork => "FORK"
  | .rst => "RST"
  | .spa => "SPA"
  | .utm => "UTM"
  | .inp => "INP"
  | .out => "OUT"
  | .ski => "SKI"
  | .sko => "SKO"
  | .ei => "EI"
  | .di => "DI"

/-- The mnemonic of an instruction. -/
def Instr.mnemonic : Instr → Mnemonic
  | .cal _ _ => .cal
  | .lda _ _ => .lda
  | .sta _ _ => .sta
  | .br _ _ => .br
  | .isa _ _ => .isa
  | .swt _ _ => .swt
  | .awt _ _ => .awt
  | .ldp _ => .ldp
  | .add => .add
  | .sub => .sub
  | .and => .and
  | .or => .or
  | .sza => .sza
  | .sze => .sze
  | .cle => .cle
  | .cma => .cma
  | .cme => .cme
  | .cir => .cir
  | .cil => .cil
  | .ica => .ica
  | .esw => .esw
  | .dsw => .dsw
  | .hlt => .hlt
  | .fork => .fork
  | .rst => .rst
  | .spa => .spa
  | .utm => .utm
  | .inp => .inp
  | .out => .out
  | .ski => .ski
  | .sko => .sko
  | .ei => .ei
  | .di => .di

/-- The operand of an instruction, where it has one (rule R106). -/
def Instr.operand? : Instr → Option Addr
  | .cal _ adr => some adr
  | .lda _ adr => some adr
  | .sta _ adr => some adr
  | .br _ adr => some adr
  | .isa _ adr => some adr
  | .swt _ adr => some adr
  | .awt _ adr => some adr
  | .ldp adr => some adr
  | .add => none
  | .sub => none
  | .and => none
  | .or => none
  | .sza => none
  | .sze => none
  | .cle => none
  | .cma => none
  | .cme => none
  | .cir => none
  | .cil => none
  | .ica => none
  | .esw => none
  | .dsw => none
  | .hlt => none
  | .fork => none
  | .rst => none
  | .spa => none
  | .utm => none
  | .inp => none
  | .out => none
  | .ski => none
  | .sko => none
  | .ei => none
  | .di => none

/-- The indirect flag of an instruction: 0 for formats P and R (rule R106). -/
def Instr.indirect : Instr → Bool
  | .cal ind _ => ind
  | .lda ind _ => ind
  | .sta ind _ => ind
  | .br ind _ => ind
  | .isa ind _ => ind
  | .swt ind _ => ind
  | .awt ind _ => ind
  | .ldp _ => false
  | .add => false
  | .sub => false
  | .and => false
  | .or => false
  | .sza => false
  | .sze => false
  | .cle => false
  | .cma => false
  | .cme => false
  | .cir => false
  | .cil => false
  | .ica => false
  | .esw => false
  | .dsw => false
  | .hlt => false
  | .fork => false
  | .rst => false
  | .spa => false
  | .utm => false
  | .inp => false
  | .out => false
  | .ski => false
  | .sko => false
  | .ei => false
  | .di => false

end Sys2Proof
end

