-- ==== Sys2Proof/Decode.lean ====
section
/-!
DEFINITION. The decoder as a total function of a 12-bit word, and the encoder (rules R102 to R110). The bit
positions and numbers are those of `30_encoding.md`.
-/

namespace Sys2Proof

/-- Why a word is no instruction. There is one reason only (rule R110). -/
inductive Illegal where
  /-- a format R word whose function code is none of the 25 of rule R108 -/
  | unassignedFunctionCode (fn : Addr)
deriving DecidableEq, Repr

/-- The top nibble `w[11:8]`, which selects the format (rule R102). -/
def topNibble (w : Word) : Nibble := w.extractLsb' 8 4

/-- The operation field OPC = `w[10:8]` of format M (rule R103). -/
def opcField (w : Word) : BitVec 3 := w.extractLsb' 8 3

/-- The operand field ADR, or the function code FN: `w[7:0]` (rules R103 to R105). -/
def adrField (w : Word) : Addr := w.extractLsb' 0 8

/-- The indirect flag `w[11]` of format M (rule R103). -/
def indField (w : Word) : Bool := w.getLsbD 11

/-- The format of a word by its top nibble (rule R102). -/
def formatOf (w : Word) : Format :=
  if topNibble w = 0x0 then .r else if topNibble w = 0x8 then .p else .m

/-- The 25 function codes of format R (rule R108); every other code is illegal. -/
def decodeR (fn : Addr) : Except Illegal Instr :=
  match fn.toNat with
  | 0x80 => .ok .add
  | 0x81 => .ok .sub
  | 0x82 => .ok .and
  | 0x83 => .ok .or
  | 0x90 => .ok .sza
  | 0x91 => .ok .sze
  | 0x92 => .ok .cle
  | 0x93 => .ok .cma
  | 0x94 => .ok .cme
  | 0x95 => .ok .cir
  | 0x96 => .ok .cil
  | 0x97 => .ok .ica
  | 0xA0 => .ok .esw
  | 0xA1 => .ok .dsw
  | 0xA2 => .ok .hlt
  | 0xA3 => .ok .fork
  | 0xA4 => .ok .rst
  | 0xA5 => .ok .spa
  | 0xA6 => .ok .utm
  | 0xB0 => .ok .inp
  | 0xB1 => .ok .out
  | 0xB2 => .ok .ski
  | 0xB3 => .ok .sko
  | 0xB4 => .ok .ei
  | 0xB5 => .ok .di
  | _ => .error (.unassignedFunctionCode fn)

/-- The seven operations of format M (rule R107). OPC 0 is no operation of format M: `decode` sends those words to
formats R and P before it comes here, so the last arm is OPC 7. -/
def decodeM (opc : BitVec 3) (ind : Bool) (adr : Addr) : Instr :=
  match opc.toNat with
  | 1 => .cal ind adr
  | 2 => .lda ind adr
  | 3 => .sta ind adr
  | 4 => .br ind adr
  | 5 => .isa ind adr
  | 6 => .swt ind adr
  | _ => .awt ind adr

/-- The decoder (rule R109): every word is one of the 33 instructions with its fields, or illegal. -/
def decode (w : Word) : Except Illegal Instr :=
  match formatOf w with
  | .r => decodeR (adrField w)
  | .p => .ok (.ldp (adrField w))
  | .m => .ok (decodeM (opcField w) (indField w) (adrField w))

/-- A format M word: I, OPC, ADR (rule R103). -/
def encodeM (opc : BitVec 3) (ind : Bool) (adr : Addr) : Word := BitVec.ofBool ind ++ opc ++ adr

/-- A format P word: `1000`, ADR (rule R104). -/
def encodeP (adr : Addr) : Word := 0b1000#4 ++ adr

/-- A format R word: `0000`, FN (rule R105). -/
def encodeR (fn : Addr) : Word := 0b0000#4 ++ fn

/-- The one word of an instruction (rules R101, R107, R108). -/
def encode : Instr → Word
  | .cal ind adr => encodeM 1 ind adr
  | .lda ind adr => encodeM 2 ind adr
  | .sta ind adr => encodeM 3 ind adr
  | .br ind adr => encodeM 4 ind adr
  | .isa ind adr => encodeM 5 ind adr
  | .swt ind adr => encodeM 6 ind adr
  | .awt ind adr => encodeM 7 ind adr
  | .ldp adr => encodeP adr
  | .add => encodeR 0x80
  | .sub => encodeR 0x81
  | .and => encodeR 0x82
  | .or => encodeR 0x83
  | .sza => encodeR 0x90
  | .sze => encodeR 0x91
  | .cle => encodeR 0x92
  | .cma => encodeR 0x93
  | .cme => encodeR 0x94
  | .cir => encodeR 0x95
  | .cil => encodeR 0x96
  | .ica => encodeR 0x97
  | .esw => encodeR 0xA0
  | .dsw => encodeR 0xA1
  | .hlt => encodeR 0xA2
  | .fork => encodeR 0xA3
  | .rst => encodeR 0xA4
  | .spa => encodeR 0xA5
  | .utm => encodeR 0xA6
  | .inp => encodeR 0xB0
  | .out => encodeR 0xB1
  | .ski => encodeR 0xB2
  | .sko => encodeR 0xB3
  | .ei => encodeR 0xB4
  | .di => encodeR 0xB5

/-- The instruction the decoder reads from an instruction whose bits are `w`, bit 0 the least significant bit of
its one word. An instruction is one word of 12 bits (rule R101), so a number with a bit above bit 11 is none. -/
def decodeTableWord (_nbits w : Nat) : Option Instr :=
  if w < 4096 then (decode (BitVec.ofNat 12 w)).toOption else none

end Sys2Proof
end

