-- ==== Sys2Proof/Machine/Arith.lean ====
section
/-!
DEFINITION. The wraparound arithmetic of the register values (rules R10, R21, R150 to R153): exact arithmetic on the
numbers, then reduction to the destination's width. No operation signals an overflow.
-/

namespace Sys2Proof.Machine

/-- A number reduced to an `n`-bit register (rule R21). -/
def narrow (n : Nat) (v : Nat) : BitVec n := BitVec.ofNat n v

/-- `add_n` (rule R150). -/
def addN {n : Nat} (a b : BitVec n) : BitVec n := narrow n (a.toNat + b.toNat)

/-- `neg_n` (rule R151). -/
def negN {n : Nat} (b : BitVec n) : BitVec n := narrow n (2 ^ n - b.toNat)

/-- `sub_n`: the sum with the wraparound negation (rule R151). -/
def subN {n : Nat} (a b : BitVec n) : BitVec n := addN a (negN b)

/-- `and_n` (rule R152). -/
def andN {n : Nat} (a b : BitVec n) : BitVec n := a &&& b

/-- `or_n` (rule R152). -/
def orN {n : Nat} (a b : BitVec n) : BitVec n := a ||| b

/-- `not_n(a) = (2^n - 1) - a` (rules R10, R174). -/
def notN {n : Nat} (a : BitVec n) : BitVec n := narrow n (2 ^ n - 1 - a.toNat)

/-- One more, with wrap (rules R24, R34, R140, R178). -/
def inc {n : Nat} (a : BitVec n) : BitVec n := addN a (narrow n 1)

/-- One less, with wrap (rules R30, R34, R184). -/
def dec {n : Nat} (a : BitVec n) : BitVec n := subN a (narrow n 1)

/-- A word written into an 8-bit register keeps its low 8 bits (rules R21, R74). -/
def low8 (w : Word) : Addr := w.setWidth 8

/-- The low 4 bits of a word, as OUTR takes AC (rule R202). -/
def lowNibble (w : Word) : Nibble := w.setWidth 4

/-- The low 4 bits of an address, as PRC takes the operand of SWT (rule R188). -/
def adrNibble (a : Addr) : Nibble := a.setWidth 4

/-- A nibble written into an 8-bit register is zero-extended (rules R21, R84). -/
def zext8 (v : Nibble) : Addr := v.setWidth 8

/-- A narrower value written into a 12-bit register is zero-extended (rules R21, R201). -/
def zext12 {n : Nat} (v : BitVec n) : Word := v.setWidth 12

end Sys2Proof.Machine
end

