-- ==== Sys2Proof/Config.lean ====
section
/-!
DEFINITION. The implementation parameters that the spec leaves open as named arguments of the model (the table of
section 4 of `00_scope.md`; `92_eei_decisions.md` section 1), each with the default that the rules use when nothing
is said. They are plain data, carried unchanged by the state, so that every statement about a state holds for
every choice of them. `FREQUENCY` is no parameter here: no rule reads it (rule R310). The spec leaves no value
free (`93_implementation_defined.md` section 1, last paragraph), so this file holds no opaque constant.
-/

namespace Sys2Proof

/-- `RESOLVE_CHECK` (rule R85, decision D11): what the slot-index check compares with 8. -/
inductive ResolveCheck where
  /-- the whole 12-bit table word -/
  | word12
  /-- the low 8 bits, as they stand in AR -/
  | ar8
deriving DecidableEq, Repr

/-- `FORK_SLOT` (rule R186, decision D13): which slot FORK writes. -/
inductive ForkSlot where
  /-- the slot whose index is TP -/
  | direct
  /-- the slot the table entry at address TP names -/
  | table
deriving DecidableEq, Repr

/-- `PRC_WRAP` (rule R250, decision D14): when the advanced PRC wraps to 0. -/
inductive PrcWrap where
  /-- when PRC + 1 equals TP -/
  | eq
  /-- when PRC + 1 is TP or more -/
  | ge
deriving DecidableEq, Repr

/-- `INT_VECTOR_MODE` (rule R255, decision D15): what PC takes in the interrupt entry. -/
inductive IntVectorMode where
  /-- the address `0x09` -/
  | address
  /-- the low 8 bits of the word at `0x09` -/
  | content
deriving DecidableEq, Repr

/-- The five semantic parameters. -/
structure Params where
  resolveCheck : ResolveCheck
  forkSlot : ForkSlot
  prcWrap : PrcWrap
  intVectorMode : IntVectorMode
  /-- `RST_LIVE` (rule R187, decision D16): RST also resets the live registers. -/
  rstLive : Bool
deriving DecidableEq, Repr

/-- The defaults of `92_eei_decisions.md` section 1. -/
def Params.default : Params :=
  { resolveCheck := .word12, forkSlot := .direct, prcWrap := .eq, intVectorMode := .address, rstLive := false }

end Sys2Proof
end

