-- ==== Sys2Proof/Machine/State.lean ====
section
/-!
DEFINITION. The state of the machine as plain data (`10_state.md`), the reset state (rules R59, R280), and the
reasons a step can stop (rule R262). Register and flip-flop fields carry the spec's names in lower case.
-/

namespace Sys2Proof.Machine

/-- The record of seven fields that is both the PSR scratch register and the content of a secondary-memory slot
(rules R49, R50). -/
structure Psr where
  s : Bool
  a1 : Bool
  a0 : Bool
  e : Bool
  ac : Word
  pc0 : Addr
  pc : Addr
deriving DecidableEq, Repr

/-- The record with every field zero (rule R280). -/
def Psr.zero : Psr := { s := false, a1 := false, a0 := false, e := false, ac := 0, pc0 := 0, pc := 0 }

/-- A listed cell of primary memory: its address and its 12-bit word. -/
abbrev Cell := Nat × Word

/-- Primary memory (rules R51, R70): the cells that differ from `0x000`, in rising order of address. -/
structure Memory where
  cells : List Cell
deriving DecidableEq, Repr

/-- The names a change-set can hold (rule R211): the 14 registers, the 12 flip-flops, and `PSR`. -/
inductive Element where
  | ar | pc | dr | ac | inpr | ir | tr | tm | prc | tar | tp | ns | outr | sc
  | i | e | r | c | sw | ien | fgi | fgo | s | gs | a0 | a1
  | psr
deriving DecidableEq, Repr

/-- The phase mark of a pacer record (rule R212). -/
inductive Phase where
  | midInstruction
  | endOfInstruction
deriving DecidableEq, Repr

/-- What the Cycle Pacer publishes after a sub-step (rule R212): the change-set, the phase mark, and the pointer of
interest (the value of AR in mid-instruction, of PC at the end of an instruction). -/
structure PacerRecord where
  changed : List Element
  phase : Phase
  pointer : Addr
deriving DecidableEq, Repr

/-- Everything the outside can read of the machine (rule R217): the registers, the flip-flops, the scratch register,
the two memories, and the engine's flags RUN and MID. -/
structure Contents where
  /-- AR (rule R23) -/
  ar : Addr
  /-- PC (rule R24) -/
  pc : Addr
  /-- DR (rule R25) -/
  dr : Word
  /-- AC (rule R26) -/
  ac : Word
  /-- INPR (rule R27) -/
  inpr : Nibble
  /-- IR (rule R28) -/
  ir : Word
  /-- TR (rule R29): no operation reads or writes it -/
  tr : Word
  /-- TM (rule R30) -/
  tm : Addr
  /-- PRC (rule R31) -/
  prc : Nibble
  /-- TAR (rule R32): no operation reads or writes it -/
  tar : Nibble
  /-- TP (rule R33) -/
  tp : Nibble
  /-- NS (rule R34) -/
  ns : Nibble
  /-- OUTR (rule R35) -/
  outr : Nibble
  /-- SC (rule R36) -/
  sc : Nibble
  /-- I (rule R38) -/
  i : Bool
  /-- E (rule R39) -/
  e : Bool
  /-- R (rule R40) -/
  r : Bool
  /-- C (rule R41) -/
  c : Bool
  /-- SW (rule R42) -/
  sw : Bool
  /-- IEN (rule R43) -/
  ien : Bool
  /-- FGI (rule R44) -/
  fgi : Bool
  /-- FGO (rule R45) -/
  fgo : Bool
  /-- S (rule R46) -/
  s : Bool
  /-- GS (rule R47) -/
  gs : Bool
  /-- A0 (rule R48) -/
  a0 : Bool
  /-- A1 (rule R48) -/
  a1 : Bool
  /-- the PSR scratch register (rule R49) -/
  psr : Psr
  /-- the secondary memory (rule R50) -/
  slots : Vector Psr 8
  /-- the primary memory (rule R51) -/
  mem : Memory
  /-- RUN (rule R52) -/
  run : Bool
  /-- MID (rule R53) -/
  mid : Bool
deriving DecidableEq, Repr

/-- A sub-step that has been committed: the record the pacer published of it, and the contents it left, which are what
a reader sees until the next sub-step is committed (rules R88, R217). -/
structure SubStep extends PacerRecord where
  left : Contents
deriving DecidableEq, Repr

/-- The state: the contents, and what the Cycle Pacer holds. -/
structure State extends Contents where
  /-- the sub-steps of the latest arbiter decision, the newest first (rules R54, R213, R217): the record of the head is
  the last one published -/
  trace : List SubStep
  /-- whether the observer has acknowledged the last record published (rule R54) -/
  acknowledged : Bool
  /-- the model's own field: the implementation parameters (`Config`), which no step writes -/
  params : Params
deriving DecidableEq, Repr

/-- The state after `initialize`, with the default parameters (rules R59, R280): every register, flip-flop, record
field and cell zero, RUN and MID 0, no pacer record pending. -/
def State.reset : State :=
  { ar := 0, pc := 0, dr := 0, ac := 0, inpr := 0, ir := 0, tr := 0, tm := 0, prc := 0, tar := 0, tp := 0, ns := 0,
    outr := 0, sc := 0
    i := false, e := false, r := false, c := false, sw := false, ien := false, fgi := false, fgo := false,
    s := false, gs := false, a0 := false, a1 := false
    psr := Psr.zero, slots := Vector.replicate 8 Psr.zero, mem := { cells := [] }
    run := false, mid := false, trace := [], acknowledged := true, params := Params.default }

/-- The four fatal conditions (rule R262). Each carries the value it reports, where there is one, and the committed
state that it leaves for inspection (rule R263); that state has RUN and MID clear. All four are the spec's own
conditions, so stopping there is safe. -/
inductive Fault where
  /-- Raised by the decode sub-step for the 231 illegal words, with the word in IR (rules R110, R133). Safe. -/
  | decodeError (word : Word) (committed : State)
  /-- Raised where a slot index of 8 or more is resolved or used, with the offending table word or index (rules R83,
  R86): by the context switch, the interrupt entry, FORK, RST, SWT, AWT and LDP. Safe. -/
  | processResolutionError (value : Word) (committed : State)
  /-- Raised by FORK when TP is 7, with TP (rule R186). Safe. -/
  | capacityError (tp : Nibble) (committed : State)
  /-- Raised by the load operation only, never by a step; the state it leaves is the reset state (rules R224, R265).
  Safe. -/
  | loadValidationError (committed : State)
deriving DecidableEq, Repr

/-- The reasons the model gives no transition. Only `engineBusy` can come from a step; the last four come from
controller moves that the spec gives no behaviour. -/
inductive Refusal where
  /-- Raised by an arm of `exec` that has no meaning yet; no arm is so. Safe. -/
  | notModelled (mnemonic : String)
  /-- Raised by `step`, and by the run request, when MID is 1, that is in the middle of a decision: a step is a
  transaction of an idle engine (rule R214). MID is 0 at every decision boundary (rule R53), so no run meets it.
  Safe. -/
  | engineBusy
  /-- Raised by `initialize` and `load` while the engine runs or steps (rule R216, treatment U9). Safe. -/
  | engineNotIdle
  /-- Raised by an edit or a load whose cell text has no 12-bit word (rule R117, treatment U2). Safe. -/
  | textHasNoWord
  /-- Raised by a load whose document does not name cell 8 (rule R223, treatment U19). Safe. -/
  | quantumCellUnset
  /-- Raised by a load whose sections name the same key twice: such a list is no key-value document (rule R221).
  Safe. -/
  | repeatedKey
deriving DecidableEq, Repr

end Sys2Proof.Machine
end

