-- ==== Sys2Proof/Machine/Flags.lean ====
section
/-!
DEFINITION. The conditions and flip-flop values the rules compute: the rotates through E, the operation the mode
bits select, the expiry of the quantum, the arbiter's two requests, the wrap of PRC, and the slot-index check.
-/

namespace Sys2Proof.Machine

/-- CIR on the ring of E and AC: the old E enters at bit 11, the old bit 0 leaves into E (rule R176). The pair is
the new E and the new AC. -/
def rotateRight (e : Bool) (ac : Word) : Bool × Word := (ac.getLsbD 0, BitVec.ofBool e ++ ac.extractLsb' 1 11)

/-- CIL on the ring: the old E enters at bit 0, the old bit 11 leaves into E (rule R177). -/
def rotateLeft (e : Bool) (ac : Word) : Bool × Word := (ac.getLsbD 11, ac.extractLsb' 0 11 ++ BitVec.ofBool e)

/-- The operation of CAL that the mode bits A0 and A1 select (rules R48, R154). -/
def alu (a0 a1 : Bool) (ac dr : Word) : Word :=
  match a0, a1 with
  | false, false => addN ac dr
  | true, false => subN ac dr
  | false, true => andN ac dr
  | true, true => orN ac dr

/-- C after an instruction (rule R139, E2): SW where the decremented TM is 0, else unchanged. -/
def carryAfter (tm : Addr) (sw c : Bool) : Bool := if tm = 0 then sw else c

/-- A context switch is requested (rule R240, A1). -/
def State.switchRequested (m : State) : Bool := (m.c && m.sw) || !m.s

/-- An I/O interrupt is requested (rule R240, A2). -/
def State.interruptRequested (m : State) : Bool := m.r || (m.ien && (m.fgi || m.fgo))

/-- PRC after the round-robin advance (rule R250, CS4). -/
def nextProcess (w : PrcWrap) (prc tp : Nibble) : Nibble :=
  let n := inc prc
  match w with
  | .eq => if n = tp then 0 else n
  | .ge => if tp.toNat ≤ n.toNat then 0 else n

/-- The check of `ResolveAR` on a table word: the slot it names, or the value reported (rules R83, R85). -/
def tableSlot (rc : ResolveCheck) (w : Word) : Except Word Slot :=
  match rc with
  | .word12 => if 8 ≤ w.toNat then .error w else .ok (w.setWidth 3)
  | .ar8 => if 8 ≤ (low8 w).toNat then .error (zext12 (low8 w)) else .ok ((low8 w).setWidth 3)

/-- The check of `PcbWrite` on an index that no resolution has checked (rule R86). -/
def slotOfIndex (k : Nibble) : Except Word Slot := if 8 ≤ k.toNat then .error (zext12 k) else .ok (k.setWidth 3)

end Sys2Proof.Machine
end

