-- ==== Sys2Proof/Machine/Memory.lean ====
section
/-!
DEFINITION. Primary and secondary memory (rules R51, R70 to R75, R86). One access reads or writes one whole cell or
one whole record. A cell that is not listed reads as `0x000`, the reset value of every cell (rules R51, R280).
-/

namespace Sys2Proof.Machine

/-- What a cell that is not listed reads as (rule R51). -/
def unlisted : Word := 0x000

/-- The word listed at an address. -/
def lookup (a : Nat) : List Cell → Word
  | [] => unlisted
  | (b, w) :: rest => if b = a then w else lookup a rest

/-- Lists a cell in front of the first cell with a higher address. -/
def place (a : Nat) (w : Word) : List Cell → List Cell
  | [] => [(a, w)]
  | (b, v) :: rest => if a < b then (a, w) :: (b, v) :: rest else (b, v) :: place a w rest

/-- The list without the cell at an address. -/
def unlist (a : Nat) : List Cell → List Cell
  | [] => []
  | (b, v) :: rest => if b = a then unlist a rest else (b, v) :: unlist a rest

/-- `MemRead(a, 1)` (rules R7, R71). -/
def Memory.read (mem : Memory) (a : Addr) : Word := lookup a.toNat mem.cells

/-- `MemWrite(a, 1, w)` (rules R7, R71). A cell that takes the value of an unlisted cell is no longer listed. -/
def Memory.write (mem : Memory) (a : Addr) (w : Word) : Memory :=
  let rest := unlist a.toNat mem.cells
  { cells := if w = unlisted then rest else place a.toNat w rest }

/-- Addresses from `lo` on, below 256, strictly rising, and no listed cell equal to an unlisted one. -/
def canonicalFrom (lo : Nat) : List Cell → Bool
  | [] => true
  | (a, w) :: rest => decide (lo ≤ a) && decide (a < 256) && decide (w ≠ unlisted) && canonicalFrom (a + 1) rest

/-- The canonical form of the memory. -/
def Memory.wf (mem : Memory) : Bool := canonicalFrom 0 mem.cells

/-- One cell of primary memory. -/
def Contents.read (m : Contents) (a : Addr) : Word := m.mem.read a

/-- Reads one cell of primary memory: the engine's access, and a read from outside (rules R71, R217). -/
def State.read (m : State) (a : Addr) : Word := m.toContents.read a

/-- The state with one cell of primary memory written. -/
def State.write (m : State) (a : Addr) (w : Word) : State := { m with mem := m.mem.write a w }

/-- The record of a slot (rule R50). -/
def Contents.slot (m : Contents) (k : Slot) : Psr := m.slots[k.toNat]'k.isLt

/-- Reads one slot: the engine's access, and a read from outside (rules R86, R217). -/
def State.slot (m : State) (k : Slot) : Psr := m.toContents.slot k

/-- The state with one slot written whole (rule R86). -/
def State.setSlot (m : State) (k : Slot) (p : Psr) : State := { m with slots := m.slots.set k.toNat p k.isLt }

end Sys2Proof.Machine
end

