-- ==== Sys2Proof/Machine/Pacer.lean ====
section
/-!
DEFINITION. The Cycle Pacer (rules R210 to R213): a sub-step changes the state and publishes one record of it.
-/

namespace Sys2Proof.Machine

/-- The 27 names of rule R211: 14 registers, 12 flip-flops, and the scratch register. -/
def Element.all : List Element :=
  [.ar, .pc, .dr, .ac, .inpr, .ir, .tr, .tm, .prc, .tar, .tp, .ns, .outr, .sc,
   .i, .e, .r, .c, .sw, .ien, .fgi, .fgo, .s, .gs, .a0, .a1, .psr]

/-- The record as one 32-bit number, S in bit 31 and PC in bits 7 to 0 (rule R49). -/
def Psr.packed (p : Psr) : BitVec 32 :=
  BitVec.ofBool p.s ++ BitVec.ofBool p.a1 ++ BitVec.ofBool p.a0 ++ BitVec.ofBool p.e ++ p.ac ++ p.pc0 ++ p.pc

/-- One named element as a number (rules R20, R217). -/
def Contents.value (m : Contents) : Element → Nat
  | .ar => m.ar.toNat
  | .pc => m.pc.toNat
  | .dr => m.dr.toNat
  | .ac => m.ac.toNat
  | .inpr => m.inpr.toNat
  | .ir => m.ir.toNat
  | .tr => m.tr.toNat
  | .tm => m.tm.toNat
  | .prc => m.prc.toNat
  | .tar => m.tar.toNat
  | .tp => m.tp.toNat
  | .ns => m.ns.toNat
  | .outr => m.outr.toNat
  | .sc => m.sc.toNat
  | .i => m.i.toNat
  | .e => m.e.toNat
  | .r => m.r.toNat
  | .c => m.c.toNat
  | .sw => m.sw.toNat
  | .ien => m.ien.toNat
  | .fgi => m.fgi.toNat
  | .fgo => m.fgo.toNat
  | .s => m.s.toNat
  | .gs => m.gs.toNat
  | .a0 => m.a0.toNat
  | .a1 => m.a1.toNat
  | .psr => m.psr.packed.toNat

/-- Reads one named element from outside (rule R217). -/
def State.value (m : State) (n : Element) : Nat := m.toContents.value n

/-- The change-set of a sub-step: the names whose value differs before and after (rule R211). -/
def changeSet (before after : State) : List Element :=
  Element.all.filter fun n => before.value n != after.value n

/-- The pointer of interest (rule R212). -/
def pointerOfInterest (ph : Phase) (m : State) : Addr :=
  match ph with
  | .midInstruction => m.ar
  | .endOfInstruction => m.pc

/-- The contents a sub-step leaves: MID is 1 until the last sub-step of the decision has been committed (rule R53). -/
def committed (ph : Phase) (after : State) : Contents :=
  { after.toContents with mid := decide (ph = .midInstruction) }

/-- Commits a sub-step, publishes its record and passes the barrier (rules R212, R213). The barrier holds the engine
until the observer has acknowledged the record, except at an end of instruction outside a continuous run, where the
record stays unacknowledged (log entry 5). The contents left are kept beside the record, for a read that falls between
this sub-step and the next (rule R217; log entry 4). -/
def publish (ph : Phase) (before after : State) : State :=
  { toContents := committed ph after
    trace :=
      { changed := changeSet before after, phase := ph, pointer := pointerOfInterest ph after
        left := committed ph after } :: after.trace
    acknowledged := decide (ph = .midInstruction) || after.run
    params := after.params }

/-- A sub-step inside a decision (rules R9, R210). -/
def substep (f : State → State) (m : State) : State := publish .midInstruction m (f m)

/-- The last sub-step of a decision (rule R212). -/
def lastSubstep (f : State → State) (m : State) : State := publish .endOfInstruction m (f m)

/-- The pending change-set (rule R54): the last record published. -/
def State.pending (m : State) : Option PacerRecord := m.trace.head?.map SubStep.toPacerRecord

/-- What reads between the sub-steps of the latest decision see: the contents that each sub-step left, oldest first
(rules R88, R217). -/
def State.observed (m : State) : List Contents := m.trace.reverse.map SubStep.left

end Sys2Proof.Machine
end

