-- ==== Sys2Proof/Machine/Operands.lean ====
section
/-!
DEFINITION. The operand forms (rules R80, R106, R134, R135): what the decode sub-step D1 and the indirect
resolution D2 write for each of the three formats. A handler takes its operand from AR only (rule R137).
-/

namespace Sys2Proof.Machine

/-- D1 of a format R word: I is cleared and AR is left alone (rule R134). -/
def operandR (m : State) : State := substep (fun m => { m with i := false }) m

/-- D1 of a format P word: the operand goes to AR, I is cleared (rules R104, R134). -/
def operandP (adr : Addr) (m : State) : State := substep (fun m => { m with ar := adr, i := false }) m

/-- D2: AR is replaced once by the low 8 bits of the word it addresses (rule R135). -/
def dereference (m : State) : State := substep (fun m => { m with ar := low8 (m.read m.ar) }) m

/-- D1 of a format M word, then D2 where the indirect flag is set (rules R134, R135). -/
def operandM (ind : Bool) (adr : Addr) (m : State) : State :=
  let m1 := substep (fun m => { m with ar := adr, i := ind }) m
  if m1.i then dereference m1 else m1

/-- The effective operand of a format M instruction, the value AR has when the handler starts (rule R80). -/
def effectiveOperand (ind : Bool) (adr : Addr) (m : State) : Addr := if ind then low8 (m.read adr) else adr

end Sys2Proof.Machine
end

