-- ==== Sys2Proof/Machine/Ops.lean ====
section
/-!
DEFINITION. The shared sequences of the instruction handlers and of the two protocols: fatal conditions (rules R8,
R263), saving and loading the live context (R251, R252), process resolution (R83, R84), slot traffic (R86), the
quantum reload (R79), skips (R140), the end of an instruction (R139), the I/O interrupt entry (R255) and the way
back from it (R258).
-/

namespace Sys2Proof.Machine

/-- The committed state a fatal condition leaves: the engine is idle and RUN is 0 (rules R8, R226, R263). -/
def State.halted (m : State) : State := { m with run := false, mid := false }

/-- `SaveLive()`: six live values into the scratch register; PC0 stays (rule R251). -/
def saveLive (m : State) : State :=
  substep (fun m =>
    { m with psr := { m.psr with s := m.s, a1 := m.a1, a0 := m.a0, e := m.e, ac := m.ac, pc := m.pc } }) m

/-- `LoadLive()`: the scratch register's six values into the live registers (rule R252). -/
def loadLive (m : State) : State :=
  substep (fun m =>
    { m with pc := m.psr.pc, ac := m.psr.ac, e := m.psr.e, a0 := m.psr.a0, a1 := m.psr.a1, s := m.psr.s }) m

/-- `ResolveAR()`: AR takes the low 8 bits of the table word it addresses, and the word must name a slot (rules R83,
R85). -/
def resolveAR (m : State) : Except Fault (Slot × State) :=
  match tableSlot m.params.resolveCheck (m.read m.ar) with
  | .error v => .error (.processResolutionError v (dereference m).halted)
  | .ok k => .ok (k, dereference m)

/-- `AR <- zext8(p)`: the process id goes to AR (rule R84). -/
def selectEntry (p : Nibble) (m : State) : State := substep (fun m => { m with ar := zext8 p }) m

/-- `Resolve(p)`: the process id goes to AR, then `ResolveAR` (rule R84). -/
def resolve (p : Nibble) (m : State) : Except Fault (Slot × State) :=
  resolveAR (selectEntry p m)

/-- `PSR <- PcbRead(k)`, of a slot that a resolution has checked (rule R86). -/
def pcbRead (k : Slot) (m : State) : State := substep (fun m => { m with psr := m.slot k }) m

/-- `PcbWrite(k, PSR)`, of a slot that has been checked (rule R86). -/
def pcbWrite (k : Slot) (m : State) : State := substep (fun m => m.setSlot k m.psr) m

/-- The address of the quantum cell (rule R77). -/
def quantumCell : Addr := 0x08

/-- The address of the interrupt-vector cell (rule R77). -/
def vectorCell : Addr := 0x09

/-- The quantum reload (rule R79). -/
def quantumReload (m : State) : State :=
  substep (fun m => { m with ar := quantumCell, tm := low8 (m.read quantumCell) }) m

/-- A skip sub-step: where the skip is taken PC moves past one more word. It is a sub-step whether or not the skip is
taken (rules R140, R210). -/
def skipIf (cond : State → Bool) (m : State) : State :=
  substep (fun m => { m with pc := if cond m then inc m.pc else m.pc }) m

/-- `EndOfInstruction` (rule R139): E1 clears SC and decrements TM, E2 writes C where TM reached 0. -/
def endOfInstruction (m : State) : State :=
  lastSubstep (fun m => { m with c := carryAfter m.tm m.sw m.c })
    (substep (fun m => { m with sc := 0, tm := dec m.tm }) m)

/-- A handler that has run to its end (rule R138). -/
def finish (m : State) : Host.Outcome State Fault Refusal := .next (endOfInstruction m)

/-- An instruction of format R with one handler sub-step (rules R170, R200). -/
def oneStepR (f : State → State) (m : State) : Host.Outcome State Fault Refusal := finish (substep f (operandR m))

/-- IN1: the pending-interrupt latch is set; where it was set it stays so (rule R255). -/
def latchInterrupt (m : State) : State := substep (fun m => { m with r := true }) m

/-- IN5: PC goes to the interrupt vector, read in the way the parameter says (rule R255). -/
def enterVector (m : State) : State :=
  match m.params.intVectorMode with
  | .address => substep (fun m => { m with pc := vectorCell }) m
  | .content => substep (fun m => { m with ar := vectorCell, pc := low8 (m.read vectorCell) }) m

/-- IN6: what the entry clears; the last sub-step of the decision (rule R255). -/
def clearRequests (m : State) : State :=
  lastSubstep (fun m =>
    { m with ien := false, sw := false, r := false, sc := 0, fgi := false, fgo := false }) m

/-- The I/O interrupt entry, the one trap into software (rule R255): the live context is saved in the current
process's slot, PC goes to the vector, and the requests are cleared. -/
def interruptEntry (m : State) : Host.Outcome State Fault Refusal :=
  match resolve m.prc (saveLive (latchInterrupt m)) with
  | .error f => .fault f
  | .ok (k, m1) => .next (clearRequests (enterVector (pcbWrite k m1)))

/-- The way back (rules R190, R258): the context stored for the process id in AR is loaded into the live registers.
LDP is the instruction that does it. -/
def loadContext (m : State) : Except Fault State :=
  match resolveAR m with
  | .error f => .error f
  | .ok (k, m1) => .ok (loadLive (pcbRead k m1))

end Sys2Proof.Machine
end

