-- ==== Sys2Proof/Machine/Arbiter.lean ====
section
/-!
DEFINITION. The arbiter's choice and the context-switch protocol (rules R240 to R254).
-/

namespace Sys2Proof.Machine

/-- The three branches of an arbiter decision (rule R240). -/
inductive Branch where
  | contextSwitch
  | ioInterrupt
  | execute
deriving DecidableEq, Repr

/-- The branch the arbiter takes, on the state at the start of the decision (rules R240, R242). -/
def arbiter (m : State) : Branch :=
  if m.switchRequested then .contextSwitch else if m.interruptRequested then .ioInterrupt else .execute

/-- CS4: the round-robin advance of PRC (rule R250). -/
def advanceProcess (m : State) : State :=
  substep (fun m => { m with prc := nextProcess m.params.prcWrap m.prc m.tp }) m

/-- CS9: C asks for another switch where the new process is stopped; the last sub-step of the decision (rule
R250). -/
def markSwitched (m : State) : State := lastSubstep (fun m => { m with c := !m.s, sc := 0 }) m

/-- CS4 to CS9 (rule R250). -/
def switchIn (m : State) : Host.Outcome State Fault Refusal :=
  let m1 := quantumReload (advanceProcess m)
  match resolve m1.prc m1 with
  | .error f => .fault f
  | .ok (k, m2) => .next (markSwitched (loadLive (pcbRead k m2)))

/-- The context switch (rule R250): CS1 to CS3 save the live context, then `switchIn`. -/
def contextSwitch (m : State) : Host.Outcome State Fault Refusal :=
  match resolve m.prc (saveLive m) with
  | .error f => .fault f
  | .ok (k, m1) => switchIn (pcbWrite k m1)

end Sys2Proof.Machine
end

