-- ==== Sys2Proof/Machine/Cycle.lean ====
section
/-!
DEFINITION. The instruction cycle up to dispatch (rules R130 to R133), the gate of a step request (R214, R215), and
the placing of a word where the next step fetches it.
-/

namespace Sys2Proof.Machine

/-- What a step does before any arbiter decision (rules R214, R215). -/
inductive Gate where
  /-- MID is 1: the engine is in the middle of a decision, and no step may be requested -/
  | busy
  /-- GS is 0: there is no decision -/
  | stopped
  /-- one arbiter decision -/
  | decide
deriving DecidableEq, Repr

/-- The gate of a step (rules R214, R215). -/
def gate (m : State) : Gate := if m.mid then .busy else if m.gs then .decide else .stopped

/-- A step with GS 0 changes nothing (rule R214), but that a continuous run which finds GS 0 ends: RUN is cleared
(rules R52, R215). -/
def stopRun (m : State) : State := { m with run := false }

/-- The start of a decision: the records of the decision before it are dropped. It is no sub-step. -/
def beginDecision (m : State) : State := { m with trace := [] }

/-- F1 to F3 (rule R131). -/
def fetch (m : State) : State :=
  substep (fun m => { m with pc := inc m.pc })
    (substep (fun m => { m with ir := m.read m.ar })
      (substep (fun m => { m with ar := m.pc }) m))

/-- The decode sub-step on an illegal word (rule R133). -/
def illegalWord (m : State) : Host.Outcome State Fault Refusal := .fault (.decodeError m.ir m.halted)

/-- The first address after the fixed places of the primary address space (rules R77, R284). -/
def firstProgramAddress : Addr := 0x0A

/-- Where a program word is placed: at PC, or behind the fixed places where PC is among them (rule R284: the starting
PC must be loaded, and `0x00` is no usable entry point). -/
def startAddress (m : State) : Addr := if m.pc.toNat < firstProgramAddress.toNat then firstProgramAddress else m.pc

/-- The state loaded from outside so that the next decision fetches `w` (rules R282 to R284): the word stands at the
starting address, GS and S are 1, and no request of the arbiter is up. -/
def loadWord (w : Word) (m : State) : State :=
  { m.write (startAddress m) w with
    pc := startAddress m
    gs := true
    s := true
    c := m.c && !m.sw
    r := false
    ien := m.ien && !(m.fgi || m.fgo)
    mid := false }

end Sys2Proof.Machine
end

