-- ==== Sys2Proof/Machine/Alu.lean ====
section
/-!
DEFINITION. CAL and the mode-setting instructions ADD, SUB, AND, OR (`41_alu.md`, rules R154 to R158).
-/

namespace Sys2Proof.Machine

/-- CAL (rule R154): X1 loads DR, X2 computes into AC with the operation the mode bits select. -/
def execCal (ind : Bool) (adr : Addr) (m : State) : Host.Outcome State Fault Refusal :=
  finish (substep (fun m => { m with ac := alu m.a0 m.a1 m.ac m.dr })
    (substep (fun m => { m with dr := m.read m.ar }) (operandM ind adr m)))

/-- The state with the mode bits set. -/
def State.setMode (a0 a1 : Bool) (m : State) : State := { m with a0 := a0, a1 := a1 }

/-- ADD (rule R155). -/
def execAdd (m : State) : Host.Outcome State Fault Refusal := oneStepR (State.setMode false false) m

/-- SUB (rule R156). -/
def execSub (m : State) : Host.Outcome State Fault Refusal := oneStepR (State.setMode true false) m

/-- AND (rule R157). -/
def execAnd (m : State) : Host.Outcome State Fault Refusal := oneStepR (State.setMode false true) m

/-- OR (rule R158). -/
def execOr (m : State) : Host.Outcome State Fault Refusal := oneStepR (State.setMode true true) m

end Sys2Proof.Machine
end

