-- ==== Sys2Proof/Machine/Io.lean ====
section
/-!
DEFINITION. The input-output instructions INP, OUT, SKI, SKO, EI, DI (`45_io.md`, rules R200 to R206).
-/

namespace Sys2Proof.Machine

/-- INP (rule R201). -/
def execInp (m : State) : Host.Outcome State Fault Refusal :=
  oneStepR (fun m => { m with ac := zext12 m.inpr, fgi := false }) m

/-- OUT (rule R202). -/
def execOut (m : State) : Host.Outcome State Fault Refusal :=
  oneStepR (fun m => { m with outr := lowNibble m.ac, fgo := false }) m

/-- SKI (rule R203). -/
def execSki (m : State) : Host.Outcome State Fault Refusal := finish (skipIf (fun m => m.fgi) (operandR m))

/-- SKO (rule R204). -/
def execSko (m : State) : Host.Outcome State Fault Refusal := finish (skipIf (fun m => m.fgo) (operandR m))

/-- EI (rule R205). -/
def execEi (m : State) : Host.Outcome State Fault Refusal := oneStepR (fun m => { m with ien := true }) m

/-- DI (rule R206). -/
def execDi (m : State) : Host.Outcome State Fault Refusal := oneStepR (fun m => { m with ien := false }) m

end Sys2Proof.Machine
end

