-- ==== Sys2Proof/Machine/MemRef.lean ====
section
/-!
DEFINITION. The memory-reference instructions LDA, STA, BR, ISA (`42_memory_reference.md`, rules R160 to R164).
-/

namespace Sys2Proof.Machine

/-- LDA (rule R161). -/
def execLda (ind : Bool) (adr : Addr) (m : State) : Host.Outcome State Fault Refusal :=
  finish (substep (fun m => { m with ac := m.read m.ar }) (operandM ind adr m))

/-- STA (rule R162). -/
def execSta (ind : Bool) (adr : Addr) (m : State) : Host.Outcome State Fault Refusal :=
  finish (substep (fun m => m.write m.ar m.ac) (operandM ind adr m))

/-- BR (rule R163). -/
def execBr (ind : Bool) (adr : Addr) (m : State) : Host.Outcome State Fault Refusal :=
  finish (substep (fun m => { m with pc := m.ar }) (operandM ind adr m))

/-- ISA (rule R164): X1 increments into DR, X2 stores, X3 skips when DR equals AC. -/
def execIsa (ind : Bool) (adr : Addr) (m : State) : Host.Outcome State Fault Refusal :=
  finish (skipIf (fun m => decide (m.dr = m.ac))
    (substep (fun m => m.write m.ar m.dr)
      (substep (fun m => { m with dr := inc (m.read m.ar) }) (operandM ind adr m))))

end Sys2Proof.Machine
end

