-- ==== Sys2Proof/Machine/Process.lean ====
section
/-!
DEFINITION. The process-control instructions ESW, DSW, HLT, FORK, RST, SWT, AWT, LDP, SPA, UTM
(`44_process_control.md`, rules R180 to R193).
-/

namespace Sys2Proof.Machine

/-- ESW (rule R182). -/
def execEsw (m : State) : Host.Outcome State Fault Refusal := oneStepR (fun m => { m with sw := true }) m

/-- DSW (rule R183). -/
def execDsw (m : State) : Host.Outcome State Fault Refusal := oneStepR (fun m => { m with sw := false }) m

/-- HLT, X1 (rule R184): the current process is stopped. -/
def markStopped (m : State) : State := substep (fun m => { m with s := false }) m

/-- HLT, X2 (rule R184): PC moves back by one word. -/
def rollBack (m : State) : State := substep (fun m => { m with pc := dec m.pc }) m

/-- HLT, X3 (rule R184): the stopped-process count goes up where the process was running. -/
def countStopped (was : Bool) (m : State) : State :=
  substep (fun m => { m with ns := if was then inc m.ns else m.ns }) m

/-- HLT, X4 (rule R184): GS is cleared when the count has reached TP. -/
def stopWhenAllStopped (m : State) : State :=
  substep (fun m => { m with gs := if m.ns = m.tp then false else m.gs }) m

/-- HLT, X5 (rule R184): a context switch is requested. -/
def requestSwitch (m : State) : State := substep (fun m => { m with c := true }) m

/-- HLT (rule R184). Whether the process was running is read before X1 clears S. -/
def execHlt (m : State) : Host.Outcome State Fault Refusal :=
  finish (requestSwitch (stopWhenAllStopped (countStopped m.s (rollBack (markStopped (operandR m))))))

/-- FORK, X3 and the check of X4 (rules R86, R186): the slot of the new process. -/
def forkSlot (m : State) : Except Fault (Slot × State) :=
  match m.params.forkSlot with
  | .table => resolve m.tp m
  | .direct =>
    match slotOfIndex m.tp with
    | .error v => .error (.processResolutionError v m.halted)
    | .ok k => .ok (k, m)

/-- FORK, X5 (rule R186): the new process is counted. -/
def countProcess (m : State) : State := substep (fun m => { m with tp := inc m.tp }) m

/-- FORK (rule R186). -/
def execFork (m : State) : Host.Outcome State Fault Refusal :=
  let m0 := operandR m
  if m0.tp = 7 then .fault (.capacityError m0.tp m0.halted)
  else
    match forkSlot (saveLive m0) with
    | .error f => .fault f
    | .ok (k, m1) => finish (countProcess (pcbWrite k m1))

/-- The record RST writes back (rule R187, X3): at its entry point, with zero registers, stopped. -/
def Psr.atEntry (p : Psr) : Psr := { p with pc := p.pc0, ac := 0, a0 := false, a1 := false, e := false, s := false }

/-- RST, X3 (rule R187): the scratch register takes the record reset. -/
def resetRecord (m : State) : State := substep (fun m => { m with psr := m.psr.atEntry }) m

/-- RST, X5 (rule R187): only where `RST_LIVE` is set is there such a sub-step. -/
def resetLive (m : State) : State :=
  if m.params.rstLive then
    substep (fun m =>
      { m with pc := m.psr.pc, ac := 0, a0 := false, a1 := false, e := false, s := false }) m
  else m

/-- RST (rule R187). -/
def execRst (m : State) : Host.Outcome State Fault Refusal :=
  match resolve m.prc (operandR m) with
  | .error f => .fault f
  | .ok (k, m1) =>
    finish (resetLive (pcbWrite k (resetRecord (pcbRead k m1))))

/-- SWT, X8 (rule R188): the context of the target without S. -/
def loadLiveButS (m : State) : State :=
  substep (fun m =>
    { m with pc := m.psr.pc, ac := m.psr.ac, e := m.psr.e, a0 := m.psr.a0, a1 := m.psr.a1 }) m

/-- SWT, X9 (rule R188): the stopped-process count goes down where the target was stopped. -/
def countStarted (m : State) : State := substep (fun m => { m with ns := if m.psr.s then m.ns else dec m.ns }) m

/-- SWT, X5 (rule R188): the target becomes the current process. -/
def becomeCurrent (t : Nibble) (m : State) : State := substep (fun m => { m with prc := t }) m

/-- SWT, X10 (rule R188): the current process is started. -/
def markStarted (m : State) : State := substep (fun m => { m with s := true }) m

/-- SWT, X5 to X11 (rule R188): the target becomes the current process and its context is loaded. -/
def switchTo (t : Nibble) (m : State) : Except Fault State :=
  match resolve t (becomeCurrent t m) with
  | .error f => .error f
  | .ok (k, m1) =>
    .ok (quantumReload (markStarted (countStarted (loadLiveButS (pcbRead k m1)))))

/-- SWT (rule R188). The target, the low 4 bits of AR, is held inside the handler from X1 to X5. -/
def execSwt (ind : Bool) (adr : Addr) (m : State) : Host.Outcome State Fault Refusal :=
  let m0 := operandM ind adr m
  match resolve m0.prc (saveLive m0) with
  | .error f => .fault f
  | .ok (k, m1) =>
    match switchTo (adrNibble m0.ar) (pcbWrite k m1) with
    | .error f => .fault f
    | .ok m2 => finish m2

/-- AWT, X3 (rule R189): where the target is started, PC is rolled back and C is set. -/
def spinIfStarted (m : State) : State :=
  substep (fun m => { m with pc := if m.psr.s then dec m.pc else m.pc, c := m.psr.s || m.c }) m

/-- AWT (rule R189). -/
def execAwt (ind : Bool) (adr : Addr) (m : State) : Host.Outcome State Fault Refusal :=
  match resolveAR (operandM ind adr m) with
  | .error f => .fault f
  | .ok (k, m1) => finish (spinIfStarted (pcbRead k m1))

/-- LDP (rule R190). -/
def execLdp (adr : Addr) (m : State) : Host.Outcome State Fault Refusal :=
  match loadContext (operandP adr m) with
  | .error f => .fault f
  | .ok m1 => finish m1

/-- SPA (rule R191): X1 sends PRC to AR, X2 compares the cell with AC. -/
def execSpa (m : State) : Host.Outcome State Fault Refusal :=
  finish (skipIf (fun m => decide (m.read m.ar = m.ac))
    (selectEntry m.prc (operandR m)))

/-- UTM (rule R192). -/
def execUtm (m : State) : Host.Outcome State Fault Refusal := finish (quantumReload (operandR m))

end Sys2Proof.Machine
end

