-- ==== Sys2Proof/Machine/RegRef.lean ====
section
/-!
DEFINITION. The register-reference instructions SZA, SZE, CLE, CMA, CME, CIR, CIL, ICA (`43_register_reference.md`,
rules R170 to R178).
-/

namespace Sys2Proof.Machine

/-- SZA (rule R171). -/
def execSza (m : State) : Host.Outcome State Fault Refusal :=
  finish (skipIf (fun m => decide (m.ac = 0)) (operandR m))

/-- SZE (rule R172). -/
def execSze (m : State) : Host.Outcome State Fault Refusal := finish (skipIf (fun m => !m.e) (operandR m))

/-- CLE (rule R173). -/
def execCle (m : State) : Host.Outcome State Fault Refusal := oneStepR (fun m => { m with e := false }) m

/-- CMA (rule R174). -/
def execCma (m : State) : Host.Outcome State Fault Refusal := oneStepR (fun m => { m with ac := notN m.ac }) m

/-- CME (rule R175). -/
def execCme (m : State) : Host.Outcome State Fault Refusal := oneStepR (fun m => { m with e := !m.e }) m

/-- CIR (rule R176). -/
def execCir (m : State) : Host.Outcome State Fault Refusal :=
  oneStepR (fun m => { m with ac := (rotateRight m.e m.ac).2, e := (rotateRight m.e m.ac).1 }) m

/-- CIL (rule R177). -/
def execCil (m : State) : Host.Outcome State Fault Refusal :=
  oneStepR (fun m => { m with ac := (rotateLeft m.e m.ac).2, e := (rotateLeft m.e m.ac).1 }) m

/-- ICA (rule R178). -/
def execIca (m : State) : Host.Outcome State Fault Refusal := oneStepR (fun m => { m with ac := inc m.ac }) m

end Sys2Proof.Machine
end

