-- ==== Sys2Proof/Machine/Dispatch.lean ====
section
/-!
DEFINITION. Dispatch (rule R136): one meaning per instruction, chosen by the decoded mnemonic alone.
-/

namespace Sys2Proof.Machine

def exec (i : Instr) (s : State) : Host.Outcome State Fault Refusal :=
  match i with
  | .cal ind adr => Sys2Proof.Machine.execCal ind adr s
  | .lda ind adr => Sys2Proof.Machine.execLda ind adr s
  | .sta ind adr => Sys2Proof.Machine.execSta ind adr s
  | .br ind adr => Sys2Proof.Machine.execBr ind adr s
  | .isa ind adr => Sys2Proof.Machine.execIsa ind adr s
  | .swt ind adr => Sys2Proof.Machine.execSwt ind adr s
  | .awt ind adr => Sys2Proof.Machine.execAwt ind adr s
  | .ldp adr => Sys2Proof.Machine.execLdp adr s
  | .add => Sys2Proof.Machine.execAdd s
  | .sub => Sys2Proof.Machine.execSub s
  | .and => Sys2Proof.Machine.execAnd s
  | .or => Sys2Proof.Machine.execOr s
  | .sza => Sys2Proof.Machine.execSza s
  | .sze => Sys2Proof.Machine.execSze s
  | .cle => Sys2Proof.Machine.execCle s
  | .cma => Sys2Proof.Machine.execCma s
  | .cme => Sys2Proof.Machine.execCme s
  | .cir => Sys2Proof.Machine.execCir s
  | .cil => Sys2Proof.Machine.execCil s
  | .ica => Sys2Proof.Machine.execIca s
  | .esw => Sys2Proof.Machine.execEsw s
  | .dsw => Sys2Proof.Machine.execDsw s
  | .hlt => Sys2Proof.Machine.execHlt s
  | .fork => Sys2Proof.Machine.execFork s
  | .rst => Sys2Proof.Machine.execRst s
  | .spa => Sys2Proof.Machine.execSpa s
  | .utm => Sys2Proof.Machine.execUtm s
  | .inp => Sys2Proof.Machine.execInp s
  | .out => Sys2Proof.Machine.execOut s
  | .ski => Sys2Proof.Machine.execSki s
  | .sko => Sys2Proof.Machine.execSko s
  | .ei => Sys2Proof.Machine.execEi s
  | .di => Sys2Proof.Machine.execDi s

end Sys2Proof.Machine
end

