-- ==== Sys2Proof/Machine/Step.lean ====
section
/-!
DEFINITION. The step of the engine: one step request, that is at most one arbiter decision (rules R12, R214, R240).
-/

namespace Sys2Proof.Machine

/-- Fetch, decode, dispatch (rule R130). -/
def fetchExecute (m : State) : Host.Outcome State Fault Refusal :=
  match decode (fetch m).ir with
  | .ok i => exec i (fetch m)
  | .error _ => illegalWord (fetch m)

/-- One arbiter decision (rule R240). -/
def decision (m : State) : Host.Outcome State Fault Refusal :=
  match arbiter m with
  | .contextSwitch => contextSwitch m
  | .ioInterrupt => interruptEntry m
  | .execute => fetchExecute m

/-- One step request (rule R214). -/
def step (m : State) : Host.Outcome State Fault Refusal :=
  match gate m with
  | .busy => .refused .engineBusy
  | .stopped => .next (stopRun m)
  | .decide => decision (beginDecision m)

/-- The instruction whose bits are `w` stored where the next step fetches, with what that takes on this machine: no
program is in memory after reset and GS is 0 (rule R282). -/
def State.withFetchWord (s : State) (_nbits w : Nat) : State := loadWord (BitVec.ofNat 12 w) s

end Sys2Proof.Machine
end

