-- ==== Sys2Proof/WellFormed.lean ====
section
/-!
DEFINITION. Well-formedness. The fields of `Instr` have the widths of the encoding, so every term of it has a word;
what can be ill-formed is the written form of an instruction: a mnemonic, perhaps an operand, perhaps an indirect
marker (rule R115). Rule R117 lists the written forms that have no 12-bit word; `SourceForm.wellFormed` refuses
exactly those.
-/

namespace Sys2Proof

/-- An instruction as written: a mnemonic with 0, 1 or 2 further tokens (rule R115). The operand is the number its
token denotes, before it is reduced modulo 256. -/
structure SourceForm where
  mnemonic : Mnemonic
  operand : Option Nat
  marker : Bool
deriving DecidableEq, Repr

/-- The written form has a word (rules R116, R117): no operand on a format R mnemonic, an operand on every other
mnemonic, and no indirect marker on LDP. -/
def SourceForm.wellFormed (f : SourceForm) : Bool :=
  match f.mnemonic.format with
  | .r => f.operand.isNone && !f.marker
  | .m => f.operand.isSome
  | .p => f.operand.isSome && !f.marker

/-- An instruction as its written form. -/
def Instr.source (i : Instr) : SourceForm :=
  { mnemonic := i.mnemonic, operand := i.operand?.map BitVec.toNat, marker := i.indirect }

/-- An instruction is well-formed when its written form has a word. -/
def Instr.wellFormed (i : Instr) : Bool := i.source.wellFormed

end Sys2Proof
end

