-- ==== Sys2Proof/Machine/Assembler.lean ====
section
/-!
DEFINITION. The assembler syntax (rules R115 to R118): the translation of a cell's text to a word, and the canonical
text of a word. Splitting a text at white space is the loader's (rule R4), so a cell's text is a list of tokens.
-/

namespace Sys2Proof.Machine

/-- The text of a cell: at most three tokens, or a signed decimal integer that the loader gives as a number (rule
R116). -/
inductive CellText where
  | tokens (ts : List String)
  | number (v : Int)
deriving DecidableEq, Repr

/-- The mnemonic a token spells (rule R115: upper-case names). -/
def mnemonicOf? (t : String) : Option Mnemonic := Mnemonic.all.find? fun mn => mn.text == t

/-- The value of a hexadecimal digit (rule R115; upper-case, as all the spec's numerals). -/
def hexDigit? (ch : Char) : Option Nat :=
  if '0' ≤ ch ∧ ch ≤ '9' then some (ch.toNat - '0'.toNat)
  else if 'A' ≤ ch ∧ ch ≤ 'F' then some (ch.toNat - 'A'.toNat + 10)
  else none

/-- The number a list of digits denotes, after the digits before it. -/
def hexValue? (acc : Nat) : List Char → Option Nat
  | [] => some acc
  | ch :: rest =>
    match hexDigit? ch with
    | some d => hexValue? (16 * acc + d) rest
    | none => none

/-- The hexadecimal numeral a token denotes (rule R115: without prefix, most significant digit first). -/
def numeral? (t : String) : Option Nat := if t.toList.isEmpty then none else hexValue? 0 t.toList

/-- The instruction of a mnemonic with an operand and an indirect flag; formats P and R drop what they do not have. -/
def Mnemonic.instr (mn : Mnemonic) (ind : Bool) (adr : Addr) : Instr :=
  match mn with
  | .cal => .cal ind adr
  | .lda => .lda ind adr
  | .sta => .sta ind adr
  | .br => .br ind adr
  | .isa => .isa ind adr
  | .swt => .swt ind adr
  | .awt => .awt ind adr
  | .ldp => .ldp adr
  | .add => .add
  | .sub => .sub
  | .and => .and
  | .or => .or
  | .sza => .sza
  | .sze => .sze
  | .cle => .cle
  | .cma => .cma
  | .cme => .cme
  | .cir => .cir
  | .cil => .cil
  | .ica => .ica
  | .esw => .esw
  | .dsw => .dsw
  | .hlt => .hlt
  | .fork => .fork
  | .rst => .rst
  | .spa => .spa
  | .utm => .utm
  | .inp => .inp
  | .out => .out
  | .ski => .ski
  | .sko => .sko
  | .ei => .ei
  | .di => .di

/-- The instruction of a written form (rule R116): the operand is reduced modulo 256, and a form without a word is
refused (rule R117). -/
def SourceForm.instr? (f : SourceForm) : Option Instr :=
  if f.wellFormed then some (Mnemonic.instr f.mnemonic f.marker (BitVec.ofNat 8 (f.operand.getD 0))) else none

/-- The word of a mnemonic token with an operand token, the third token's content being immaterial (rule R116). -/
def assembleOperand? (t a : String) (marker : Bool) : Option Word :=
  match mnemonicOf? t, numeral? a with
  | some mn, some n => (SourceForm.instr? { mnemonic := mn, operand := some n, marker := marker }).map encode
  | _, _ => none

/-- The word of a cell's text (rules R116, R118): a token that is both a mnemonic and a numeral is the mnemonic. -/
def assemble : CellText → Option Word
  | .number v => some (BitVec.ofInt 12 v)
  | .tokens [] => some 0x000
  | .tokens [t] =>
    match mnemonicOf? t with
    | some mn => (SourceForm.instr? { mnemonic := mn, operand := none, marker := false }).map encode
    | none => (numeral? t).map (BitVec.ofNat 12)
  | .tokens [t, a] => assembleOperand? t a false
  | .tokens [t, a, _] => assembleOperand? t a true
  | .tokens (_ :: _ :: _ :: _ :: _) => none

/-- A hexadecimal digit as a character. -/
def hexChar (d : Nat) : Char := if d < 10 then Char.ofNat ('0'.toNat + d) else Char.ofNat ('A'.toNat + (d - 10))

/-- The two hexadecimal digits of an operand (rule R20: always the register's width in digits). -/
def hex2 (a : Addr) : String := String.ofList [hexChar (a.toNat / 16), hexChar (a.toNat % 16)]

/-- The three hexadecimal digits of a word. -/
def hex3 (w : Word) : String :=
  String.ofList [hexChar (w.toNat / 256), hexChar (w.toNat / 16 % 16), hexChar (w.toNat % 16)]

/-- The canonical text of a word (rule R118). -/
def canonicalText (w : Word) : List String :=
  match decode w with
  | .error _ => [hex3 w]
  | .ok i =>
    match i.operand? with
    | none => [i.mnemonic.text]
    | some a => if i.indirect then [i.mnemonic.text, hex2 a, "I"] else [i.mnemonic.text, hex2 a]

end Sys2Proof.Machine
end

