-- ==== Sys2Proof/Machine/Controller.lean ====
section
/-!
DEFINITION. The external controller's moves (`50_pacer_and_host.md`, rules R214 to R230): initialize, load, edit,
step, run, stop, acknowledge. Reading changes nothing: `State.value`, `State.read` and `State.slot` read
between two decisions, `State.observed` gives what a read between two sub-steps sees.
The parsing of a load document is out of scope (rule R4): here a document is its four sections as data.
-/

namespace Sys2Proof.Machine

/-- The engine is neither running nor stepping, as `initialize` and `load` need it (rule R216). -/
def State.idle (m : State) : Bool := !m.run && !m.mid

/-- The reset state with the machine's own parameters (rules R280, R281). -/
def initialized (m : State) : State := { State.reset with params := m.params }

/-- A value normalised to an `n`-bit register (rules R21, R218): reduced modulo `2^n`, negative values wrap. -/
def normalise (n : Nat) (v : Int) : BitVec n := BitVec.ofInt n v

/-- A value normalised to a flip-flop, a register of width 1 (rules R6, R21). -/
def normaliseBit (v : Int) : Bool := (BitVec.ofInt 1 v).getLsbD 0

/-- The names of the 14 registers (rule R22) and 12 flip-flops (rule R37), and of the scratch register. -/
def Element.text : Element → String
  | .ar => "AR"
  | .pc => "PC"
  | .dr => "DR"
  | .ac => "AC"
  | .inpr => "INPR"
  | .ir => "IR"
  | .tr => "TR"
  | .tm => "TM"
  | .prc => "PRC"
  | .tar => "TAR"
  | .tp => "TP"
  | .ns => "NS"
  | .outr => "OUTR"
  | .sc => "SC"
  | .i => "I"
  | .e => "E"
  | .r => "R"
  | .c => "C"
  | .sw => "SW"
  | .ien => "IEN"
  | .fgi => "FGI"
  | .fgo => "FGO"
  | .s => "S"
  | .gs => "GS"
  | .a0 => "A0"
  | .a1 => "A1"
  | .psr => "PSR"

/-- The element a name names. -/
def elementOf? (t : String) : Option Element := Element.all.find? fun n => n.text == t

/-- The name is one of the 12 flip-flops (rule R37). -/
def Element.isFlipFlop : Element → Bool
  | .i | .e | .r | .c | .sw | .ien | .fgi | .fgo | .s | .gs | .a0 | .a1 => true
  | .ar | .pc | .dr | .ac | .inpr | .ir | .tr | .tm | .prc | .tar | .tp | .ns | .outr | .sc | .psr => false

/-- The 12 names that may be edited while the engine is idle (rule R218). -/
def Element.editable : Element → Bool
  | .ar | .pc | .prc | .inpr | .ns | .tar | .ien | .sw | .fgi | .fgo | .s | .gs => true
  | .dr | .ac | .ir | .tr | .tm | .tp | .outr | .sc | .i | .e | .r | .c | .a0 | .a1 | .psr => false

/-- The width in bits of each element (rules R22, R37, R49). -/
def Element.bits : Element → Nat
  | .dr | .ac | .ir | .tr => 12
  | .ar | .pc | .tm => 8
  | .inpr | .prc | .tar | .tp | .ns | .outr | .sc => 4
  | .i | .e | .r | .c | .sw | .ien | .fgi | .fgo | .s | .gs | .a0 | .a1 => 1
  | .psr => 32

/-- The record that a 32-bit number packs (rule R49). -/
def Psr.unpacked (v : BitVec 32) : Psr :=
  { s := v.getLsbD 31, a1 := v.getLsbD 30, a0 := v.getLsbD 29, e := v.getLsbD 28
    ac := v.extractLsb' 16 12, pc0 := v.extractLsb' 8 8, pc := v.extractLsb' 0 8 }

/-- One named element written from outside, normalised to its width (rules R218, R222). -/
def State.setElement (m : State) (n : Element) (v : Int) : State :=
  match n with
  | .ar => { m with ar := normalise 8 v }
  | .pc => { m with pc := normalise 8 v }
  | .dr => { m with dr := normalise 12 v }
  | .ac => { m with ac := normalise 12 v }
  | .inpr => { m with inpr := normalise 4 v }
  | .ir => { m with ir := normalise 12 v }
  | .tr => { m with tr := normalise 12 v }
  | .tm => { m with tm := normalise 8 v }
  | .prc => { m with prc := normalise 4 v }
  | .tar => { m with tar := normalise 4 v }
  | .tp => { m with tp := normalise 4 v }
  | .ns => { m with ns := normalise 4 v }
  | .outr => { m with outr := normalise 4 v }
  | .sc => { m with sc := normalise 4 v }
  | .i => { m with i := normaliseBit v }
  | .e => { m with e := normaliseBit v }
  | .r => { m with r := normaliseBit v }
  | .c => { m with c := normaliseBit v }
  | .sw => { m with sw := normaliseBit v }
  | .ien => { m with ien := normaliseBit v }
  | .fgi => { m with fgi := normaliseBit v }
  | .fgo => { m with fgo := normaliseBit v }
  | .s => { m with s := normaliseBit v }
  | .gs => { m with gs := normaliseBit v }
  | .a0 => { m with a0 := normaliseBit v }
  | .a1 => { m with a1 := normaliseBit v }
  | .psr => { m with psr := Psr.unpacked (normalise 32 v) }

/-- The seven fields of a record (rule R49). -/
inductive PsrField where
  | s | a1 | a0 | e | ac | pc0 | pc
deriving DecidableEq, Repr

/-- One field of a record written from outside (rule R219). -/
def Psr.setField (p : Psr) (f : PsrField) (v : Int) : Psr :=
  match f with
  | .s => { p with s := normaliseBit v }
  | .a1 => { p with a1 := normaliseBit v }
  | .a0 => { p with a0 := normaliseBit v }
  | .e => { p with e := normaliseBit v }
  | .ac => { p with ac := normalise 12 v }
  | .pc0 => { p with pc0 := normalise 8 v }
  | .pc => { p with pc := normalise 8 v }

/-- An edit from outside (rules R218, R219). -/
inductive Edit where
  | element (n : Element) (v : Int)
  | cell (a : Addr) (text : CellText)
  | pcbField (k : Slot) (f : PsrField) (v : Int)
deriving DecidableEq, Repr

/-- An edit: no effect while MID is 1, and none on a name that is read-only from outside (rules R218, R219). It is no
sub-step and publishes nothing. -/
def edit (d : Edit) (m : State) : Host.Outcome State Fault Refusal :=
  if m.mid then .next m
  else
    match d with
    | .element n v => .next (if n.editable then m.setElement n v else m)
    | .cell a text =>
      match assemble text with
      | some w => .next (m.write a w)
      | none => .refused .textHasNoWord
    | .pcbField k f v => .next (m.setSlot k ((m.slot k).setField f v))

/-- The value a `REG` entry gives: a number, or the dash-separated fields of the scratch register (rule R221). -/
inductive RegValue where
  | number (v : Int)
  | fields (vs : List Int)
deriving DecidableEq, Repr

/-- A load document: its four optional sections (rule R221). -/
structure LoadDocument where
  /-- `REG`: register name to value -/
  reg : List (String × RegValue)
  /-- `FF`: flip-flop name to 0 or 1 -/
  ff : List (String × Bool)
  /-- `M`: address to the texts of consecutive cells from that address -/
  cells : List (Int × List CellText)
  /-- `M2`: slot index to the fields S, A1, A0, E, AC, PC0, PC -/
  rows : List (Int × List Int)
deriving DecidableEq, Repr

/-- The record of seven given fields; any other number of fields is none (rules R221, R224). -/
def psrOfFields? : List Int → Option Psr
  | [s, a1, a0, e, ac, pc0, pc] =>
    some { s := normaliseBit s, a1 := normaliseBit a1, a0 := normaliseBit a0, e := normaliseBit e,
           ac := normalise 12 ac, pc0 := normalise 8 pc0, pc := normalise 8 pc }
  | _ => none

/-- A `REG` entry passes the validation (rule R224): the register exists and PSR has exactly seven fields. DESIGN CHOICE
(log entry 10): a register other than PSR that is given dash-separated fields fails the validation as well; rules R224
and R262 do not name that case. -/
def validReg (entry : String × RegValue) : Bool :=
  match elementOf? entry.1, entry.2 with
  | some .psr, .fields vs => (psrOfFields? vs).isSome
  | some .psr, .number _ => false
  | some n, .number _ => !n.isFlipFlop
  | _, _ => false

/-- An `FF` entry passes the validation (rule R224). -/
def validFlipFlop (entry : String × Bool) : Bool :=
  match elementOf? entry.1 with
  | some n => n.isFlipFlop
  | none => false

/-- A cell's text has at most three tokens (rule R224). -/
def CellText.fits : CellText → Bool
  | .tokens ts => decide (ts.length ≤ 3)
  | .number _ => true

/-- An `M` entry passes the validation (rule R224): every address it fills is within 0 to 255. -/
def validCells (entry : Int × List CellText) : Bool :=
  decide (0 ≤ entry.1) && decide (entry.1 ≤ 255) && decide (entry.1 + entry.2.length ≤ 256) &&
    entry.2.all CellText.fits

/-- An `M2` entry passes the validation (rule R224). -/
def validRow (entry : Int × List Int) : Bool :=
  decide (0 ≤ entry.1) && decide (entry.1 ≤ 7) && (psrOfFields? entry.2).isSome

/-- The validation of a load (rule R224). -/
def LoadDocument.valid (d : LoadDocument) : Bool :=
  d.reg.all validReg && d.ff.all validFlipFlop && d.cells.all validCells && d.rows.all validRow

/-- The keys of a list of entries are pairwise different. -/
def keysDiffer {α β : Type} [DecidableEq α] : List (α × β) → Bool
  | [] => true
  | (k, _) :: rest => (rest.all fun e => decide (e.1 ≠ k)) && keysDiffer rest

/-- The sections of the document are key-value lists (rule R221). -/
def LoadDocument.keyed (d : LoadDocument) : Bool :=
  keysDiffer d.reg && keysDiffer d.ff && keysDiffer d.cells && keysDiffer d.rows

/-- The document names cell 8 (rule R223, decision D3). -/
def LoadDocument.namesQuantum (d : LoadDocument) : Bool :=
  d.cells.any fun e => decide (e.1 ≤ 8) && decide (8 < e.1 + e.2.length)

/-- A `REG` entry applied (rule R222). -/
def applyReg (m : State) (entry : String × RegValue) : State :=
  match elementOf? entry.1, entry.2 with
  | some n, .number v => m.setElement n v
  | some .psr, .fields vs => { m with psr := (psrOfFields? vs).getD m.psr }
  | _, _ => m

/-- An `FF` entry applied (rule R222). -/
def applyFlipFlop (m : State) (entry : String × Bool) : State :=
  match elementOf? entry.1 with
  | some n => m.setElement n entry.2.toNat
  | none => m

/-- Consecutive cells filled from an address (rule R222); nothing where a text has no word. -/
def applyTexts (m : State) (a : Nat) : List CellText → Option State
  | [] => some m
  | t :: rest =>
    match assemble t with
    | some w => applyTexts (m.write (BitVec.ofNat 8 a) w) (a + 1) rest
    | none => none

/-- The `M` section applied (rule R222), entry after entry. DESIGN CHOICE (log entry 10): where the runs of two entries
overlap, the cell takes the text of the entry that is later in the list; rules R118 and R222 do not say which. -/
def applyCells (m : State) : List (Int × List CellText) → Option State
  | [] => some m
  | (a, texts) :: rest =>
    match applyTexts m a.toNat texts with
    | some m1 => applyCells m1 rest
    | none => none

/-- An `M2` row applied (rule R222). -/
def applyRow (m : State) (entry : Int × List Int) : State :=
  match psrOfFields? entry.2 with
  | some p => m.setSlot (BitVec.ofInt 3 entry.1) p
  | none => m

/-- TM and TP derived after the sections have been applied (rule R223): TM from cell 8, TP from the number of rows,
1 where there is none. -/
def deriveTimerAndCount (rows : Nat) (m : State) : State :=
  { m with tm := low8 (m.read quantumCell), tp := if rows = 0 then 1 else BitVec.ofNat 4 rows }

/-- The effect of a document that passes the validation (rules R222, R223). What it does not name keeps its value. -/
def LoadDocument.apply (d : LoadDocument) (m : State) : Option State :=
  (applyCells (d.ff.foldl applyFlipFlop (d.reg.foldl applyReg m)) d.cells).map fun m1 =>
    deriveTimerAndCount d.rows.length (d.rows.foldl applyRow m1)

/-- `load(document)` (rules R221 to R225): all or nothing, and the reset state where the validation fails. -/
def load (d : LoadDocument) (m : State) : Host.Outcome State Fault Refusal :=
  if !m.idle then .refused .engineNotIdle
  else if !d.keyed then .refused .repeatedKey
  else if !d.valid then .fault (.loadValidationError (initialized m))
  else if !d.namesQuantum then .refused .quantumCellUnset
  else
    match d.apply m with
    | some m1 => .next m1
    | none => .refused .textHasNoWord

/-- The moves of the controller that can change the state (rule R227). -/
inductive Move where
  | reinitialize
  | load (d : LoadDocument)
  | edit (d : Edit)
  | step
  | runContinuous
  | stop
  | acknowledge
deriving DecidableEq, Repr

/-- One move of the controller (rules R214 to R227). -/
def perform (mv : Move) (m : State) : Host.Outcome State Fault Refusal :=
  match mv with
  | .reinitialize => if m.idle then .next (initialized m) else .refused .engineNotIdle
  | .load d => load d m
  | .edit d => edit d m
  | .step => step m
  | .runContinuous => if m.mid then .refused .engineBusy else .next { m with run := true }
  | .stop => .next { m with run := false }
  | .acknowledge => .next { m with acknowledged := true }

/-- The moves performed one after the other, up to the first fault or refusal (rule R228: any number of moves between
two decisions). -/
def performAll : List Move → State → Host.Outcome State Fault Refusal
  | [], m => .next m
  | mv :: rest, m =>
    match perform mv m with
    | .next m1 => performAll rest m1
    | .fault f => .fault f
    | .refused r => .refused r

/-- The loop of a continuous run, at most `n` turns of it (rule R215): while RUN and GS are 1 it performs the step of
rule R214, and a run that finds GS 0 clears RUN. -/
def continuousLoop : Nat → State → Host.Outcome State Fault Refusal
  | 0, m => .next m
  | n + 1, m =>
    if m.run then
      match step m with
      | .next m1 => continuousLoop n m1
      | .fault f => .fault f
      | .refused r => .refused r
    else .next m

end Sys2Proof.Machine
end

