-- ==== Sys2Proof/Safety.lean ====
section
/-!
DEFINITION. What a run of the engine is, in the terms the statements use: the committed state and the code of a
fatal condition (rules R262, R263), the end of a run (R229), the invariant of the engine at decision boundaries, and
the frame predicates.
-/

namespace Sys2Proof.Machine

/-- The numeric code of a fatal condition (rule R262). -/
def Fault.code : Fault → Nat
  | .decodeError _ _ => 1
  | .processResolutionError _ _ => 2
  | .capacityError _ _ => 3
  | .loadValidationError _ => 4

/-- The name a fatal condition is reported by (rules R226, R262). -/
def Fault.name : Fault → String
  | .decodeError _ _ => "DecodeError"
  | .processResolutionError _ _ => "ProcessResolutionError"
  | .capacityError _ _ => "CapacityError"
  | .loadValidationError _ => "LoadValidationError"

/-- The state a fatal condition leaves for inspection (rule R263). -/
def Fault.committed : Fault → State
  | .decodeError _ m => m
  | .processResolutionError _ m => m
  | .capacityError _ m => m
  | .loadValidationError m => m

/-- A run is over when GS is 0 at a decision boundary (rule R229). -/
def State.runOver (m : State) : Bool := !m.mid && !m.gs

/-- What holds of the engine at every decision boundary of a run from reset: the memory has its canonical form, no
decision is in progress (rule R53), SC is 0 (rule R36), and the interrupt latch R is 0 (rule R40). -/
abbrev State.engineInvariant (m : State) : Prop := m.mem.wf = true ∧ m.mid = false ∧ m.sc = 0 ∧ m.r = false

/-- The engine is idle with GS 1, so that a step request is one arbiter decision (rule R214). -/
abbrev State.live (m : State) : Prop := m.mid = false ∧ m.gs = true

/-- The arbiter's first condition holds: `(C AND SW) OR (NOT S)` (rule R240). -/
abbrev State.wantsSwitch (m : State) : Prop := (m.c = true ∧ m.sw = true) ∨ m.s = false

/-- The arbiter's second condition holds: `R OR (IEN AND (FGI OR FGO))` (rule R240). -/
abbrev State.wantsInterrupt (m : State) : Prop := m.r = true ∨ (m.ien = true ∧ (m.fgi = true ∨ m.fgo = true))

/-- The next decision is a fetch-execute decision (rule R240). -/
abbrev State.readyToExecute (m : State) : Prop := m.live ∧ ¬ m.wantsSwitch ∧ ¬ m.wantsInterrupt

/-- Every named element outside the list has the same value in both states. -/
def State.sameExcept (written : List Element) (m t : State) : Prop := ∀ n : Element, n ∉ written → t.value n = m.value n

/-- Every cell of primary memory reads the same in both states. -/
def State.sameMemory (m t : State) : Prop := ∀ a : Addr, t.read a = m.read a

/-- Every cell of primary memory but one reads the same in both states. -/
def State.sameMemoryBut (b : Addr) (m t : State) : Prop := ∀ a : Addr, a ≠ b → t.read a = m.read a

/-- Every slot of the secondary memory holds the same record in both states. -/
def State.sameSlots (m t : State) : Prop := ∀ k : Slot, t.slot k = m.slot k

/-- Every slot of the secondary memory but one holds the same record in both states. -/
def State.sameSlotsBut (j : Slot) (m t : State) : Prop := ∀ k : Slot, k ≠ j → t.slot k = m.slot k

/-- RUN and the parameters are the same in both states. -/
def State.sameControl (m t : State) : Prop := t.run = m.run ∧ t.params = m.params

/-- Nothing but the named elements differs (and what the pacer publishes, with MID): both memories, RUN and the
parameters are the same. -/
def State.changesOnly (written : List Element) (m t : State) : Prop :=
  m.sameExcept written t ∧ m.sameMemory t ∧ m.sameSlots t ∧ m.sameControl t

/-- What a fatal condition leaves (rules R8, R263): nothing but the named elements differs, RUN and MID are 0. -/
def State.stopsWith (written : List Element) (m t : State) : Prop :=
  m.sameExcept written t ∧ m.sameMemory t ∧ m.sameSlots t ∧ t.run = false ∧ t.mid = false ∧ t.params = m.params

/-- The two sub-steps of `EndOfInstruction` (rule R139), from the timer `tm` and the C flip-flop `c` that the handler
leaves: SC is 0, TM is one less, C is SW where TM reached 0 and is kept elsewhere, and the decision is over. -/
def State.endsInstruction (t : State) (tm : Addr) (c : Bool) : Prop :=
  t.sc = 0 ∧ t.tm = tm - 1 ∧ t.c = (if tm - 1 = 0 then t.sw else c) ∧ t.mid = false

/-- What the check of a resolution compares with 8: the whole table word, or its low 8 bits (rules R83, R85). -/
def tableValue (rc : ResolveCheck) (w : Word) : Nat :=
  match rc with
  | .word12 => w.toNat
  | .ar8 => w.toNat % 256

/-- The table cell at an address names a slot (rules R83, R85). -/
abbrev State.namesSlot (m : State) (a : Addr) (k : Slot) : Prop :=
  tableValue m.params.resolveCheck (m.read a) = k.toNat

/-- The table cell at an address names no slot, and `v` is the value its resolution reports (rules R83, R85, R262). -/
abbrev State.namesNoSlot (m : State) (a : Addr) (v : Word) : Prop :=
  8 ≤ v.toNat ∧ v.toNat = tableValue m.params.resolveCheck (m.read a)

/-- The record a save writes: the live context with the PC0 the scratch register holds (rules R49, R251). -/
def State.savedRecord (m : State) : Psr :=
  { s := m.s, a1 := m.a1, a0 := m.a0, e := m.e, ac := m.ac, pc0 := m.psr.pc0, pc := m.pc }

/-- PC, AC, E, A0 and A1 are those of a record (rules R188, R252). -/
def State.holdsContext (t : State) (p : Psr) : Prop :=
  t.pc = p.pc ∧ t.ac = p.ac ∧ t.e = p.e ∧ t.a0 = p.a0 ∧ t.a1 = p.a1

/-- The slot FORK writes (rule R186): the one TP numbers, or the one the table entry at address TP names. -/
abbrev State.forkTarget (m : State) (k : Slot) : Prop :=
  match m.params.forkSlot with
  | .direct => m.tp.toNat = k.toNat
  | .table => m.namesSlot (m.tp.setWidth 8) k

/-- The process the round robin takes next (rule R250, CS4). -/
def State.successor (m : State) : Nibble :=
  match m.params.prcWrap with
  | .eq => if m.prc + 1 = m.tp then 0 else m.prc + 1
  | .ge => if m.tp.toNat ≤ (m.prc + 1).toNat then 0 else m.prc + 1

/-- The record RST leaves of one with entry point `p` (rule R187, X3). -/
def entryRecord (p : Addr) : Psr := { s := false, a1 := false, a0 := false, e := false, ac := 0, pc0 := p, pc := p }

/-- An instruction of the mode-setting group (rules R155 to R158): its word decodes to it, it sets the mode bits and
nothing else, and CAL then computes with the operation. -/
def selectsMode (i : Instr) (w : Word) (a0 a1 : Bool) (op : Word → Word → Word) : Prop :=
  decode w = .ok i ∧
    ∀ m : State, ∃ t, exec i m = .next t ∧ t.a0 = a0 ∧ t.a1 = a1 ∧ t.i = false ∧ t.endsInstruction m.tm m.c ∧
      m.changesOnly [.a0, .a1, .i, .sc, .tm, .c] t ∧
      ∀ (ind : Bool) (adr : Addr), ∃ u, exec (.cal ind adr) t = .next u ∧
        u.ac = op t.ac (t.read (effectiveOperand ind adr t))

/-- An instruction that writes the named elements only, as `post` says, and then ends (rules R138, R141, R170). -/
def writesOnly (i : Instr) (w : Word) (written : List Element) (post : State → State → Prop) : Prop :=
  decode w = .ok i ∧
    ∀ m : State, ∃ t, exec i m = .next t ∧ post m t ∧ t.i = false ∧ t.endsInstruction m.tm m.c ∧
      m.changesOnly (written ++ [.i, .sc, .tm, .c]) t

/-- A function on states applied to the state an outcome holds. -/
def mapOutcome (g : State → State) : Host.Outcome State Fault Refusal → Host.Outcome State Fault Refusal
  | .next t => .next (g t)
  | .fault (.decodeError w t) => .fault (.decodeError w (g t))
  | .fault (.processResolutionError v t) => .fault (.processResolutionError v (g t))
  | .fault (.capacityError n t) => .fault (.capacityError n (g t))
  | .fault (.loadValidationError t) => .fault (.loadValidationError (g t))
  | .refused r => .refused r

/-- The contents with other values in the two registers no rule uses (rules R29, R32). -/
def Contents.withUnused (x : Word) (y : Nibble) (m : Contents) : Contents := { m with tr := x, tar := y }

/-- The state with other values in the two registers no rule uses, in what its readers have seen as well (rules R29,
R32, R217). -/
def State.withUnused (x : Word) (y : Nibble) (m : State) : State :=
  { m with
    toContents := m.toContents.withUnused x y
    trace := m.trace.map fun c => { c with left := c.left.withUnused x y } }

/-- What a reader sees after the listed sub-steps, the newest first, of a decision that starts from `start` (rules R88,
R217). -/
def contentsAfter (start : Contents) : List SubStep → Contents
  | [] => start
  | c :: _ => c.left

/-- The records of a decision that starts from `start`, the newest first, are right (rules R211, R212): each change-set
names, once, exactly the elements whose value the sub-step changed, and the pointer and MID are those of the phase. -/
def recordsRight (start : Contents) : List SubStep → Prop
  | [] => True
  | c :: earlier =>
    c.changed.Nodup ∧ (∀ n, n ∈ c.changed ↔ c.left.value n ≠ (contentsAfter start earlier).value n) ∧
      (c.phase = .midInstruction → c.pointer = c.left.ar ∧ c.left.mid = true) ∧
      (c.phase = .endOfInstruction → c.pointer = c.left.pc ∧ c.left.mid = false) ∧ recordsRight start earlier

/-- A field of a record as a number (rule R49). -/
def Psr.field (p : Psr) : PsrField → Nat
  | .s => p.s.toNat
  | .a1 => p.a1.toNat
  | .a0 => p.a0.toNat
  | .e => p.e.toNat
  | .ac => p.ac.toNat
  | .pc0 => p.pc0.toNat
  | .pc => p.pc.toNat

/-- The width of a field of a record (rule R49). -/
def PsrField.bits : PsrField → Nat
  | .s | .a1 | .a0 | .e => 1
  | .ac => 12
  | .pc0 | .pc => 8

/-- The fields of a record are seven given numbers, in the order S, A1, A0, E, AC, PC0, PC, each reduced to its field's
width (rules R21, R49, R221). -/
def Psr.holdsFields (p : Psr) : List Int → Prop
  | [s, a1, a0, e, ac, pc0, pc] =>
    (p.field .s : Int) = s % 2 ∧ (p.field .a1 : Int) = a1 % 2 ∧ (p.field .a0 : Int) = a0 % 2 ∧
      (p.field .e : Int) = e % 2 ∧ (p.field .ac : Int) = ac % 4096 ∧ (p.field .pc0 : Int) = pc0 % 256 ∧
      (p.field .pc : Int) = pc % 256
  | _ => False

/-- An entry of section M fills an address: one of its texts stands there (rules R118, R222). -/
def fills (entry : Int × List CellText) (a : Int) : Prop := entry.1 ≤ a ∧ a < entry.1 + entry.2.length

/-- The pacer's records and their acknowledgement, RUN, MID and the parameters are the same in both states. -/
def State.samePacing (m t : State) : Prop :=
  m.sameControl t ∧ t.mid = m.mid ∧ t.trace = m.trace ∧ t.acknowledged = m.acknowledged

/-- The PC0 values the machine holds: the scratch register's and those of the eight slots (rule R49). -/
def State.holdsEntryPoint (m : State) (p : Addr) : Prop := m.psr.pc0 = p ∨ ∃ k : Slot, (m.slot k).pc0 = p

/-- A function code is illegal (rule R110). -/
abbrev illegalCode (fn : Nat) : Prop :=
  fn ≤ 0x7F ∨ (0x84 ≤ fn ∧ fn ≤ 0x8F) ∨ (0x98 ≤ fn ∧ fn ≤ 0x9F) ∨ (0xA7 ≤ fn ∧ fn ≤ 0xAF) ∨ (0xB6 ≤ fn ∧ fn ≤ 0xFF)

end Sys2Proof.Machine
end

