-- ==== Sys2Proof/Certificates/Slice0/Obligations.lean ====
section
/-!
DEFINITION. The statements for the provers. The per-instruction statements are about `exec` on the state after the
fetch (rule R137): PC already addresses the next word. `StepRunsTheDecodedInstruction` carries them to `step`.
The frames are said with `State.changesOnly`, `State.sameExcept`, `State.sameMemory` and their like in Safety.lean.
-/

open Sys2Proof Sys2Proof.Machine

/-! ## Encoding -/

/-- Decode and encode agree on every instruction. The encoding is the spec's decision D2. -/
def Obligations.DecodeAfterEncode : Prop := ∀ i : Instr, decode (encode i) = .ok i

/-- Every legal word is the word of the instruction it decodes to, so no bit of it is dropped (the encoding is the
spec's decision D2). -/
def Obligations.EncodeAfterDecode : Prop := ∀ (w : Word) (i : Instr), decode w = .ok i → encode i = w

/-- The illegal words are those of rule R110, a set that is the spec's decision D2 (log entry 14), and fetching one
stops the run after the fetch (rule R133). That MID is 0 after the stop is log entry 6. -/
def Obligations.IllegalWordsStopTheRun : Prop :=
  (∀ w : Word, (∃ e, decode w = .error e) ↔ topNibble w = 0 ∧ illegalCode (w.toNat % 256)) ∧
    ∀ m : State, m.readyToExecute → topNibble (m.read m.pc) = 0 → illegalCode ((m.read m.pc).toNat % 256) →
      ∃ t, step m = .fault (.decodeError (m.read m.pc) t) ∧ t.ar = m.pc ∧ t.ir = m.read m.pc ∧ t.pc = m.pc + 1 ∧
        m.stopsWith [.ar, .ir, .pc] t

/-- A few words, written out bit by bit from the tables of `30_encoding.md` section 4, decode to their instructions
(the encoding is the spec's decision D2). -/
def Obligations.SampleWordsDecode : Prop :=
  decode 0x120 = .ok (.cal false 0x20) ∧ decode 0xB40 = .ok (.sta true 0x40) ∧ decode 0x802 = .ok (.ldp 0x02) ∧
    decode 0xFFF = .ok (.awt true 0xFF) ∧ decode 0x095 = .ok .cir ∧ decode 0x0A3 = .ok .fork ∧ decode 0x0B4 = .ok .ei

/-- The canonical text of a word assembles to the word. The translation is the spec's decisions D4 and D5; that
numerals are in upper case is the model's choice (log entry 11). -/
def Obligations.CanonicalTextAssembles : Prop := ∀ w : Word, assemble (.tokens (canonicalText w)) = some w

/-- The written forms without a word are refused (the spec's decision D4): a format R mnemonic with an operand, an
operand mnemonic without one, LDP with an indirect marker. -/
def Obligations.TextFormsWithoutWordAreRefused : Prop :=
  ∀ mn : Mnemonic,
    (mn.format = .r → ∀ a x : String, assemble (.tokens [mn.text, a]) = none ∧ assemble (.tokens [mn.text, a, x]) = none) ∧
    (mn.format = .m → assemble (.tokens [mn.text]) = none) ∧
    (mn.format = .p → assemble (.tokens [mn.text]) = none ∧ ∀ a x : String, assemble (.tokens [mn.text, a, x]) = none)

/-! ## The step and the arbiter -/

/-- A step at a state whose next decision is a fetch and whose word decodes to `i` is `exec i` after the fetch: AR
holds the old PC, IR the word, PC is one further, nothing else has changed (rule R131), and three records have been
published. That the fetch is three sub-steps is the spec's decision D7 (rule R210; log entry 15), and that the model
keeps the records of one decision as a list is log entry 4. -/
def Obligations.StepRunsTheDecodedInstruction : Prop :=
  ∀ (m : State) (i : Instr), m.readyToExecute → decode (m.read m.pc) = .ok i →
    ∃ u, step m = exec i u ∧ u.ar = m.pc ∧ u.ir = m.read m.pc ∧ u.pc = m.pc + 1 ∧ u.trace.length = 3 ∧
      m.changesOnly [.ar, .ir, .pc] u

/-- With GS 0 a step request changes nothing (the spec's decision D28). That the same step clears RUN, where a
continuous run finds GS 0, is the model's choice (log entry 7). -/
def Obligations.StoppedMachineOnlyEndsItsRun : Prop :=
  ∀ m : State, m.mid = false → m.gs = false →
    (m.run = false → step m = .next m) ∧ step m = .next { m with run := false }

/-- Exactly one of the three branches runs, chosen by the state at the start of the decision (rule R240). -/
def Obligations.ArbiterTakesOneBranch : Prop :=
  ∀ m : State, m.live →
    (m.wantsSwitch → step m = contextSwitch (beginDecision m)) ∧
    (¬ m.wantsSwitch → m.wantsInterrupt → step m = interruptEntry (beginDecision m)) ∧
    (¬ m.wantsSwitch → ¬ m.wantsInterrupt → step m = fetchExecute (beginDecision m))

/-- The context switch saves the live context in the current process's slot and loads that of the next process, for
both values of the open parameters `RESOLVE_CHECK` and `PRC_WRAP` (the spec's decisions D10, D11, D14, D19; log entry
1). -/
def Obligations.ContextSwitchSavesAndLoads : Prop :=
  ∀ (m : State) (k j : Slot), m.live → m.wantsSwitch → m.namesSlot (m.prc.setWidth 8) k →
    m.namesSlot (m.successor.setWidth 8) j →
    ∃ t, step m = .next t ∧ t.slot k = m.savedRecord ∧ m.sameSlotsBut k t ∧ t.prc = m.successor ∧
      t.tm = (m.read 0x08).setWidth 8 ∧ t.psr = (if j = k then m.savedRecord else m.slot j) ∧
      t.holdsContext t.psr ∧ t.s = t.psr.s ∧ t.c = !t.psr.s ∧ t.sc = 0 ∧
      t.ar = (m.read (m.successor.setWidth 8)).setWidth 8 ∧ t.mid = false ∧ m.sameMemory t ∧ m.sameControl t ∧
      m.sameExcept [.ar, .pc, .ac, .tm, .prc, .sc, .e, .c, .s, .a0, .a1, .psr] t

/-- The two fatal conditions of the context switch, and what each leaves (rule R254), for both values of the open
parameters `RESOLVE_CHECK` and `PRC_WRAP` (the spec's decisions D11, D14; log entry 1). That MID is 0 after the stop
is log entry 6. -/
def Obligations.ContextSwitchFaults : Prop :=
  ∀ (m : State) (v : Word), m.live → m.wantsSwitch →
    (m.namesNoSlot (m.prc.setWidth 8) v →
      ∃ t, step m = .fault (.processResolutionError v t) ∧ t.psr = m.savedRecord ∧
        t.ar = (m.read (m.prc.setWidth 8)).setWidth 8 ∧ m.stopsWith [.ar, .psr] t) ∧
    ∀ k : Slot, m.namesSlot (m.prc.setWidth 8) k → m.namesNoSlot (m.successor.setWidth 8) v →
      ∃ t, step m = .fault (.processResolutionError v t) ∧ t.slot k = m.savedRecord ∧ m.sameSlotsBut k t ∧
        t.psr = m.savedRecord ∧ t.prc = m.successor ∧ t.tm = (m.read 0x08).setWidth 8 ∧
        t.ar = (m.read (m.successor.setWidth 8)).setWidth 8 ∧ t.run = false ∧ t.mid = false ∧ t.params = m.params ∧
        m.sameMemory t ∧ m.sameExcept [.ar, .tm, .prc, .psr] t

/-- The interrupt entry saves the live context in the current process's slot, sends PC to the vector and clears the
requests; nothing else changes. `INT_VECTOR_MODE` is open (the spec's decisions D10, D15, D19; log entry 1). -/
def Obligations.InterruptEntrySavesAndTraps : Prop :=
  ∀ (m : State) (k : Slot), m.live → ¬ m.wantsSwitch → m.wantsInterrupt → m.namesSlot (m.prc.setWidth 8) k →
    ∃ t, step m = .next t ∧ t.slot k = m.savedRecord ∧ m.sameSlotsBut k t ∧ t.psr = m.savedRecord ∧
      (m.params.intVectorMode = .address → t.pc = 0x09 ∧ t.ar = (m.read (m.prc.setWidth 8)).setWidth 8) ∧
      (m.params.intVectorMode = .content → t.pc = (m.read 0x09).setWidth 8 ∧ t.ar = 0x09) ∧
      t.ien = false ∧ t.sw = false ∧ t.r = false ∧ t.fgi = false ∧ t.fgo = false ∧ t.sc = 0 ∧ t.mid = false ∧
      m.sameMemory t ∧ m.sameControl t ∧ m.sameExcept [.ar, .pc, .sc, .r, .sw, .ien, .fgi, .fgo, .psr] t

/-- The fatal condition of the interrupt entry: R is latched, the scratch register holds the live values, and a
further step takes the same branch again (rule R257), for both values of `RESOLVE_CHECK` (the spec's decision D11; log
entry 1). That MID is 0 after the stop is log entry 6, and that a further step runs on the committed state is log
entry 17. -/
def Obligations.InterruptEntryFaults : Prop :=
  ∀ (m : State) (v : Word), m.live → ¬ m.wantsSwitch → m.wantsInterrupt → m.namesNoSlot (m.prc.setWidth 8) v →
    ∃ t, step m = .fault (.processResolutionError v t) ∧ t.r = true ∧ t.psr = m.savedRecord ∧
      t.ar = (m.read (m.prc.setWidth 8)).setWidth 8 ∧ m.stopsWith [.ar, .r, .psr] t ∧
      step t = interruptEntry (beginDecision t)

/-- LDP of the process's own id, executed where the slot and its table cell are as the entry left them, resumes the
interrupted program, with IEN and SW left as they are (rule R258, which the spec derives from R190 and R255). -/
def Obligations.LdpReturnsFromInterrupt : Prop :=
  ∀ (m t u : State) (k : Slot), m.live → ¬ m.wantsSwitch → m.wantsInterrupt → m.namesSlot (m.prc.setWidth 8) k →
    step m = .next t → u.slot k = t.slot k → u.params = t.params →
    u.read (m.prc.setWidth 8) = t.read (m.prc.setWidth 8) →
    ∃ w, exec (.ldp (m.prc.setWidth 8)) u = .next w ∧ w.pc = m.pc ∧ w.ac = m.ac ∧ w.e = m.e ∧ w.a0 = m.a0 ∧
      w.a1 = m.a1 ∧ w.s = m.s ∧ w.ien = u.ien ∧ w.sw = u.sw

/-- An interrupt that loses to a context switch is taken at the next decision, in the new process, where that is
started (rule R242, which the spec derives from R240 and R250). -/
def Obligations.InterruptSurvivesContextSwitch : Prop :=
  ∀ m t : State, m.live → m.wantsSwitch → m.wantsInterrupt → step m = .next t →
    t.r = m.r ∧ t.ien = m.ien ∧ t.fgi = m.fgi ∧ t.fgo = m.fgo ∧
      (t.s = true → step t = interruptEntry (beginDecision t)) ∧
      (t.s = false → step t = contextSwitch (beginDecision t))

/-! ## Arithmetic and memory-reference instructions -/

/-- CAL computes with the operation the mode bits select (rule R154). -/
def Obligations.CalComputesIntoTheAccumulator : Prop :=
  ∀ (ind : Bool) (adr : Addr),
    decode ((if ind then 0x9#4 else 0x1#4) ++ adr) = .ok (.cal ind adr) ∧
      ∀ m : State, ∃ t, exec (.cal ind adr) m = .next t ∧ t.ar = effectiveOperand ind adr m ∧ t.i = ind ∧
        t.dr = m.read (effectiveOperand ind adr m) ∧
        t.ac =
          (match m.a0, m.a1 with
          | false, false => m.ac + t.dr
          | true, false => m.ac - t.dr
          | false, true => m.ac &&& t.dr
          | true, true => m.ac ||| t.dr) ∧
        t.endsInstruction m.tm m.c ∧ m.changesOnly [.ar, .i, .dr, .ac, .sc, .tm, .c] t

/-- ADD, SUB, AND, OR select the operation of the CALs that follow (rules R155 to R158). Which pair of mode bits each
of them writes is the spec's own inference (decision D29; log entry 16). -/
def Obligations.ModeInstructionsSelectTheOperation : Prop :=
  selectsMode .add 0x080 false false (fun x y => x + y) ∧ selectsMode .sub 0x081 true false (fun x y => x - y) ∧
    selectsMode .and 0x082 false true (fun x y => x &&& y) ∧ selectsMode .or 0x083 true true (fun x y => x ||| y)

/-- LDA loads AC (rule R161). -/
def Obligations.LdaLoadsTheAccumulator : Prop :=
  ∀ (ind : Bool) (adr : Addr),
    decode ((if ind then 0xA#4 else 0x2#4) ++ adr) = .ok (.lda ind adr) ∧
      ∀ m : State, ∃ t, exec (.lda ind adr) m = .next t ∧ t.ar = effectiveOperand ind adr m ∧ t.i = ind ∧
        t.ac = m.read (effectiveOperand ind adr m) ∧ t.endsInstruction m.tm m.c ∧
        m.changesOnly [.ar, .i, .ac, .sc, .tm, .c] t

/-- STA stores AC in one cell (rule R162). That the memory keeps its canonical form is the model's own (log entry 2).
-/
def Obligations.StaStoresTheAccumulator : Prop :=
  ∀ (ind : Bool) (adr : Addr),
    decode ((if ind then 0xB#4 else 0x3#4) ++ adr) = .ok (.sta ind adr) ∧
      ∀ m : State, ∃ t, exec (.sta ind adr) m = .next t ∧ t.ar = effectiveOperand ind adr m ∧ t.i = ind ∧
        t.read (effectiveOperand ind adr m) = m.ac ∧ m.sameMemoryBut (effectiveOperand ind adr m) t ∧
        (m.mem.wf = true → t.mem.wf = true) ∧ t.endsInstruction m.tm m.c ∧
        m.sameExcept [.ar, .i, .sc, .tm, .c] t ∧ m.sameSlots t ∧ m.sameControl t

/-- BR sends PC to its operand (rule R163). -/
def Obligations.BrBranches : Prop :=
  ∀ (ind : Bool) (adr : Addr),
    decode ((if ind then 0xC#4 else 0x4#4) ++ adr) = .ok (.br ind adr) ∧
      ∀ m : State, ∃ t, exec (.br ind adr) m = .next t ∧ t.ar = effectiveOperand ind adr m ∧ t.i = ind ∧
        t.pc = effectiveOperand ind adr m ∧ t.endsInstruction m.tm m.c ∧
        m.changesOnly [.ar, .i, .pc, .sc, .tm, .c] t

/-- ISA increments one cell and skips where the new value is AC (rule R164). -/
def Obligations.IsaIncrementsAndSkipsOnMatch : Prop :=
  ∀ (ind : Bool) (adr : Addr),
    decode ((if ind then 0xD#4 else 0x5#4) ++ adr) = .ok (.isa ind adr) ∧
      ∀ m : State, ∃ t, exec (.isa ind adr) m = .next t ∧ t.ar = effectiveOperand ind adr m ∧ t.i = ind ∧
        t.dr = m.read (effectiveOperand ind adr m) + 1 ∧ t.read (effectiveOperand ind adr m) = t.dr ∧
        m.sameMemoryBut (effectiveOperand ind adr m) t ∧ t.pc = (if t.dr = m.ac then m.pc + 1 else m.pc) ∧
        t.endsInstruction m.tm m.c ∧ m.sameExcept [.ar, .i, .dr, .pc, .sc, .tm, .c] t ∧ m.sameSlots t ∧
        m.sameControl t

/-! ## Register-reference and input-output instructions -/

/-- SZA and SZE skip on a zero AC and on a zero E (rules R171, R172). -/
def Obligations.SzaSzeSkipOnZero : Prop :=
  writesOnly .sza 0x090 [.pc] (fun m t => t.pc = if m.ac = 0 then m.pc + 1 else m.pc) ∧
    writesOnly .sze 0x091 [.pc] (fun m t => t.pc = if m.e = false then m.pc + 1 else m.pc)

/-- CLE clears and CME complements E; CMA complements and ICA increments AC. That CMA is the bitwise complement is the
spec's decision D21. -/
def Obligations.ClearComplementIncrement : Prop :=
  writesOnly .cle 0x092 [.e] (fun _ t => t.e = false) ∧
    writesOnly .cma 0x093 [.ac] (fun m t => t.ac = ~~~m.ac) ∧
    writesOnly .cme 0x094 [.e] (fun m t => t.e = !m.e) ∧ writesOnly .ica 0x097 [.ac] (fun m t => t.ac = m.ac + 1)

/-- CIR and CIL turn the ring of E and the 12 bits of AC by one place (the spec's decision D21). -/
def Obligations.CirCilRotateThroughE : Prop :=
  writesOnly .cir 0x095 [.ac, .e] (fun m t =>
      t.ac.getLsbD 11 = m.e ∧ (∀ n < 11, t.ac.getLsbD n = m.ac.getLsbD (n + 1)) ∧ t.e = m.ac.getLsbD 0) ∧
    writesOnly .cil 0x096 [.ac, .e] (fun m t =>
      t.ac.getLsbD 0 = m.e ∧ (∀ n < 11, t.ac.getLsbD (n + 1) = m.ac.getLsbD n) ∧ t.e = m.ac.getLsbD 11)

/-- CIL undoes CIR and CIR undoes CIL, and thirteen turns in one direction restore AC and E (the spec's decision D21).
-/
def Obligations.RotationsUndoEachOther : Prop :=
  (∀ m t u : State, exec .cir m = .next t → exec .cil t = .next u → u.ac = m.ac ∧ u.e = m.e) ∧
    (∀ m t u : State, exec .cil m = .next t → exec .cir t = .next u → u.ac = m.ac ∧ u.e = m.e) ∧
    ∀ (e : Bool) (ac : Word),
      (fun q : Bool × Word => rotateRight q.1 q.2)^[13] (e, ac) = (e, ac) ∧
        (fun q : Bool × Word => rotateLeft q.1 q.2)^[13] (e, ac) = (e, ac)

/-- INP and OUT move a nibble and clear the device's flag. That INP clears the upper 8 bits of AC, and OUT takes the
low 4, is the spec's decision D30. -/
def Obligations.InpOutMoveOneNibble : Prop :=
  writesOnly .inp 0x0B0 [.ac, .fgi] (fun m t => t.ac = m.inpr.setWidth 12 ∧ t.fgi = false) ∧
    writesOnly .out 0x0B1 [.outr, .fgo] (fun m t => t.outr = m.ac.setWidth 4 ∧ t.fgo = false)

/-- SKI and SKO skip on a set flag, which they keep (rules R203, R204). -/
def Obligations.SkiSkoSkipOnFlag : Prop :=
  writesOnly .ski 0x0B2 [.pc] (fun m t => t.pc = if m.fgi = true then m.pc + 1 else m.pc) ∧
    writesOnly .sko 0x0B3 [.pc] (fun m t => t.pc = if m.fgo = true then m.pc + 1 else m.pc)

/-- EI sets and DI clears IEN (rules R205, R206). -/
def Obligations.EiDiWriteIen : Prop :=
  writesOnly .ei 0x0B4 [.ien] (fun _ t => t.ien = true) ∧ writesOnly .di 0x0B5 [.ien] (fun _ t => t.ien = false)

/-- EI takes effect at the next decision: with a flag up, that decision is the interrupt entry (rule R259, which the
spec derives from R240). -/
def Obligations.EiTakesEffectAtOnce : Prop :=
  ∀ m t : State, m.gs = true → m.s = true → m.fgi = true ∨ m.fgo = true → exec .ei m = .next t →
    ¬ (t.c = true ∧ t.sw = true) → step t = interruptEntry (beginDecision t)

/-! ## Process-control instructions -/

/-- ESW sets and DSW clears SW, and an expiry in the same instruction sees the new value (rules R182, R183). -/
def Obligations.EswDswWriteSw : Prop :=
  writesOnly .esw 0x0A0 [.sw] (fun _ t => t.sw = true) ∧ writesOnly .dsw 0x0A1 [.sw] (fun _ t => t.sw = false)

/-- HLT stops the current process; the next decision is a context switch, unless all are stopped. That the process was
running is read before S is cleared is the spec's decision D31. -/
def Obligations.HltStopsTheProcess : Prop :=
  decode 0x0A2 = .ok .hlt ∧
    ∀ m : State, ∃ t, exec .hlt m = .next t ∧ t.s = false ∧ t.pc = m.pc - 1 ∧
      t.ns = (if m.s = true then m.ns + 1 else m.ns) ∧ t.gs = (if t.ns = m.tp then false else m.gs) ∧ t.i = false ∧
      t.endsInstruction m.tm true ∧ m.changesOnly [.s, .pc, .ns, .gs, .i, .sc, .tm, .c] t ∧
      (t.gs = true → step t = contextSwitch (beginDecision t)) ∧ (t.gs = false → t.run = false → step t = .next t)

/-- FORK writes a record of the live context to the new process's slot and counts it. `FORK_SLOT` is open (the spec's
decision D13; log entry 1). -/
def Obligations.ForkCopiesTheProcess : Prop :=
  ∀ (m : State) (k : Slot), m.tp ≠ 7 → m.forkTarget k →
    ∃ t, exec .fork m = .next t ∧ t.slot k = m.savedRecord ∧ m.sameSlotsBut k t ∧ t.psr = m.savedRecord ∧
      t.tp = m.tp + 1 ∧ (m.params.forkSlot = .direct → t.ar = m.ar) ∧
      (m.params.forkSlot = .table → t.ar = (m.read (m.tp.setWidth 8)).setWidth 8) ∧ t.i = false ∧
      t.endsInstruction m.tm m.c ∧ m.sameMemory t ∧ m.sameControl t ∧
      m.sameExcept [.ar, .tp, .psr, .i, .sc, .tm, .c] t

/-- FORK's fatal conditions: the table of processes is full, or there is no slot to write (the spec's decisions D12,
D13, D20; the reported index is zero-extended, log entry 13; the open parameters, log entry 1). That MID is 0 after
the stop is log entry 6. -/
def Obligations.ForkFaults : Prop :=
  ∀ m : State,
    (m.tp = 7 → ∃ t, exec .fork m = .fault (.capacityError 7 t) ∧ t.i = false ∧ m.stopsWith [.i] t) ∧
    (m.params.forkSlot = .direct → 8 ≤ m.tp.toNat →
      ∃ t, exec .fork m = .fault (.processResolutionError (m.tp.setWidth 12) t) ∧ t.psr = m.savedRecord ∧
        t.i = false ∧ m.stopsWith [.psr, .i] t) ∧
    ∀ v : Word, m.params.forkSlot = .table → m.tp ≠ 7 → m.namesNoSlot (m.tp.setWidth 8) v →
      ∃ t, exec .fork m = .fault (.processResolutionError v t) ∧ t.psr = m.savedRecord ∧
        t.ar = (m.read (m.tp.setWidth 8)).setWidth 8 ∧ t.i = false ∧ m.stopsWith [.ar, .psr, .i] t

/-- RST resets the stored record of the current process to its entry point, and the live registers only where
`RST_LIVE` is set (the spec's decision D16; log entry 1). -/
def Obligations.RstResetsTheStoredRecord : Prop :=
  ∀ (m : State) (k : Slot), m.namesSlot (m.prc.setWidth 8) k →
    ∃ t, exec .rst m = .next t ∧ t.slot k = entryRecord (m.slot k).pc0 ∧ m.sameSlotsBut k t ∧
      t.psr = entryRecord (m.slot k).pc0 ∧ t.ar = (m.read (m.prc.setWidth 8)).setWidth 8 ∧ t.i = false ∧
      t.endsInstruction m.tm m.c ∧ m.sameMemory t ∧ m.sameControl t ∧
      (m.params.rstLive = false → m.sameExcept [.ar, .psr, .i, .sc, .tm, .c] t) ∧
      (m.params.rstLive = true →
        t.holdsContext (entryRecord (m.slot k).pc0) ∧ t.s = false ∧
          m.sameExcept [.ar, .psr, .i, .sc, .tm, .c, .pc, .ac, .e, .a0, .a1, .s] t)

/-- SWT saves the live context, makes the target the current process and loads its context (the spec's decision D17).
-/
def Obligations.SwtSwitchesToTheTarget : Prop :=
  ∀ (ind : Bool) (adr : Addr) (m : State) (k j : Slot), m.namesSlot (m.prc.setWidth 8) k →
    m.namesSlot (((effectiveOperand ind adr m).setWidth 4).setWidth 8) j →
    ∃ t, exec (.swt ind adr) m = .next t ∧ t.slot k = m.savedRecord ∧ m.sameSlotsBut k t ∧
      t.prc = (effectiveOperand ind adr m).setWidth 4 ∧ t.psr = (if j = k then m.savedRecord else m.slot j) ∧
      t.holdsContext t.psr ∧ t.s = true ∧ t.ns = (if t.psr.s = true then m.ns else m.ns - 1) ∧ t.ar = 0x08 ∧
      t.i = ind ∧ t.endsInstruction ((m.read 0x08).setWidth 8) m.c ∧ m.sameMemory t ∧ m.sameControl t ∧
      m.sameExcept [.ar, .pc, .ac, .tm, .prc, .ns, .sc, .i, .e, .c, .s, .a0, .a1, .psr] t

/-- SWT's two fatal conditions, and what each leaves (the spec's decisions D17, D20). That MID is 0 after the stop is
log entry 6. -/
def Obligations.SwtFaults : Prop :=
  ∀ (ind : Bool) (adr : Addr) (m : State) (v : Word),
    (m.namesNoSlot (m.prc.setWidth 8) v →
      ∃ t, exec (.swt ind adr) m = .fault (.processResolutionError v t) ∧ t.psr = m.savedRecord ∧ t.i = ind ∧
        t.ar = (m.read (m.prc.setWidth 8)).setWidth 8 ∧ m.stopsWith [.ar, .psr, .i] t) ∧
    ∀ k : Slot, m.namesSlot (m.prc.setWidth 8) k →
      m.namesNoSlot (((effectiveOperand ind adr m).setWidth 4).setWidth 8) v →
      ∃ t, exec (.swt ind adr) m = .fault (.processResolutionError v t) ∧ t.slot k = m.savedRecord ∧
        m.sameSlotsBut k t ∧ t.psr = m.savedRecord ∧ t.prc = (effectiveOperand ind adr m).setWidth 4 ∧ t.i = ind ∧
        t.ar = (m.read (((effectiveOperand ind adr m).setWidth 4).setWidth 8)).setWidth 8 ∧ t.run = false ∧
        t.mid = false ∧ t.params = m.params ∧ m.sameMemory t ∧ m.sameExcept [.ar, .prc, .psr, .i] t

/-- AWT repeats itself and asks for a context switch while the target is started, and goes on once it is stopped (the
spec's decision D18). -/
def Obligations.AwtWaitsForTheTarget : Prop :=
  ∀ (ind : Bool) (adr : Addr) (m : State) (k : Slot), m.namesSlot (effectiveOperand ind adr m) k →
    ∃ t, exec (.awt ind adr) m = .next t ∧ t.psr = m.slot k ∧ t.i = ind ∧
      t.ar = (m.read (effectiveOperand ind adr m)).setWidth 8 ∧
      t.pc = (if (m.slot k).s = true then m.pc - 1 else m.pc) ∧
      t.endsInstruction m.tm (if (m.slot k).s = true then true else m.c) ∧
      m.changesOnly [.ar, .pc, .psr, .i, .sc, .tm, .c] t

/-- LDP loads the stored context of the process its operand names; no slot is written (the spec's decision D18). -/
def Obligations.LdpLoadsTheStoredContext : Prop :=
  ∀ (adr : Addr) (m : State) (k : Slot), m.namesSlot adr k →
    ∃ t, exec (.ldp adr) m = .next t ∧ t.psr = m.slot k ∧ t.holdsContext (m.slot k) ∧ t.s = (m.slot k).s ∧
      t.i = false ∧ t.ar = (m.read adr).setWidth 8 ∧ t.endsInstruction m.tm m.c ∧
      m.changesOnly [.ar, .pc, .ac, .e, .a0, .a1, .s, .psr, .i, .sc, .tm, .c] t

/-- RST, AWT and LDP stop where the table word they resolve names no slot; only the decode and AR are committed (the
spec's decisions D11, D20). That MID is 0 after the stop is log entry 6. -/
def Obligations.FailedResolutionStopsTheInstruction : Prop :=
  ∀ (m : State) (v : Word),
    (m.namesNoSlot (m.prc.setWidth 8) v →
      ∃ t, exec .rst m = .fault (.processResolutionError v t) ∧ t.i = false ∧
        t.ar = (m.read (m.prc.setWidth 8)).setWidth 8 ∧ m.stopsWith [.ar, .i] t) ∧
    ∀ adr : Addr,
      (∀ ind : Bool, m.namesNoSlot (effectiveOperand ind adr m) v →
        ∃ t, exec (.awt ind adr) m = .fault (.processResolutionError v t) ∧ t.i = ind ∧
          t.ar = (m.read (effectiveOperand ind adr m)).setWidth 8 ∧ m.stopsWith [.ar, .i] t) ∧
      (m.namesNoSlot adr v →
        ∃ t, exec (.ldp adr) m = .fault (.processResolutionError v t) ∧ t.i = false ∧
          t.ar = (m.read adr).setWidth 8 ∧ m.stopsWith [.ar, .i] t)

/-- SPA skips where the current process's table entry is AC, by way of AR (the spec's decision D8). -/
def Obligations.SpaSkipsOnTheTableEntry : Prop :=
  writesOnly .spa 0x0A5 [.pc, .ar] (fun m t =>
    t.ar = m.prc.setWidth 8 ∧ t.pc = if m.read (m.prc.setWidth 8) = m.ac then m.pc + 1 else m.pc)

/-- UTM reloads the timer by way of AR (rule R192, the spec's decision D8), and the same instruction then decrements
it (the spec's decision D34; log entry 15). -/
def Obligations.UtmReloadsTheTimer : Prop :=
  decode 0x0A6 = .ok .utm ∧
    ∀ m : State, ∃ t, exec .utm m = .next t ∧ t.ar = 0x08 ∧ t.i = false ∧
      t.endsInstruction ((m.read 0x08).setWidth 8) m.c ∧ m.changesOnly [.ar, .i, .sc, .tm, .c] t

/-! ## The whole machine -/

/-- Every step keeps the engine's invariant. The memory's canonical form is the model's own (log entry 2); the rest is
what rules R36, R40 and R53 say of the end of a decision. -/
def Obligations.EveryStepKeepsTheInvariant : Prop :=
  ∀ m t : State, m.engineInvariant → step m = .next t → t.engineInvariant

/-- The reset state has the engine's invariant. The memory's canonical form is the model's own (log entry 2), and MID
0 at reset is the spec's decision D26 (log entry 12). -/
def Obligations.ResetHasTheInvariant : Prop := State.reset.engineInvariant

/-- After reset every register, flip-flop, record and cell is zero, RUN and MID are 0, no record is pending, and a
step request changes nothing. The zeros of the scratch register, the memories, RUN and MID are the spec's decision D26
(log entry 12). -/
def Obligations.ResetIsZeroAndIdle : Prop :=
  (∀ n : Element, State.reset.value n = 0) ∧ (∀ a : Addr, State.reset.read a = 0) ∧
    (∀ k : Slot, State.reset.slot k = Psr.zero) ∧ State.reset.run = false ∧ State.reset.mid = false ∧
    State.reset.pending = none ∧ step State.reset = .next State.reset

/-- TR and TAR are written by no step and influence nothing: the same step from other values of them gives the same
outcome with those values, in what its readers see between the sub-steps as well (the spec's decision D9). -/
def Obligations.UnusedRegistersInfluenceNothing : Prop :=
  (∀ (m : State) (x : Word) (y : Nibble), step (m.withUnused x y) = mapOutcome (State.withUnused x y) (step m)) ∧
    ∀ m t : State, step m = .next t → t.tr = m.tr ∧ t.tar = m.tar

/-- A step that changes a cell of primary memory executes STA or ISA, and the cell is its operand. -/
def Obligations.OnlyStaAndIsaWriteMemory : Prop :=
  ∀ (m t : State) (a : Addr), step m = .next t → t.read a ≠ m.read a →
    m.readyToExecute ∧ ∃ (ind : Bool) (adr : Addr), a = effectiveOperand ind adr m ∧
      (decode (m.read m.pc) = .ok (.sta ind adr) ∨ decode (m.read m.pc) = .ok (.isa ind adr))

/-- No step makes a new entry point: every PC0 the machine holds after a step it held before (the spec's decision
D10). -/
def Obligations.EntryPointsAreOnlyCopied : Prop :=
  ∀ (m t : State) (p : Addr), step m = .next t → t.holdsEntryPoint p → m.holdsEntryPoint p

/-- A step that changes GS clears it, by a HLT that found NS equal to TP (rule R47). -/
def Obligations.OnlyHltClearsGs : Prop :=
  ∀ m t : State, step m = .next t → t.gs ≠ m.gs →
    t.gs = false ∧ m.readyToExecute ∧ decode (m.read m.pc) = .ok .hlt ∧ t.ns = t.tp

/-- The engine never writes INPR and never sets FGI or FGO: a step clears a flag by an interrupt entry, or by INP or
OUT. -/
def Obligations.DeviceFlagsAreOnlyCleared : Prop :=
  ∀ m t : State, step m = .next t →
    t.inpr = m.inpr ∧
      (t.fgi ≠ m.fgi → t.fgi = false ∧ m.live ∧ ¬ m.wantsSwitch ∧
        (m.wantsInterrupt ∨ decode (m.read m.pc) = .ok .inp)) ∧
      (t.fgo ≠ m.fgo → t.fgo = false ∧ m.live ∧ ¬ m.wantsSwitch ∧
        (m.wantsInterrupt ∨ decode (m.read m.pc) = .ok .out))

/-- Every instruction that completes clears SC and ends its decision; all but SWT and UTM leave TM one less; C is SW
where TM reached 0, and elsewhere is kept by all but HLT and AWT (the spec's decisions D33, D34). -/
def Obligations.InstructionsEndTheSameWay : Prop :=
  ∀ (i : Instr) (m t : State), exec i m = .next t →
    t.sc = 0 ∧ t.mid = false ∧ t.run = m.run ∧ t.params = m.params ∧ (t.tm = 0 → t.c = t.sw) ∧
      (i.mnemonic ≠ .swt → i.mnemonic ≠ .utm → t.tm = m.tm - 1) ∧
      (i.mnemonic ≠ .hlt → i.mnemonic ≠ .awt → t.tm ≠ 0 → t.c = m.c)

/-- Where a handler raises a fatal condition `EndOfInstruction` does not run and RUN is cleared: SC, TM, C, TP and
primary memory are as before (rules R138, R263). That MID is 0 is log entry 6. -/
def Obligations.FaultingHandlersDoNotEnd : Prop :=
  ∀ (i : Instr) (m : State) (f : Fault), exec i m = .fault f →
    f.committed.sc = m.sc ∧ f.committed.tm = m.tm ∧ f.committed.c = m.c ∧ f.committed.tp = m.tp ∧
      m.sameMemory f.committed ∧ f.committed.run = false ∧ f.committed.mid = false

/-- Only FORK, RST, SWT, AWT and LDP can raise a fatal condition, of the two kinds rule R262 gives them, and no
instruction is refused (rules R138, R262). -/
def Obligations.OnlyFiveInstructionsFault : Prop :=
  ∀ (i : Instr) (m : State),
    (∀ r, exec i m ≠ .refused r) ∧
      ∀ f, exec i m = .fault f →
        i.mnemonic ∈ [.fork, .rst, .swt, .awt, .ldp] ∧ (f.code = 2 ∨ (f.code = 3 ∧ i = .fork ∧ m.tp = 7))

/-- The records of a decision are right: each change-set names exactly the elements whose value its sub-step changed
(rule R211; that it is the value that counts is the spec's decision D23), the pointer is AR or PC by the phase, the last
record of a completed decision and no other is marked end-of-instruction, and a decision that ends in a fatal condition
publishes none (rule R212, the spec's decision D7). A read after the last sub-step sees the state it left; after a fatal
condition RUN and MID alone differ from it (rule R217; log entries 4 and 6). What is acknowledged is the model's choice
(log entry 5). -/
def Obligations.PacerMarksTheEndOfEveryDecision : Prop :=
  ∀ m : State, m.gs = true →
    (∀ t, step m = .next t →
      ∃ last earlier, t.trace = last :: earlier ∧ last.phase = .endOfInstruction ∧ last.pointer = t.pc ∧
        last.left = t.toContents ∧ t.acknowledged = t.run ∧ (∀ p ∈ earlier, p.phase = .midInstruction) ∧
        recordsRight m.toContents t.trace) ∧
    ∀ f, step m = .fault f →
      f.committed.trace ≠ [] ∧ (∀ p ∈ f.committed.trace, p.phase = .midInstruction) ∧
        recordsRight m.toContents f.committed.trace ∧
        f.committed.toContents =
          { contentsAfter m.toContents f.committed.trace with run := false, mid := false }

/-- When the timer reaches 0 with SW 1, the next decision is a context switch, before any further fetch (rules R139,
R271). -/
def Obligations.ExpiryForcesAContextSwitch : Prop :=
  ∀ (i : Instr) (m t : State), exec i m = .next t → t.gs = true → t.tm = 0 → t.sw = true →
    step t = contextSwitch (beginDecision t)

/-- A write to primary memory or to a slot changes exactly the addressed cell or slot, and a memory in canonical form
is determined by what it reads (rules R75, R86). -/
def Obligations.WritesChangeOnePlace : Prop :=
  (∀ (m : State) (a b : Addr) (w : Word), (m.write a w).read b = if b = a then w else m.read b) ∧
    (∀ (m : State) (k j : Slot) (p : Psr), (m.setSlot k p).slot j = if j = k then p else m.slot j) ∧
    (∀ (x : Memory) (a : Addr) (w : Word), x.wf = true → (x.write a w).wf = true) ∧
    ∀ x y : Memory, x.wf = true → y.wf = true → (∀ a : Addr, x.read a = y.read a) → x = y

/-- Addition and subtraction wrap modulo `2^n` (rules R150, R151). -/
def Obligations.ArithmeticWrapsAround : Prop :=
  ∀ (n : Nat) (a b : BitVec n),
    (addN a b).toNat = (a.toNat + b.toNat) % 2 ^ n ∧ (negN b).toNat = (2 ^ n - b.toNat) % 2 ^ n ∧
      subN a b = addN a (negN b) ∧ addN (subN a b) b = a

/-! ## The controller -/

/-- A continuous run is a sequence of whole steps, the same that as many step requests make: one that is still running
after `n` turns has made `n` of them, one that has ended without a fatal condition found GS 0, and one that met a fatal
condition has RUN 0 (rule R215). The loop as a function is the model's (log entry 7). -/
def Obligations.ContinuousRunIsASequenceOfSteps : Prop :=
  ∀ (n : Nat) (m : State),
    (∃ k, k ≤ n ∧ continuousLoop n m = core.run k m) ∧
    (∀ t, continuousLoop n m = .next t →
      (t.run = true → core.run n m = .next t) ∧ (m.run = true → t.run = false → t.gs = false)) ∧
    ∀ f, continuousLoop n m = .fault f → f.committed.run = false

/-- An edit writes the one element it names, where that is one of the twelve of rule R218, reduced to its width; an edit
of another element, or while MID is 1, changes nothing. That the first leaves the state as it is, is the model's choice
(log entry 9). -/
def Obligations.EditsWriteOneEditableElement : Prop :=
  ∀ (n : Element) (v : Int) (m : State), ∃ t, perform (.edit (.element n v)) m = .next t ∧
    (m.mid = true → t = m) ∧
    (n ∉ [Element.ar, .pc, .prc, .inpr, .ns, .tar, .ien, .sw, .fgi, .fgo, .s, .gs] → t = m) ∧
    (m.mid = false → n ∈ [Element.ar, .pc, .prc, .inpr, .ns, .tar, .ien, .sw, .fgi, .fgo, .s, .gs] →
      (t.value n : Int) = v % 2 ^ n.bits ∧ m.changesOnly [n] t ∧ m.samePacing t)

/-- A load that completes gives the named registers, flip-flops, cells and slots the document's values, reduced to their
widths, keeps what the document does not name, derives TM from cell 8 and TP from the number of rows, and leaves RUN,
MID, the parameters and the pacer alone. A cell that two entries of section M fill is left out of the statement: which
of them it takes is the model's choice (log entry 10). A load that fails its validation leaves the reset state, with the
machine's own parameters (log entries 1 and 10). -/
def Obligations.LoadDerivesTimerAndCount : Prop :=
  ∀ (d : LoadDocument) (m : State),
    (∀ t, perform (.load d) m = .next t →
      t.tm = (t.read 0x08).setWidth 8 ∧ t.tp = (if d.rows = [] then 1 else BitVec.ofNat 4 d.rows.length) ∧
        m.samePacing t ∧
        (∀ (n : Element) (v : Int), n ≠ .tm → n ≠ .tp → (n.text, .number v) ∈ d.reg →
          (t.value n : Int) = v % 2 ^ n.bits) ∧
        (∀ vs : List Int, ("PSR", .fields vs) ∈ d.reg → t.psr.holdsFields vs) ∧
        (∀ (n : Element) (b : Bool), (n.text, b) ∈ d.ff → t.value n = b.toNat) ∧
        (∀ n : Element, n ≠ .tm → n ≠ .tp → (∀ v, (n.text, v) ∉ d.reg) → (∀ b, (n.text, b) ∉ d.ff) →
          t.value n = m.value n) ∧
        (∀ e ∈ d.cells, ∀ (j : Nat) (text : CellText), e.2[j]? = some text →
          (∀ e' ∈ d.cells, fills e' (e.1 + j) → e' = e) →
          assemble text = some (t.read (BitVec.ofInt 8 (e.1 + j)))) ∧
        (∀ a : Addr, (∀ e ∈ d.cells, ¬ fills e a.toNat) → t.read a = m.read a) ∧
        (∀ (k : Int) (vs : List Int), (k, vs) ∈ d.rows → (t.slot (BitVec.ofInt 3 k)).holdsFields vs) ∧
        ∀ k : Slot, (∀ vs, ((k.toNat : Int), vs) ∉ d.rows) → t.slot k = m.slot k) ∧
    ∀ f, perform (.load d) m = .fault f → f = .loadValidationError { State.reset with params := m.params }

/-- An edit of a cell writes the word of its text to that cell alone, an edit of a field of a stored record writes that
field alone, reduced to its width; both change nothing while MID is 1 (rule R219). That a text without a word is refused
is the spec's decision D4; a refusal of the edit is the model's form of it (log entry 10). -/
def Obligations.EditsWriteOneCellOrField : Prop :=
  ∀ m : State,
    (∀ (a : Addr) (text : CellText),
      (m.mid = true → perform (.edit (.cell a text)) m = .next m) ∧
      (m.mid = false → assemble text = none → perform (.edit (.cell a text)) m = .refused .textHasNoWord) ∧
      ∀ w : Word, m.mid = false → assemble text = some w →
        ∃ t, perform (.edit (.cell a text)) m = .next t ∧ t.read a = w ∧ m.sameMemoryBut a t ∧ m.sameExcept [] t ∧
          m.sameSlots t ∧ m.samePacing t) ∧
    ∀ (k : Slot) (f : PsrField) (v : Int),
      (m.mid = true → perform (.edit (.pcbField k f v)) m = .next m) ∧
      (m.mid = false →
        ∃ t, perform (.edit (.pcbField k f v)) m = .next t ∧ ((t.slot k).field f : Int) = v % 2 ^ f.bits ∧
          (∀ g, g ≠ f → (t.slot k).field g = (m.slot k).field g) ∧ m.sameSlotsBut k t ∧ m.sameExcept [] t ∧
          m.sameMemory t ∧ m.samePacing t)
end

