-- ==== Sys2Proof/Laws/Arith.lean ====
section
/-!
SUPPORT. The register arithmetic as the library's bit-vector arithmetic (rules R150 to R152): one lemma per operation.
-/

namespace Sys2Proof.Machine

variable {n : Nat}

theorem addN_eq (a b : BitVec n) : addN a b = a + b := by
  apply BitVec.eq_of_toNat_eq
  simp [addN, narrow]

theorem negN_eq (b : BitVec n) : negN b = -b := by
  apply BitVec.eq_of_toNat_eq
  simp [negN, narrow, BitVec.toNat_neg]

theorem subN_eq (a b : BitVec n) : subN a b = a - b := by
  rw [subN, addN_eq, negN_eq, BitVec.sub_eq_add_neg]

theorem notN_eq (a : BitVec n) : notN a = ~~~a := by
  apply BitVec.eq_of_toNat_eq
  have h := a.isLt
  rw [notN, narrow, BitVec.toNat_ofNat, BitVec.toNat_not, Nat.mod_eq_of_lt (by omega)]

theorem narrow_one : narrow n 1 = 1 := rfl

theorem inc_eq (a : BitVec n) : inc a = a + 1 := by rw [inc, addN_eq, narrow_one]

theorem dec_eq (a : BitVec n) : dec a = a - 1 := by rw [dec, subN_eq, narrow_one]

/-- The low 8 bits of a word are its remainder modulo 256 (rule R21). -/
theorem low8_toNat (w : Word) : (low8 w).toNat = w.toNat % 256 := by simp [low8]

/-- A zero-extended value keeps its number (rule R21). -/
theorem zext8_toNat (v : Nibble) : (zext8 v).toNat = v.toNat := by
  have h := v.isLt
  simp only [zext8, BitVec.toNat_setWidth]
  omega

end Sys2Proof.Machine
end

