-- ==== Sys2Proof/Laws/State.lean ====
section
/-!
SUPPORT. One lemma per field per update, true by `rfl`: a sub-step has the fields of the state its function gives, but
for the pacer's three. With them no later proof unfolds a record update.
-/

namespace Sys2Proof.Machine

section Substep
variable (f : State → State) (m : State)

@[simp] theorem substep_ar : (substep f m).ar = (f m).ar := rfl
@[simp] theorem substep_pc : (substep f m).pc = (f m).pc := rfl
@[simp] theorem substep_dr : (substep f m).dr = (f m).dr := rfl
@[simp] theorem substep_ac : (substep f m).ac = (f m).ac := rfl
@[simp] theorem substep_inpr : (substep f m).inpr = (f m).inpr := rfl
@[simp] theorem substep_ir : (substep f m).ir = (f m).ir := rfl
@[simp] theorem substep_tr : (substep f m).tr = (f m).tr := rfl
@[simp] theorem substep_tm : (substep f m).tm = (f m).tm := rfl
@[simp] theorem substep_prc : (substep f m).prc = (f m).prc := rfl
@[simp] theorem substep_tar : (substep f m).tar = (f m).tar := rfl
@[simp] theorem substep_tp : (substep f m).tp = (f m).tp := rfl
@[simp] theorem substep_ns : (substep f m).ns = (f m).ns := rfl
@[simp] theorem substep_outr : (substep f m).outr = (f m).outr := rfl
@[simp] theorem substep_sc : (substep f m).sc = (f m).sc := rfl
@[simp] theorem substep_i : (substep f m).i = (f m).i := rfl
@[simp] theorem substep_e : (substep f m).e = (f m).e := rfl
@[simp] theorem substep_r : (substep f m).r = (f m).r := rfl
@[simp] theorem substep_c : (substep f m).c = (f m).c := rfl
@[simp] theorem substep_sw : (substep f m).sw = (f m).sw := rfl
@[simp] theorem substep_ien : (substep f m).ien = (f m).ien := rfl
@[simp] theorem substep_fgi : (substep f m).fgi = (f m).fgi := rfl
@[simp] theorem substep_fgo : (substep f m).fgo = (f m).fgo := rfl
@[simp] theorem substep_s : (substep f m).s = (f m).s := rfl
@[simp] theorem substep_gs : (substep f m).gs = (f m).gs := rfl
@[simp] theorem substep_a0 : (substep f m).a0 = (f m).a0 := rfl
@[simp] theorem substep_a1 : (substep f m).a1 = (f m).a1 := rfl
@[simp] theorem substep_psr : (substep f m).psr = (f m).psr := rfl
@[simp] theorem substep_slots : (substep f m).slots = (f m).slots := rfl
@[simp] theorem substep_mem : (substep f m).mem = (f m).mem := rfl
@[simp] theorem substep_run : (substep f m).run = (f m).run := rfl
@[simp] theorem substep_params : (substep f m).params = (f m).params := rfl
@[simp] theorem substep_mid : (substep f m).mid = true := rfl
@[simp] theorem substep_acknowledged : (substep f m).acknowledged = true := rfl

/-- A sub-step leaves what its function gives, with MID set. -/
theorem substep_contents : (substep f m).toContents = { (f m).toContents with mid := true } := rfl

theorem substep_trace : (substep f m).trace =
    { changed := changeSet m (f m), phase := .midInstruction, pointer := (f m).ar,
      left := (substep f m).toContents } :: (f m).trace := rfl

@[simp] theorem substep_value (n : Element) : (substep f m).value n = (f m).value n := by cases n <;> rfl
@[simp] theorem substep_read (a : Addr) : (substep f m).read a = (f m).read a := rfl
@[simp] theorem substep_slot (k : Slot) : (substep f m).slot k = (f m).slot k := rfl

@[simp] theorem lastSubstep_ar : (lastSubstep f m).ar = (f m).ar := rfl
@[simp] theorem lastSubstep_pc : (lastSubstep f m).pc = (f m).pc := rfl
@[simp] theorem lastSubstep_dr : (lastSubstep f m).dr = (f m).dr := rfl
@[simp] theorem lastSubstep_ac : (lastSubstep f m).ac = (f m).ac := rfl
@[simp] theorem lastSubstep_inpr : (lastSubstep f m).inpr = (f m).inpr := rfl
@[simp] theorem lastSubstep_ir : (lastSubstep f m).ir = (f m).ir := rfl
@[simp] theorem lastSubstep_tr : (lastSubstep f m).tr = (f m).tr := rfl
@[simp] theorem lastSubstep_tm : (lastSubstep f m).tm = (f m).tm := rfl
@[simp] theorem lastSubstep_prc : (lastSubstep f m).prc = (f m).prc := rfl
@[simp] theorem lastSubstep_tar : (lastSubstep f m).tar = (f m).tar := rfl
@[simp] theorem lastSubstep_tp : (lastSubstep f m).tp = (f m).tp := rfl
@[simp] theorem lastSubstep_ns : (lastSubstep f m).ns = (f m).ns := rfl
@[simp] theorem lastSubstep_outr : (lastSubstep f m).outr = (f m).outr := rfl
@[simp] theorem lastSubstep_sc : (lastSubstep f m).sc = (f m).sc := rfl
@[simp] theorem lastSubstep_i : (lastSubstep f m).i = (f m).i := rfl
@[simp] theorem lastSubstep_e : (lastSubstep f m).e = (f m).e := rfl
@[simp] theorem lastSubstep_r : (lastSubstep f m).r = (f m).r := rfl
@[simp] theorem lastSubstep_c : (lastSubstep f m).c = (f m).c := rfl
@[simp] theorem lastSubstep_sw : (lastSubstep f m).sw = (f m).sw := rfl
@[simp] theorem lastSubstep_ien : (lastSubstep f m).ien = (f m).ien := rfl
@[simp] theorem lastSubstep_fgi : (lastSubstep f m).fgi = (f m).fgi := rfl
@[simp] theorem lastSubstep_fgo : (lastSubstep f m).fgo = (f m).fgo := rfl
@[simp] theorem lastSubstep_s : (lastSubstep f m).s = (f m).s := rfl
@[simp] theorem lastSubstep_gs : (lastSubstep f m).gs = (f m).gs := rfl
@[simp] theorem lastSubstep_a0 : (lastSubstep f m).a0 = (f m).a0 := rfl
@[simp] theorem lastSubstep_a1 : (lastSubstep f m).a1 = (f m).a1 := rfl
@[simp] theorem lastSubstep_psr : (lastSubstep f m).psr = (f m).psr := rfl
@[simp] theorem lastSubstep_slots : (lastSubstep f m).slots = (f m).slots := rfl
@[simp] theorem lastSubstep_mem : (lastSubstep f m).mem = (f m).mem := rfl
@[simp] theorem lastSubstep_run : (lastSubstep f m).run = (f m).run := rfl
@[simp] theorem lastSubstep_params : (lastSubstep f m).params = (f m).params := rfl
@[simp] theorem lastSubstep_mid : (lastSubstep f m).mid = false := rfl
@[simp] theorem lastSubstep_acknowledged : (lastSubstep f m).acknowledged = (f m).run := by
  simp [lastSubstep, publish]

/-- The last sub-step leaves what its function gives, with MID clear. -/
theorem lastSubstep_contents : (lastSubstep f m).toContents = { (f m).toContents with mid := false } := rfl

theorem lastSubstep_trace : (lastSubstep f m).trace =
    { changed := changeSet m (f m), phase := .endOfInstruction, pointer := (f m).pc,
      left := (lastSubstep f m).toContents } :: (f m).trace := rfl

@[simp] theorem lastSubstep_value (n : Element) : (lastSubstep f m).value n = (f m).value n := by cases n <;> rfl
@[simp] theorem lastSubstep_read (a : Addr) : (lastSubstep f m).read a = (f m).read a := rfl
@[simp] theorem lastSubstep_slot (k : Slot) : (lastSubstep f m).slot k = (f m).slot k := rfl

end Substep

section Halted
variable (m : State)

@[simp] theorem halted_run : m.halted.run = false := rfl
@[simp] theorem halted_mid : m.halted.mid = false := rfl
@[simp] theorem halted_params : m.halted.params = m.params := rfl
@[simp] theorem halted_mem : m.halted.mem = m.mem := rfl
@[simp] theorem halted_psr : m.halted.psr = m.psr := rfl
@[simp] theorem halted_value (n : Element) : m.halted.value n = m.value n := by cases n <;> rfl
@[simp] theorem halted_read (a : Addr) : m.halted.read a = m.read a := rfl
@[simp] theorem halted_slot (k : Slot) : m.halted.slot k = m.slot k := rfl

end Halted

section BeginDecision
variable (m : State)

@[simp] theorem beginDecision_trace : (beginDecision m).trace = [] := rfl
@[simp] theorem beginDecision_value (n : Element) : (beginDecision m).value n = m.value n := by cases n <;> rfl
@[simp] theorem beginDecision_read (a : Addr) : (beginDecision m).read a = m.read a := rfl
@[simp] theorem beginDecision_slot (k : Slot) : (beginDecision m).slot k = m.slot k := rfl
@[simp] theorem beginDecision_ar : (beginDecision m).ar = m.ar := rfl
@[simp] theorem beginDecision_pc : (beginDecision m).pc = m.pc := rfl
@[simp] theorem beginDecision_dr : (beginDecision m).dr = m.dr := rfl
@[simp] theorem beginDecision_ac : (beginDecision m).ac = m.ac := rfl
@[simp] theorem beginDecision_inpr : (beginDecision m).inpr = m.inpr := rfl
@[simp] theorem beginDecision_ir : (beginDecision m).ir = m.ir := rfl
@[simp] theorem beginDecision_tr : (beginDecision m).tr = m.tr := rfl
@[simp] theorem beginDecision_tm : (beginDecision m).tm = m.tm := rfl
@[simp] theorem beginDecision_prc : (beginDecision m).prc = m.prc := rfl
@[simp] theorem beginDecision_tar : (beginDecision m).tar = m.tar := rfl
@[simp] theorem beginDecision_tp : (beginDecision m).tp = m.tp := rfl
@[simp] theorem beginDecision_ns : (beginDecision m).ns = m.ns := rfl
@[simp] theorem beginDecision_outr : (beginDecision m).outr = m.outr := rfl
@[simp] theorem beginDecision_sc : (beginDecision m).sc = m.sc := rfl
@[simp] theorem beginDecision_i : (beginDecision m).i = m.i := rfl
@[simp] theorem beginDecision_e : (beginDecision m).e = m.e := rfl
@[simp] theorem beginDecision_r : (beginDecision m).r = m.r := rfl
@[simp] theorem beginDecision_c : (beginDecision m).c = m.c := rfl
@[simp] theorem beginDecision_sw : (beginDecision m).sw = m.sw := rfl
@[simp] theorem beginDecision_ien : (beginDecision m).ien = m.ien := rfl
@[simp] theorem beginDecision_fgi : (beginDecision m).fgi = m.fgi := rfl
@[simp] theorem beginDecision_fgo : (beginDecision m).fgo = m.fgo := rfl
@[simp] theorem beginDecision_s : (beginDecision m).s = m.s := rfl
@[simp] theorem beginDecision_gs : (beginDecision m).gs = m.gs := rfl
@[simp] theorem beginDecision_a0 : (beginDecision m).a0 = m.a0 := rfl
@[simp] theorem beginDecision_a1 : (beginDecision m).a1 = m.a1 := rfl
@[simp] theorem beginDecision_psr : (beginDecision m).psr = m.psr := rfl
@[simp] theorem beginDecision_slots : (beginDecision m).slots = m.slots := rfl
@[simp] theorem beginDecision_mem : (beginDecision m).mem = m.mem := rfl
@[simp] theorem beginDecision_run : (beginDecision m).run = m.run := rfl
@[simp] theorem beginDecision_params : (beginDecision m).params = m.params := rfl

end BeginDecision

section MemoryUpdates
variable (m : State) (a : Addr) (w : Word) (k : Slot) (p : Psr)

@[simp] theorem write_value (n : Element) : (m.write a w).value n = m.value n := by cases n <;> rfl
@[simp] theorem write_mem : (m.write a w).mem = m.mem.write a w := rfl
@[simp] theorem write_ar : (m.write a w).ar = m.ar := rfl
@[simp] theorem write_pc : (m.write a w).pc = m.pc := rfl
@[simp] theorem write_dr : (m.write a w).dr = m.dr := rfl
@[simp] theorem write_ac : (m.write a w).ac = m.ac := rfl
@[simp] theorem write_inpr : (m.write a w).inpr = m.inpr := rfl
@[simp] theorem write_ir : (m.write a w).ir = m.ir := rfl
@[simp] theorem write_tr : (m.write a w).tr = m.tr := rfl
@[simp] theorem write_tm : (m.write a w).tm = m.tm := rfl
@[simp] theorem write_prc : (m.write a w).prc = m.prc := rfl
@[simp] theorem write_tar : (m.write a w).tar = m.tar := rfl
@[simp] theorem write_tp : (m.write a w).tp = m.tp := rfl
@[simp] theorem write_ns : (m.write a w).ns = m.ns := rfl
@[simp] theorem write_outr : (m.write a w).outr = m.outr := rfl
@[simp] theorem write_sc : (m.write a w).sc = m.sc := rfl
@[simp] theorem write_i : (m.write a w).i = m.i := rfl
@[simp] theorem write_e : (m.write a w).e = m.e := rfl
@[simp] theorem write_r : (m.write a w).r = m.r := rfl
@[simp] theorem write_c : (m.write a w).c = m.c := rfl
@[simp] theorem write_sw : (m.write a w).sw = m.sw := rfl
@[simp] theorem write_ien : (m.write a w).ien = m.ien := rfl
@[simp] theorem write_fgi : (m.write a w).fgi = m.fgi := rfl
@[simp] theorem write_fgo : (m.write a w).fgo = m.fgo := rfl
@[simp] theorem write_s : (m.write a w).s = m.s := rfl
@[simp] theorem write_gs : (m.write a w).gs = m.gs := rfl
@[simp] theorem write_a0 : (m.write a w).a0 = m.a0 := rfl
@[simp] theorem write_a1 : (m.write a w).a1 = m.a1 := rfl
@[simp] theorem write_psr : (m.write a w).psr = m.psr := rfl
@[simp] theorem write_slots : (m.write a w).slots = m.slots := rfl
@[simp] theorem write_run : (m.write a w).run = m.run := rfl
@[simp] theorem write_params : (m.write a w).params = m.params := rfl
@[simp] theorem write_slot : (m.write a w).slot k = m.slot k := rfl
@[simp] theorem setSlot_value (n : Element) : (m.setSlot k p).value n = m.value n := by cases n <;> rfl
@[simp] theorem setSlot_ar : (m.setSlot k p).ar = m.ar := rfl
@[simp] theorem setSlot_pc : (m.setSlot k p).pc = m.pc := rfl
@[simp] theorem setSlot_dr : (m.setSlot k p).dr = m.dr := rfl
@[simp] theorem setSlot_ac : (m.setSlot k p).ac = m.ac := rfl
@[simp] theorem setSlot_inpr : (m.setSlot k p).inpr = m.inpr := rfl
@[simp] theorem setSlot_ir : (m.setSlot k p).ir = m.ir := rfl
@[simp] theorem setSlot_tr : (m.setSlot k p).tr = m.tr := rfl
@[simp] theorem setSlot_tm : (m.setSlot k p).tm = m.tm := rfl
@[simp] theorem setSlot_prc : (m.setSlot k p).prc = m.prc := rfl
@[simp] theorem setSlot_tar : (m.setSlot k p).tar = m.tar := rfl
@[simp] theorem setSlot_tp : (m.setSlot k p).tp = m.tp := rfl
@[simp] theorem setSlot_ns : (m.setSlot k p).ns = m.ns := rfl
@[simp] theorem setSlot_outr : (m.setSlot k p).outr = m.outr := rfl
@[simp] theorem setSlot_sc : (m.setSlot k p).sc = m.sc := rfl
@[simp] theorem setSlot_i : (m.setSlot k p).i = m.i := rfl
@[simp] theorem setSlot_e : (m.setSlot k p).e = m.e := rfl
@[simp] theorem setSlot_r : (m.setSlot k p).r = m.r := rfl
@[simp] theorem setSlot_c : (m.setSlot k p).c = m.c := rfl
@[simp] theorem setSlot_sw : (m.setSlot k p).sw = m.sw := rfl
@[simp] theorem setSlot_ien : (m.setSlot k p).ien = m.ien := rfl
@[simp] theorem setSlot_fgi : (m.setSlot k p).fgi = m.fgi := rfl
@[simp] theorem setSlot_fgo : (m.setSlot k p).fgo = m.fgo := rfl
@[simp] theorem setSlot_s : (m.setSlot k p).s = m.s := rfl
@[simp] theorem setSlot_gs : (m.setSlot k p).gs = m.gs := rfl
@[simp] theorem setSlot_a0 : (m.setSlot k p).a0 = m.a0 := rfl
@[simp] theorem setSlot_a1 : (m.setSlot k p).a1 = m.a1 := rfl
@[simp] theorem setSlot_psr : (m.setSlot k p).psr = m.psr := rfl
@[simp] theorem setSlot_run : (m.setSlot k p).run = m.run := rfl
@[simp] theorem setSlot_params : (m.setSlot k p).params = m.params := rfl
@[simp] theorem setSlot_mem : (m.setSlot k p).mem = m.mem := rfl
@[simp] theorem setSlot_read : (m.setSlot k p).read a = m.read a := rfl

/-- A slot reads as the record written to it, and every other slot reads as before (rule R86). -/
theorem slot_setSlot (j : Slot) : (m.setSlot k p).slot j = if k = j then p else m.slot j := by
  simp [State.slot, Contents.slot, State.setSlot, Vector.getElem_set, BitVec.toNat_inj]

end MemoryUpdates

end Sys2Proof.Machine
end

