-- ==== Sys2Proof/Laws/Fields.lean ====
section
/-!
SUPPORT. The fields after the shared sequences of more than one sub-step or with a condition: the operand of a format
M instruction, a skip, the end of an instruction, the fetch. Of the operations of one sub-step only the two memories
and the parameters are here: those operations unfold to the sub-step, and `substep_<field>` gives the other fields.
-/

namespace Sys2Proof.Machine

section OperandM
variable (ind : Bool) (adr : Addr) (m : State)

@[simp] theorem operandM_ar : (operandM ind adr m).ar = effectiveOperand ind adr m := by cases ind <;> rfl
@[simp] theorem operandM_i : (operandM ind adr m).i = ind := by cases ind <;> rfl
@[simp] theorem operandM_pc : (operandM ind adr m).pc = m.pc := by cases ind <;> rfl
@[simp] theorem operandM_dr : (operandM ind adr m).dr = m.dr := by cases ind <;> rfl
@[simp] theorem operandM_ac : (operandM ind adr m).ac = m.ac := by cases ind <;> rfl
@[simp] theorem operandM_inpr : (operandM ind adr m).inpr = m.inpr := by cases ind <;> rfl
@[simp] theorem operandM_ir : (operandM ind adr m).ir = m.ir := by cases ind <;> rfl
@[simp] theorem operandM_tr : (operandM ind adr m).tr = m.tr := by cases ind <;> rfl
@[simp] theorem operandM_tm : (operandM ind adr m).tm = m.tm := by cases ind <;> rfl
@[simp] theorem operandM_prc : (operandM ind adr m).prc = m.prc := by cases ind <;> rfl
@[simp] theorem operandM_tar : (operandM ind adr m).tar = m.tar := by cases ind <;> rfl
@[simp] theorem operandM_tp : (operandM ind adr m).tp = m.tp := by cases ind <;> rfl
@[simp] theorem operandM_ns : (operandM ind adr m).ns = m.ns := by cases ind <;> rfl
@[simp] theorem operandM_outr : (operandM ind adr m).outr = m.outr := by cases ind <;> rfl
@[simp] theorem operandM_sc : (operandM ind adr m).sc = m.sc := by cases ind <;> rfl
@[simp] theorem operandM_e : (operandM ind adr m).e = m.e := by cases ind <;> rfl
@[simp] theorem operandM_r : (operandM ind adr m).r = m.r := by cases ind <;> rfl
@[simp] theorem operandM_c : (operandM ind adr m).c = m.c := by cases ind <;> rfl
@[simp] theorem operandM_sw : (operandM ind adr m).sw = m.sw := by cases ind <;> rfl
@[simp] theorem operandM_ien : (operandM ind adr m).ien = m.ien := by cases ind <;> rfl
@[simp] theorem operandM_fgi : (operandM ind adr m).fgi = m.fgi := by cases ind <;> rfl
@[simp] theorem operandM_fgo : (operandM ind adr m).fgo = m.fgo := by cases ind <;> rfl
@[simp] theorem operandM_s : (operandM ind adr m).s = m.s := by cases ind <;> rfl
@[simp] theorem operandM_gs : (operandM ind adr m).gs = m.gs := by cases ind <;> rfl
@[simp] theorem operandM_a0 : (operandM ind adr m).a0 = m.a0 := by cases ind <;> rfl
@[simp] theorem operandM_a1 : (operandM ind adr m).a1 = m.a1 := by cases ind <;> rfl
@[simp] theorem operandM_psr : (operandM ind adr m).psr = m.psr := by cases ind <;> rfl
@[simp] theorem operandM_slots : (operandM ind adr m).slots = m.slots := by cases ind <;> rfl
@[simp] theorem operandM_mem : (operandM ind adr m).mem = m.mem := by cases ind <;> rfl
@[simp] theorem operandM_run : (operandM ind adr m).run = m.run := by cases ind <;> rfl
@[simp] theorem operandM_params : (operandM ind adr m).params = m.params := by cases ind <;> rfl
@[simp] theorem operandM_mid : (operandM ind adr m).mid = true := by cases ind <;> rfl
@[simp] theorem operandM_read (a : Addr) : (operandM ind adr m).read a = m.read a := by cases ind <;> rfl
@[simp] theorem operandM_slot (k : Slot) : (operandM ind adr m).slot k = m.slot k := by cases ind <;> rfl

end OperandM

section SkipIf
variable (cond : State → Bool) (m : State)

@[simp] theorem skipIf_pc : (skipIf cond m).pc = if cond m = true then m.pc + 1 else m.pc := by
  simp only [skipIf, substep_pc, inc_eq]
@[simp] theorem skipIf_ar : (skipIf cond m).ar = m.ar := rfl
@[simp] theorem skipIf_dr : (skipIf cond m).dr = m.dr := rfl
@[simp] theorem skipIf_ac : (skipIf cond m).ac = m.ac := rfl
@[simp] theorem skipIf_inpr : (skipIf cond m).inpr = m.inpr := rfl
@[simp] theorem skipIf_ir : (skipIf cond m).ir = m.ir := rfl
@[simp] theorem skipIf_tr : (skipIf cond m).tr = m.tr := rfl
@[simp] theorem skipIf_tm : (skipIf cond m).tm = m.tm := rfl
@[simp] theorem skipIf_prc : (skipIf cond m).prc = m.prc := rfl
@[simp] theorem skipIf_tar : (skipIf cond m).tar = m.tar := rfl
@[simp] theorem skipIf_tp : (skipIf cond m).tp = m.tp := rfl
@[simp] theorem skipIf_ns : (skipIf cond m).ns = m.ns := rfl
@[simp] theorem skipIf_outr : (skipIf cond m).outr = m.outr := rfl
@[simp] theorem skipIf_sc : (skipIf cond m).sc = m.sc := rfl
@[simp] theorem skipIf_i : (skipIf cond m).i = m.i := rfl
@[simp] theorem skipIf_e : (skipIf cond m).e = m.e := rfl
@[simp] theorem skipIf_r : (skipIf cond m).r = m.r := rfl
@[simp] theorem skipIf_c : (skipIf cond m).c = m.c := rfl
@[simp] theorem skipIf_sw : (skipIf cond m).sw = m.sw := rfl
@[simp] theorem skipIf_ien : (skipIf cond m).ien = m.ien := rfl
@[simp] theorem skipIf_fgi : (skipIf cond m).fgi = m.fgi := rfl
@[simp] theorem skipIf_fgo : (skipIf cond m).fgo = m.fgo := rfl
@[simp] theorem skipIf_s : (skipIf cond m).s = m.s := rfl
@[simp] theorem skipIf_gs : (skipIf cond m).gs = m.gs := rfl
@[simp] theorem skipIf_a0 : (skipIf cond m).a0 = m.a0 := rfl
@[simp] theorem skipIf_a1 : (skipIf cond m).a1 = m.a1 := rfl
@[simp] theorem skipIf_psr : (skipIf cond m).psr = m.psr := rfl
@[simp] theorem skipIf_slots : (skipIf cond m).slots = m.slots := rfl
@[simp] theorem skipIf_mem : (skipIf cond m).mem = m.mem := rfl
@[simp] theorem skipIf_run : (skipIf cond m).run = m.run := rfl
@[simp] theorem skipIf_params : (skipIf cond m).params = m.params := rfl
@[simp] theorem skipIf_read (a : Addr) : (skipIf cond m).read a = m.read a := by
  simp only [State.read, Contents.read, skipIf_mem]
@[simp] theorem skipIf_slot (k : Slot) : (skipIf cond m).slot k = m.slot k := by
  simp only [State.slot, Contents.slot, skipIf_slots]

end SkipIf

section EndOfInstruction
variable (m : State)

@[simp] theorem endOfInstruction_sc : (endOfInstruction m).sc = 0 := rfl
@[simp] theorem endOfInstruction_tm : (endOfInstruction m).tm = m.tm - 1 := by simp [endOfInstruction, dec_eq]
@[simp] theorem endOfInstruction_c : (endOfInstruction m).c = if m.tm - 1 = 0 then m.sw else m.c := by
  change carryAfter (dec m.tm) m.sw m.c = _
  rw [dec_eq, carryAfter]
@[simp] theorem endOfInstruction_mid : (endOfInstruction m).mid = false := rfl
@[simp] theorem endOfInstruction_ar : (endOfInstruction m).ar = m.ar := rfl
@[simp] theorem endOfInstruction_pc : (endOfInstruction m).pc = m.pc := rfl
@[simp] theorem endOfInstruction_dr : (endOfInstruction m).dr = m.dr := rfl
@[simp] theorem endOfInstruction_ac : (endOfInstruction m).ac = m.ac := rfl
@[simp] theorem endOfInstruction_inpr : (endOfInstruction m).inpr = m.inpr := rfl
@[simp] theorem endOfInstruction_ir : (endOfInstruction m).ir = m.ir := rfl
@[simp] theorem endOfInstruction_tr : (endOfInstruction m).tr = m.tr := rfl
@[simp] theorem endOfInstruction_prc : (endOfInstruction m).prc = m.prc := rfl
@[simp] theorem endOfInstruction_tar : (endOfInstruction m).tar = m.tar := rfl
@[simp] theorem endOfInstruction_tp : (endOfInstruction m).tp = m.tp := rfl
@[simp] theorem endOfInstruction_ns : (endOfInstruction m).ns = m.ns := rfl
@[simp] theorem endOfInstruction_outr : (endOfInstruction m).outr = m.outr := rfl
@[simp] theorem endOfInstruction_i : (endOfInstruction m).i = m.i := rfl
@[simp] theorem endOfInstruction_e : (endOfInstruction m).e = m.e := rfl
@[simp] theorem endOfInstruction_r : (endOfInstruction m).r = m.r := rfl
@[simp] theorem endOfInstruction_sw : (endOfInstruction m).sw = m.sw := rfl
@[simp] theorem endOfInstruction_ien : (endOfInstruction m).ien = m.ien := rfl
@[simp] theorem endOfInstruction_fgi : (endOfInstruction m).fgi = m.fgi := rfl
@[simp] theorem endOfInstruction_fgo : (endOfInstruction m).fgo = m.fgo := rfl
@[simp] theorem endOfInstruction_s : (endOfInstruction m).s = m.s := rfl
@[simp] theorem endOfInstruction_gs : (endOfInstruction m).gs = m.gs := rfl
@[simp] theorem endOfInstruction_a0 : (endOfInstruction m).a0 = m.a0 := rfl
@[simp] theorem endOfInstruction_a1 : (endOfInstruction m).a1 = m.a1 := rfl
@[simp] theorem endOfInstruction_psr : (endOfInstruction m).psr = m.psr := rfl
@[simp] theorem endOfInstruction_slots : (endOfInstruction m).slots = m.slots := rfl
@[simp] theorem endOfInstruction_mem : (endOfInstruction m).mem = m.mem := rfl
@[simp] theorem endOfInstruction_run : (endOfInstruction m).run = m.run := rfl
@[simp] theorem endOfInstruction_params : (endOfInstruction m).params = m.params := rfl
@[simp] theorem endOfInstruction_read (a : Addr) : (endOfInstruction m).read a = m.read a := rfl
@[simp] theorem endOfInstruction_slot (k : Slot) : (endOfInstruction m).slot k = m.slot k := rfl

end EndOfInstruction

section Fetch
variable (m : State)

@[simp] theorem fetch_ar : (fetch m).ar = m.pc := rfl
@[simp] theorem fetch_ir : (fetch m).ir = m.read m.pc := rfl
@[simp] theorem fetch_pc : (fetch m).pc = m.pc + 1 := by simp [fetch, inc_eq]
@[simp] theorem fetch_dr : (fetch m).dr = m.dr := rfl
@[simp] theorem fetch_ac : (fetch m).ac = m.ac := rfl
@[simp] theorem fetch_inpr : (fetch m).inpr = m.inpr := rfl
@[simp] theorem fetch_tr : (fetch m).tr = m.tr := rfl
@[simp] theorem fetch_tm : (fetch m).tm = m.tm := rfl
@[simp] theorem fetch_prc : (fetch m).prc = m.prc := rfl
@[simp] theorem fetch_tar : (fetch m).tar = m.tar := rfl
@[simp] theorem fetch_tp : (fetch m).tp = m.tp := rfl
@[simp] theorem fetch_ns : (fetch m).ns = m.ns := rfl
@[simp] theorem fetch_outr : (fetch m).outr = m.outr := rfl
@[simp] theorem fetch_sc : (fetch m).sc = m.sc := rfl
@[simp] theorem fetch_i : (fetch m).i = m.i := rfl
@[simp] theorem fetch_e : (fetch m).e = m.e := rfl
@[simp] theorem fetch_r : (fetch m).r = m.r := rfl
@[simp] theorem fetch_c : (fetch m).c = m.c := rfl
@[simp] theorem fetch_sw : (fetch m).sw = m.sw := rfl
@[simp] theorem fetch_ien : (fetch m).ien = m.ien := rfl
@[simp] theorem fetch_fgi : (fetch m).fgi = m.fgi := rfl
@[simp] theorem fetch_fgo : (fetch m).fgo = m.fgo := rfl
@[simp] theorem fetch_s : (fetch m).s = m.s := rfl
@[simp] theorem fetch_gs : (fetch m).gs = m.gs := rfl
@[simp] theorem fetch_a0 : (fetch m).a0 = m.a0 := rfl
@[simp] theorem fetch_a1 : (fetch m).a1 = m.a1 := rfl
@[simp] theorem fetch_psr : (fetch m).psr = m.psr := rfl
@[simp] theorem fetch_slots : (fetch m).slots = m.slots := rfl
@[simp] theorem fetch_mem : (fetch m).mem = m.mem := rfl
@[simp] theorem fetch_run : (fetch m).run = m.run := rfl
@[simp] theorem fetch_params : (fetch m).params = m.params := rfl
@[simp] theorem fetch_read (a : Addr) : (fetch m).read a = m.read a := rfl
@[simp] theorem fetch_slot (k : Slot) : (fetch m).slot k = m.slot k := rfl

end Fetch

section OneSubstep
variable (m : State) (adr a : Addr) (p : Nibble) (k j : Slot) (was : Bool)

@[simp] theorem dereference_read : (dereference m).read a = m.read a := rfl
@[simp] theorem dereference_slot : (dereference m).slot j = m.slot j := rfl
@[simp] theorem dereference_params : (dereference m).params = m.params := rfl
@[simp] theorem operandR_read : (operandR m).read a = m.read a := rfl
@[simp] theorem operandR_slot : (operandR m).slot j = m.slot j := rfl
@[simp] theorem operandR_params : (operandR m).params = m.params := rfl
@[simp] theorem operandP_read : (operandP adr m).read a = m.read a := rfl
@[simp] theorem operandP_slot : (operandP adr m).slot j = m.slot j := rfl
@[simp] theorem operandP_params : (operandP adr m).params = m.params := rfl
@[simp] theorem selectEntry_read : (selectEntry p m).read a = m.read a := rfl
@[simp] theorem selectEntry_slot : (selectEntry p m).slot j = m.slot j := rfl
@[simp] theorem selectEntry_params : (selectEntry p m).params = m.params := rfl
@[simp] theorem saveLive_read : (saveLive m).read a = m.read a := rfl
@[simp] theorem saveLive_slot : (saveLive m).slot j = m.slot j := rfl
@[simp] theorem saveLive_params : (saveLive m).params = m.params := rfl
@[simp] theorem loadLive_read : (loadLive m).read a = m.read a := rfl
@[simp] theorem loadLive_slot : (loadLive m).slot j = m.slot j := rfl
@[simp] theorem loadLive_params : (loadLive m).params = m.params := rfl
@[simp] theorem pcbRead_read : (pcbRead k m).read a = m.read a := rfl
@[simp] theorem pcbRead_slot : (pcbRead k m).slot j = m.slot j := rfl
@[simp] theorem pcbRead_params : (pcbRead k m).params = m.params := rfl
@[simp] theorem quantumReload_read : (quantumReload m).read a = m.read a := rfl
@[simp] theorem quantumReload_slot : (quantumReload m).slot j = m.slot j := rfl
@[simp] theorem quantumReload_params : (quantumReload m).params = m.params := rfl
@[simp] theorem clearRequests_read : (clearRequests m).read a = m.read a := rfl
@[simp] theorem clearRequests_slot : (clearRequests m).slot j = m.slot j := rfl
@[simp] theorem clearRequests_params : (clearRequests m).params = m.params := rfl
@[simp] theorem advanceProcess_read : (advanceProcess m).read a = m.read a := rfl
@[simp] theorem advanceProcess_slot : (advanceProcess m).slot j = m.slot j := rfl
@[simp] theorem advanceProcess_params : (advanceProcess m).params = m.params := rfl
@[simp] theorem markSwitched_read : (markSwitched m).read a = m.read a := rfl
@[simp] theorem markSwitched_slot : (markSwitched m).slot j = m.slot j := rfl
@[simp] theorem markSwitched_params : (markSwitched m).params = m.params := rfl
@[simp] theorem loadLiveButS_read : (loadLiveButS m).read a = m.read a := rfl
@[simp] theorem loadLiveButS_slot : (loadLiveButS m).slot j = m.slot j := rfl
@[simp] theorem loadLiveButS_params : (loadLiveButS m).params = m.params := rfl
@[simp] theorem latchInterrupt_read : (latchInterrupt m).read a = m.read a := rfl
@[simp] theorem latchInterrupt_slot : (latchInterrupt m).slot j = m.slot j := rfl
@[simp] theorem latchInterrupt_params : (latchInterrupt m).params = m.params := rfl
@[simp] theorem countStarted_read : (countStarted m).read a = m.read a := rfl
@[simp] theorem countStarted_slot : (countStarted m).slot j = m.slot j := rfl
@[simp] theorem countStarted_params : (countStarted m).params = m.params := rfl
@[simp] theorem spinIfStarted_read : (spinIfStarted m).read a = m.read a := rfl
@[simp] theorem spinIfStarted_slot : (spinIfStarted m).slot j = m.slot j := rfl
@[simp] theorem spinIfStarted_params : (spinIfStarted m).params = m.params := rfl
@[simp] theorem resetLive_read : (resetLive m).read a = m.read a := by unfold resetLive; split <;> rfl
@[simp] theorem resetLive_slot : (resetLive m).slot j = m.slot j := by unfold resetLive; split <;> rfl
@[simp] theorem resetLive_params : (resetLive m).params = m.params := by unfold resetLive; split <;> rfl
@[simp] theorem enterVector_read : (enterVector m).read a = m.read a := by unfold enterVector; split <;> rfl
@[simp] theorem enterVector_slot : (enterVector m).slot j = m.slot j := by unfold enterVector; split <;> rfl
@[simp] theorem enterVector_params : (enterVector m).params = m.params := by unfold enterVector; split <;> rfl
@[simp] theorem countStopped_read : (countStopped was m).read a = m.read a := rfl
@[simp] theorem countStopped_slot : (countStopped was m).slot j = m.slot j := rfl
@[simp] theorem countStopped_params : (countStopped was m).params = m.params := rfl
@[simp] theorem stopWhenAllStopped_read : (stopWhenAllStopped m).read a = m.read a := rfl
@[simp] theorem stopWhenAllStopped_slot : (stopWhenAllStopped m).slot j = m.slot j := rfl
@[simp] theorem stopWhenAllStopped_params : (stopWhenAllStopped m).params = m.params := rfl
@[simp] theorem markStopped_read : (markStopped m).read a = m.read a := rfl
@[simp] theorem markStopped_slot : (markStopped m).slot j = m.slot j := rfl
@[simp] theorem markStopped_params : (markStopped m).params = m.params := rfl
@[simp] theorem rollBack_read : (rollBack m).read a = m.read a := rfl
@[simp] theorem rollBack_slot : (rollBack m).slot j = m.slot j := rfl
@[simp] theorem rollBack_params : (rollBack m).params = m.params := rfl
@[simp] theorem requestSwitch_read : (requestSwitch m).read a = m.read a := rfl
@[simp] theorem requestSwitch_slot : (requestSwitch m).slot j = m.slot j := rfl
@[simp] theorem requestSwitch_params : (requestSwitch m).params = m.params := rfl
@[simp] theorem countProcess_read : (countProcess m).read a = m.read a := rfl
@[simp] theorem countProcess_slot : (countProcess m).slot j = m.slot j := rfl
@[simp] theorem countProcess_params : (countProcess m).params = m.params := rfl
@[simp] theorem resetRecord_read : (resetRecord m).read a = m.read a := rfl
@[simp] theorem resetRecord_slot : (resetRecord m).slot j = m.slot j := rfl
@[simp] theorem resetRecord_params : (resetRecord m).params = m.params := rfl
@[simp] theorem becomeCurrent_read : (becomeCurrent p m).read a = m.read a := rfl
@[simp] theorem becomeCurrent_slot : (becomeCurrent p m).slot j = m.slot j := rfl
@[simp] theorem becomeCurrent_params : (becomeCurrent p m).params = m.params := rfl
@[simp] theorem markStarted_read : (markStarted m).read a = m.read a := rfl
@[simp] theorem markStarted_slot : (markStarted m).slot j = m.slot j := rfl
@[simp] theorem markStarted_params : (markStarted m).params = m.params := rfl
@[simp] theorem pcbWrite_read : (pcbWrite k m).read a = m.read a := rfl
@[simp] theorem pcbWrite_params : (pcbWrite k m).params = m.params := rfl
@[simp] theorem pcbWrite_slot : (pcbWrite k m).slot j = if k = j then m.psr else m.slot j := slot_setSlot m k m.psr j

end OneSubstep

end Sys2Proof.Machine
end

