-- ==== Sys2Proof/Laws/Memory.lean ====
section
/-!
SUPPORT. The laws of primary memory (rule R75): a read after a write, every other cell unchanged, and the canonical
form kept by the one operation that changes the memory.
-/

namespace Sys2Proof.Machine

theorem lookup_unlist (a b : Nat) (l : List Cell) : lookup b (unlist a l) = if a = b then unlisted else lookup b l := by
  induction l with
  | nil => simp [unlist, lookup]
  | cons c rest ih =>
    obtain ⟨x, v⟩ := c
    by_cases h : x = a
    · subst h
      by_cases hb : x = b
      · subst hb
        simpa [unlist] using ih
      · simp [unlist, ih, lookup, hb]
    · simp only [unlist, if_neg h, lookup, ih]
      by_cases hb : x = b
      · subst hb
        simp [Ne.symm h]
      · simp [hb]

theorem lookup_place_self (a : Nat) (w : Word) (l : List Cell) (h : ∀ c ∈ l, c.1 ≠ a) : lookup a (place a w l) = w := by
  induction l with
  | nil => simp [place, lookup]
  | cons c rest ih =>
    obtain ⟨x, v⟩ := c
    have hx : x ≠ a := h (x, v) (by simp)
    by_cases hlt : a < x
    · simp [place, hlt, lookup]
    · simp only [place, if_neg hlt, lookup, if_neg hx]
      exact ih fun c hc => h c (by simp [hc])

theorem lookup_place_other (a b : Nat) (w : Word) (l : List Cell) (h : a ≠ b) : lookup b (place a w l) = lookup b l := by
  induction l with
  | nil => simp [place, lookup, h]
  | cons c rest ih =>
    obtain ⟨x, v⟩ := c
    by_cases hlt : a < x
    · simp [place, hlt, lookup, h]
    · simp [place, hlt, lookup, ih]

theorem unlist_fst_ne (a : Nat) (l : List Cell) : ∀ c ∈ unlist a l, c.1 ≠ a := by
  induction l with
  | nil => simp [unlist]
  | cons c rest ih =>
    obtain ⟨x, v⟩ := c
    by_cases h : x = a
    · simpa [unlist, h] using ih
    · intro c hc
      simp only [unlist, if_neg h, List.mem_cons] at hc
      rcases hc with rfl | hc
      · exact h
      · exact ih c hc

/-- A read after a write: the written cell has the new word, every other cell the old one (rule R75). -/
theorem memory_read_write (mem : Memory) (a b : Addr) (w : Word) :
    (mem.write a w).read b = if a = b then w else mem.read b := by
  have hiff : (a.toNat = b.toNat) = (a = b) := propext BitVec.toNat_inj
  by_cases hw : w = unlisted
  · subst hw
    simp only [Memory.write, Memory.read, if_true, lookup_unlist, hiff]
  · simp only [Memory.write, Memory.read, if_neg hw]
    by_cases hab : a = b
    · subst hab
      simp [lookup_place_self _ _ _ (unlist_fst_ne _ _)]
    · have hne : a.toNat ≠ b.toNat := fun h => hab (BitVec.eq_of_toNat_eq h)
      simp [lookup_place_other _ _ _ _ hne, lookup_unlist, hne, hab]

/-- The same law on the state. -/
theorem read_write (m : State) (a b : Addr) (w : Word) : (m.write a w).read b = if a = b then w else m.read b :=
  memory_read_write m.mem a b w

theorem canonicalFrom_cons (lo a : Nat) (w : Word) (l : List Cell) :
    canonicalFrom lo ((a, w) :: l) = true ↔
      lo ≤ a ∧ a < 256 ∧ w ≠ unlisted ∧ canonicalFrom (a + 1) l = true := by
  simp [canonicalFrom, and_assoc]

theorem canonicalFrom_weaken {lo lo' : Nat} (h : lo' ≤ lo) {l : List Cell} (hl : canonicalFrom lo l = true) :
    canonicalFrom lo' l = true := by
  cases l with
  | nil => rfl
  | cons c rest =>
    obtain ⟨x, v⟩ := c
    rw [canonicalFrom_cons] at hl ⊢
    exact ⟨h.trans hl.1, hl.2⟩

theorem canonicalFrom_unlist (a : Nat) {l : List Cell} :
    ∀ {lo : Nat}, canonicalFrom lo l = true → canonicalFrom lo (unlist a l) = true := by
  induction l with
  | nil => simp [unlist]
  | cons c rest ih =>
    intro lo hl
    obtain ⟨x, v⟩ := c
    rw [canonicalFrom_cons] at hl
    by_cases h : x = a
    · simpa [unlist, h] using ih (canonicalFrom_weaken (by omega) hl.2.2.2)
    · simp only [unlist, if_neg h]
      rw [canonicalFrom_cons]
      exact ⟨hl.1, hl.2.1, hl.2.2.1, ih hl.2.2.2⟩

theorem canonicalFrom_place {a : Nat} {w : Word} (ha : a < 256) (hw : w ≠ unlisted) {l : List Cell} :
    ∀ {lo : Nat}, lo ≤ a → canonicalFrom lo l = true → (∀ c ∈ l, c.1 ≠ a) →
      canonicalFrom lo (place a w l) = true := by
  induction l with
  | nil =>
    intro lo hlo _ _
    rw [place, canonicalFrom_cons]
    exact ⟨hlo, ha, hw, rfl⟩
  | cons c rest ih =>
    intro lo hlo hl hne
    obtain ⟨x, v⟩ := c
    have hx : x ≠ a := hne (x, v) (by simp)
    rw [canonicalFrom_cons] at hl
    by_cases hlt : a < x
    · simp only [place, if_pos hlt]
      rw [canonicalFrom_cons, canonicalFrom_cons]
      exact ⟨hlo, ha, hw, hlt, hl.2.1, hl.2.2.1, hl.2.2.2⟩
    · simp only [place, if_neg hlt]
      rw [canonicalFrom_cons]
      exact ⟨hl.1, hl.2.1, hl.2.2.1, ih (by omega) hl.2.2.2 fun c hc => hne c (by simp [hc])⟩

/-- The write keeps the canonical form. -/
theorem memory_write_wf {mem : Memory} (h : mem.wf = true) (a : Addr) (w : Word) : (mem.write a w).wf = true := by
  have hu : canonicalFrom 0 (unlist a.toNat mem.cells) = true := canonicalFrom_unlist a.toNat h
  by_cases hw : w = unlisted
  · simpa [Memory.write, Memory.wf, hw] using hu
  · simpa [Memory.write, Memory.wf, hw] using canonicalFrom_place a.isLt hw (Nat.zero_le _) hu (unlist_fst_ne _ _)

/-- The memory after reset has the canonical form. -/
theorem reset_wf : State.reset.mem.wf = true := rfl

theorem lookup_below {lo a : Nat} (h : a < lo) {l : List Cell} (hl : canonicalFrom lo l = true) :
    lookup a l = unlisted := by
  induction l generalizing lo with
  | nil => rfl
  | cons c rest ih =>
    obtain ⟨x, v⟩ := c
    rw [canonicalFrom_cons] at hl
    simp only [lookup, if_neg (show x ≠ a by omega)]
    exact ih (by omega) hl.2.2.2

theorem canonical_ext {l k : List Cell} {lo : Nat} (hl : canonicalFrom lo l = true) (hk : canonicalFrom lo k = true)
    (h : ∀ a, a < 256 → lookup a l = lookup a k) : l = k := by
  induction l generalizing lo k with
  | nil =>
    cases k with
    | nil => rfl
    | cons c rest =>
      obtain ⟨x, v⟩ := c
      rw [canonicalFrom_cons] at hk
      exact absurd (by simpa [lookup] using (h x hk.2.1).symm) hk.2.2.1
  | cons c rest ih =>
    obtain ⟨x, v⟩ := c
    have hl' := (canonicalFrom_cons _ _ _ _).1 hl
    cases k with
    | nil => exact absurd (by simpa [lookup] using h x hl'.2.1) hl'.2.2.1
    | cons d rest' =>
      obtain ⟨y, u⟩ := d
      have hk' := (canonicalFrom_cons _ _ _ _).1 hk
      have hxy : x = y := by
        rcases Nat.lt_trichotomy x y with hlt | heq | hgt
        · have hx := h x hl'.2.1
          simp only [lookup, if_true, if_neg (show y ≠ x by omega)] at hx
          exact absurd (hx.trans (lookup_below (by omega) hk'.2.2.2)) hl'.2.2.1
        · exact heq
        · have hy := h y hk'.2.1
          simp only [lookup, if_true, if_neg (show x ≠ y by omega)] at hy
          exact absurd (hy.symm.trans (lookup_below (by omega) hl'.2.2.2)) hk'.2.2.1
      subst hxy
      have hvu : v = u := by simpa [lookup] using h x hl'.2.1
      subst hvu
      have : rest = rest' := ih hl'.2.2.2 hk'.2.2.2 fun a ha => by
        by_cases hxa : x = a
        · subst hxa
          rw [lookup_below (by omega) hl'.2.2.2, lookup_below (by omega) hk'.2.2.2]
        · simpa [lookup, hxa] using h a ha
      rw [this]

/-- Memories in canonical form that read the same everywhere are the same data. -/
theorem memory_ext {a b : Memory} (ha : a.wf = true) (hb : b.wf = true) (h : ∀ x : Addr, a.read x = b.read x) :
    a = b := by
  obtain ⟨la⟩ := a
  obtain ⟨lb⟩ := b
  have : la = lb := canonical_ext ha hb fun x hx => by
    simpa [Memory.read, Nat.mod_eq_of_lt hx] using h (BitVec.ofNat 8 x)
  rw [this]

end Sys2Proof.Machine
end

