-- ==== Sys2Proof/Laws/Ops.lean ====
section
/-!
SUPPORT. For each shared operation one lemma that says once everything it can do: the fields it writes, and that
nothing else differs.
-/

namespace Sys2Proof.Machine

/-! The frame predicate. -/

theorem changesOnly_refl (L : List Element) (m : State) : m.changesOnly L m :=
  ⟨fun _ _ => rfl, fun _ => rfl, fun _ => rfl, rfl, rfl⟩

theorem changesOnly_trans {L K : List Element} {m t u : State} (h : m.changesOnly L t) (g : t.changesOnly K u)
    (hLK : ∀ n ∈ K, n ∈ L) : m.changesOnly L u :=
  ⟨fun n hn => (g.1 n fun hk => hn (hLK n hk)).trans (h.1 n hn), fun a => (g.2.1 a).trans (h.2.1 a),
    fun k => (g.2.2.1 k).trans (h.2.2.1 k), g.2.2.2.1.trans h.2.2.2.1, g.2.2.2.2.trans h.2.2.2.2⟩

theorem changesOnly_mono {L K : List Element} {m t : State} (h : m.changesOnly L t) (hLK : ∀ n ∈ L, n ∈ K) :
    m.changesOnly K t :=
  ⟨fun n hn => h.1 n fun hl => hn (hLK n hl), h.2⟩

/-! Sub-steps. -/

/-- A sub-step writes what its function writes (rules R9, R210). -/
theorem substep_changesOnly {L : List Element} {f : State → State} {m : State} (h : m.changesOnly L (f m)) :
    m.changesOnly L (substep f m) :=
  ⟨fun n hn => (substep_value f m n).trans (h.1 n hn), h.2⟩

theorem lastSubstep_changesOnly {L : List Element} {f : State → State} {m : State} (h : m.changesOnly L (f m)) :
    m.changesOnly L (lastSubstep f m) :=
  ⟨fun n hn => (lastSubstep_value f m n).trans (h.1 n hn), h.2⟩

/-- A sub-step publishes one record in front of those before it (rule R212). -/
theorem substep_publishes {f : State → State} {m : State} (h : (f m).trace = m.trace) :
    ∃ p : SubStep, (substep f m).trace = p :: m.trace ∧ p.phase = .midInstruction :=
  ⟨_, (substep_trace f m).trans (by rw [h]), rfl⟩

/-- A change-set names exactly the elements whose value differs (rule R211). -/
theorem mem_changeSet {before after : State} {n : Element} :
    n ∈ changeSet before after ↔ after.value n ≠ before.value n := by
  have hn : n ∈ Element.all := by cases n <;> decide
  simp [changeSet, hn, ne_comm]

theorem changeSet_nodup (before after : State) : (changeSet before after).Nodup := List.Nodup.filter _ (by decide)

/-- A sub-step adds a right record to right ones, and what it left is the contents then (rules R211, R212, R217). -/
theorem substep_recordsRight {start : Contents} {f : State → State} {m : State} (h : recordsRight start m.trace)
    (hc : contentsAfter start m.trace = m.toContents) (hf : (f m).trace = m.trace) :
    recordsRight start (substep f m).trace ∧
      contentsAfter start (substep f m).trace = (substep f m).toContents := by
  rw [substep_trace, hf]
  refine ⟨⟨changeSet_nodup _ _, fun n => ?_, fun _ => ⟨rfl, rfl⟩, (nomatch ·), h⟩, rfl⟩
  rw [mem_changeSet, hc, ← substep_value f m n]
  rfl

theorem lastSubstep_recordsRight {start : Contents} {f : State → State} {m : State} (h : recordsRight start m.trace)
    (hc : contentsAfter start m.trace = m.toContents) (hf : (f m).trace = m.trace) :
    recordsRight start (lastSubstep f m).trace ∧
      contentsAfter start (lastSubstep f m).trace = (lastSubstep f m).toContents := by
  rw [lastSubstep_trace, hf]
  refine ⟨⟨changeSet_nodup _ _, fun n => ?_, (nomatch ·), fun _ => ⟨rfl, rfl⟩, h⟩, rfl⟩
  rw [mem_changeSet, hc, ← lastSubstep_value f m n]
  rfl

theorem saveLive_spec (m : State) : (saveLive m).psr = m.savedRecord ∧ m.changesOnly [.psr] (saveLive m) :=
  ⟨rfl, substep_changesOnly ⟨fun n hn => by cases n <;> first | exact absurd (by decide) hn | rfl, fun _ => rfl, fun _ => rfl, rfl, rfl⟩⟩

theorem loadLive_spec (m : State) :
    (loadLive m).holdsContext m.psr ∧ (loadLive m).s = m.psr.s ∧
      m.changesOnly [.pc, .ac, .e, .a0, .a1, .s] (loadLive m) :=
  ⟨⟨rfl, rfl, rfl, rfl, rfl⟩, rfl,
    substep_changesOnly ⟨fun n hn => by cases n <;> first | exact absurd (by decide) hn | rfl, fun _ => rfl, fun _ => rfl, rfl, rfl⟩⟩

theorem pcbRead_spec (k : Slot) (m : State) : (pcbRead k m).psr = m.slot k ∧ m.changesOnly [.psr] (pcbRead k m) :=
  ⟨rfl, substep_changesOnly ⟨fun n hn => by cases n <;> first | exact absurd (by decide) hn | rfl, fun _ => rfl, fun _ => rfl, rfl, rfl⟩⟩

theorem pcbWrite_spec (k : Slot) (m : State) :
    (pcbWrite k m).slot k = m.psr ∧ m.sameSlotsBut k (pcbWrite k m) ∧ m.sameExcept [] (pcbWrite k m) ∧
      m.sameMemory (pcbWrite k m) ∧ m.sameControl (pcbWrite k m) := by
  refine ⟨by simp [pcbWrite, slot_setSlot], fun j hj => ?_, fun n _ => ?_, fun _ => rfl, rfl, rfl⟩
  · simp [pcbWrite, slot_setSlot, Ne.symm hj]
  · simp [pcbWrite]

theorem quantumReload_spec (m : State) :
    (quantumReload m).ar = 0x08 ∧ (quantumReload m).tm = low8 (m.read 0x08) ∧
      m.changesOnly [.ar, .tm] (quantumReload m) :=
  ⟨rfl, rfl,
    substep_changesOnly ⟨fun n hn => by cases n <;> first | exact absurd (by decide) hn | rfl, fun _ => rfl, fun _ => rfl, rfl, rfl⟩⟩

theorem operandR_spec (m : State) : (operandR m).i = false ∧ m.changesOnly [.i] (operandR m) :=
  ⟨rfl, substep_changesOnly ⟨fun n hn => by cases n <;> first | exact absurd (by decide) hn | rfl, fun _ => rfl, fun _ => rfl, rfl, rfl⟩⟩

theorem operandP_spec (adr : Addr) (m : State) :
    (operandP adr m).ar = adr ∧ (operandP adr m).i = false ∧ m.changesOnly [.ar, .i] (operandP adr m) :=
  ⟨rfl, rfl,
    substep_changesOnly ⟨fun n hn => by cases n <;> first | exact absurd (by decide) hn | rfl, fun _ => rfl, fun _ => rfl, rfl, rfl⟩⟩

theorem operandM_spec (ind : Bool) (adr : Addr) (m : State) :
    (operandM ind adr m).ar = effectiveOperand ind adr m ∧ (operandM ind adr m).i = ind ∧
      m.changesOnly [.ar, .i] (operandM ind adr m) := by
  cases ind <;>
    exact ⟨rfl, rfl, fun n hn => by cases n <;> first | exact absurd (by decide) hn | rfl, fun _ => rfl, fun _ => rfl, rfl, rfl⟩

theorem skipIf_spec (cond : State → Bool) (m : State) :
    (skipIf cond m).pc = (if cond m = true then m.pc + 1 else m.pc) ∧ m.changesOnly [.pc] (skipIf cond m) :=
  ⟨skipIf_pc cond m,
    substep_changesOnly ⟨fun n hn => by cases n <;> first | exact absurd (by decide) hn | rfl, fun _ => rfl, fun _ => rfl, rfl, rfl⟩⟩

theorem endOfInstruction_spec (m : State) :
    (endOfInstruction m).endsInstruction m.tm m.c ∧ m.changesOnly [.sc, .tm, .c] (endOfInstruction m) := by
  refine ⟨⟨rfl, by simp [endOfInstruction, dec_eq], ?_, rfl⟩,
    fun n hn => by cases n <;> first | exact absurd (by decide) hn | simp [endOfInstruction, State.value, Contents.value], fun _ => rfl, fun _ => rfl, rfl, rfl⟩
  change carryAfter (dec m.tm) m.sw m.c = if m.tm - 1 = 0 then m.sw else m.c
  rw [dec_eq, carryAfter]

/-- A handler's writes, then the two sub-steps of its end (rules R138, R139). -/
theorem finish_changesOnly {K L : List Element} {m u : State} (h : m.changesOnly K u) (hK : ∀ n ∈ K, n ∈ L)
    (hL : ∀ n ∈ [Element.sc, Element.tm, Element.c], n ∈ L) : m.changesOnly L (endOfInstruction u) :=
  changesOnly_trans (changesOnly_mono h hK) (endOfInstruction_spec u).2 hL

/-- An instruction of format R with one handler sub-step that writes `K` (rule R170). -/
theorem oneStepR_changesOnly {K : List Element} {f : State → State} {m : State}
    (h : (operandR m).changesOnly K (f (operandR m))) :
    m.changesOnly (K ++ [.i, .sc, .tm, .c]) (endOfInstruction (substep f (operandR m))) :=
  finish_changesOnly
    (changesOnly_trans (changesOnly_mono (operandR_spec m).2 (K := K ++ [.i]) (by simp)) (substep_changesOnly h)
      fun _ hn => List.mem_append_left _ hn)
    (fun n hn => by rcases List.mem_append.1 hn with h | h <;> simp_all) (by simp)

/-- A skip instruction of format R (rules R140, R170). -/
theorem skipR_changesOnly (cond : State → Bool) (m : State) :
    m.changesOnly [.pc, .i, .sc, .tm, .c] (endOfInstruction (skipIf cond (operandR m))) :=
  finish_changesOnly
    (changesOnly_trans (changesOnly_mono (operandR_spec m).2 (K := [.pc, .i]) (by simp)) (skipIf_spec cond _).2
      (by simp +contextual))
    (by simp +contextual) (by simp)

/-! The table check and the resolutions. -/

/-- The check passes exactly when the value compared is a slot index (rules R83, R85). -/
theorem tableSlot_ok_iff (rc : ResolveCheck) (w : Word) (k : Slot) :
    tableSlot rc w = .ok k ↔ tableValue rc w = k.toNat := by
  have hk := k.isLt
  cases rc
  · by_cases h : 8 ≤ w.toNat
    · simp [tableSlot, tableValue, h]
      omega
    · simp [tableSlot, tableValue, h, ← BitVec.toNat_inj]
      omega
  · by_cases h : 8 ≤ w.toNat % 256
    · simp [tableSlot, tableValue, low8_toNat, h]
      omega
    · simp [tableSlot, tableValue, low8_toNat, h, ← BitVec.toNat_inj]
      omega

/-- The check fails exactly when the value compared is 8 or more, and that value is reported (rules R83, R262). -/
theorem tableSlot_error_iff (rc : ResolveCheck) (w v : Word) :
    tableSlot rc w = .error v ↔ 8 ≤ v.toNat ∧ v.toNat = tableValue rc w := by
  cases rc
  · by_cases h : 8 ≤ w.toNat
    · simp only [tableSlot, tableValue, h, if_true, Except.error.injEq]
      constructor
      · rintro rfl
        exact ⟨h, rfl⟩
      · rintro ⟨_, h2⟩
        exact (BitVec.eq_of_toNat_eq h2).symm
    · simp only [tableSlot, tableValue, h, if_false, reduceCtorEq, false_iff]
      omega
  · have hz : (zext12 (low8 w)).toNat = w.toNat % 256 := by
      simp only [zext12, BitVec.toNat_setWidth, low8_toNat]
      omega
    by_cases h : 8 ≤ w.toNat % 256
    · simp only [tableSlot, tableValue, low8_toNat, h, if_true, Except.error.injEq]
      constructor
      · rintro rfl
        exact ⟨hz ▸ h, hz⟩
      · rintro ⟨_, h2⟩
        exact BitVec.eq_of_toNat_eq (hz.trans h2.symm)
    · simp only [tableSlot, tableValue, low8_toNat, h, if_false, reduceCtorEq, false_iff]
      omega

/-- A resolution that succeeds: the table word names the slot, AR holds its low 8 bits, nothing else differs (rule
R83). -/
theorem resolveAR_ok {m t : State} {k : Slot} (h : resolveAR m = .ok (k, t)) :
    m.namesSlot m.ar k ∧ t.ar = low8 (m.read m.ar) ∧ m.changesOnly [.ar] t := by
  unfold resolveAR at h
  cases hs : tableSlot m.params.resolveCheck (m.read m.ar) with
  | error v => simp [hs] at h
  | ok j =>
    simp only [hs, Except.ok.injEq, Prod.mk.injEq] at h
    obtain ⟨rfl, rfl⟩ := h
    exact ⟨(tableSlot_ok_iff _ _ _).1 hs, rfl,
      substep_changesOnly ⟨fun n hn => by cases n <;> first | exact absurd (by decide) hn | rfl, fun _ => rfl, fun _ => rfl, rfl, rfl⟩⟩

/-- A resolution that fails: its value is reported, AR has been written, RUN and MID are clear, nothing else differs
(rules R83, R263). -/
theorem resolveAR_error {m : State} {f : Fault} (h : resolveAR m = .error f) :
    ∃ (v : Word) (t : State), f = .processResolutionError v t ∧ m.namesNoSlot m.ar v ∧ t.ar = low8 (m.read m.ar) ∧
      m.sameExcept [.ar] t ∧ t.mem = m.mem ∧ t.slots = m.slots ∧ t.run = false ∧ t.mid = false ∧ t.params = m.params := by
  unfold resolveAR at h
  cases hs : tableSlot m.params.resolveCheck (m.read m.ar) with
  | ok j => simp [hs] at h
  | error v =>
    simp only [hs, Except.error.injEq] at h
    exact ⟨v, _, h.symm, (tableSlot_error_iff _ _ _).1 hs, rfl,
      fun n hn => by cases n <;> first | exact absurd (by decide) hn | rfl, rfl, rfl, rfl, rfl, rfl⟩

/-- When the table word names a slot the resolution succeeds with it. -/
theorem resolveAR_of_namesSlot {m : State} {k : Slot} (h : m.namesSlot m.ar k) :
    resolveAR m = .ok (k, dereference m) := by
  have hs := (tableSlot_ok_iff _ _ _).2 h
  simp only [resolveAR, hs]

/-- When the table word names none the resolution fails with it. -/
theorem resolveAR_of_namesNoSlot {m : State} {v : Word} (h : m.namesNoSlot m.ar v) :
    resolveAR m = .error (.processResolutionError v (dereference m).halted) := by
  have hs := (tableSlot_error_iff _ _ _).2 h
  simp only [resolveAR, hs]

/-- `Resolve(p)` is `ResolveAR` with the process id in AR (rule R84). -/
theorem resolve_ok {p : Nibble} {m t : State} {k : Slot} (h : resolve p m = .ok (k, t)) :
    m.namesSlot (zext8 p) k ∧ t.ar = low8 (m.read (zext8 p)) ∧ m.changesOnly [.ar] t := by
  obtain ⟨h1, h2, h3⟩ := resolveAR_ok h
  refine ⟨h1, h2, changesOnly_trans (substep_changesOnly ?_) h3 (by simp)⟩
  exact ⟨fun n hn => by cases n <;> first | exact absurd (by decide) hn | rfl, fun _ => rfl, fun _ => rfl, rfl, rfl⟩

theorem resolve_error {p : Nibble} {m : State} {f : Fault} (h : resolve p m = .error f) :
    ∃ (v : Word) (t : State), f = .processResolutionError v t ∧ m.namesNoSlot (zext8 p) v ∧
      t.ar = low8 (m.read (zext8 p)) ∧ m.sameExcept [.ar] t ∧ t.mem = m.mem ∧ t.slots = m.slots ∧ t.run = false ∧
      t.mid = false ∧ t.params = m.params := by
  obtain ⟨v, t, h1, h2, h3, h4, h5, h6, h7, h8, h9⟩ := resolveAR_error h
  refine ⟨v, t, h1, h2, h3, fun n hn => (h4 n hn).trans ?_, h5, h6, h7, h8, h9⟩
  cases n <;> first | exact absurd (by decide) hn | rfl

theorem resolve_of_namesSlot {p : Nibble} {m : State} {k : Slot} (h : m.namesSlot (p.setWidth 8) k) :
    resolve p m = .ok (k, dereference (selectEntry p m)) := resolveAR_of_namesSlot (m := selectEntry p m) h

theorem resolve_of_namesNoSlot {p : Nibble} {m : State} {v : Word} (h : m.namesNoSlot (p.setWidth 8) v) :
    resolve p m = .error (.processResolutionError v (dereference (selectEntry p m)).halted) :=
  resolveAR_of_namesNoSlot (m := selectEntry p m) h

/-! The interrupt entry, the way back, and the context switch. -/

theorem latchInterrupt_spec (m : State) : (latchInterrupt m).r = true ∧ m.changesOnly [.r] (latchInterrupt m) :=
  ⟨rfl, substep_changesOnly ⟨fun n hn => by cases n <;> first | exact absurd (by decide) hn | rfl, fun _ => rfl, fun _ => rfl, rfl, rfl⟩⟩

theorem clearRequests_spec (m : State) :
    (clearRequests m).mid = false ∧ m.changesOnly [.ien, .sw, .r, .sc, .fgi, .fgo] (clearRequests m) :=
  ⟨rfl, lastSubstep_changesOnly ⟨fun n hn => by cases n <;> first | exact absurd (by decide) hn | rfl, fun _ => rfl, fun _ => rfl, rfl, rfl⟩⟩

theorem advanceProcess_spec (m : State) :
    (advanceProcess m).prc = m.successor ∧ m.changesOnly [.prc] (advanceProcess m) := by
  refine ⟨?_, substep_changesOnly ⟨fun n hn => by cases n <;> first | exact absurd (by decide) hn | rfl, fun _ => rfl, fun _ => rfl, rfl, rfl⟩⟩
  change nextProcess m.params.prcWrap m.prc m.tp = m.successor
  cases h : m.params.prcWrap <;> simp only [nextProcess, State.successor, inc_eq, h]

theorem markSwitched_spec (m : State) :
    (markSwitched m).c = (!m.s) ∧ (markSwitched m).sc = 0 ∧ (markSwitched m).mid = false ∧
      m.changesOnly [.c, .sc] (markSwitched m) :=
  ⟨rfl, rfl, rfl, lastSubstep_changesOnly ⟨fun n hn => by cases n <;> first | exact absurd (by decide) hn | rfl, fun _ => rfl, fun _ => rfl, rfl, rfl⟩⟩

theorem enterVector_address {m : State} (h : m.params.intVectorMode = .address) :
    enterVector m = substep (fun m => { m with pc := vectorCell }) m := by
  simp only [enterVector, h]

theorem enterVector_content {m : State} (h : m.params.intVectorMode = .content) :
    enterVector m = substep (fun m => { m with ar := vectorCell, pc := low8 (m.read vectorCell) }) m := by
  simp only [enterVector, h]

theorem enterVector_spec (m : State) : m.changesOnly [.pc, .ar] (enterVector m) := by
  unfold enterVector
  split <;>
    exact substep_changesOnly
      ⟨fun n hn => by cases n <;> first | exact absurd (by decide) hn | rfl, fun _ => rfl, fun _ => rfl, rfl, rfl⟩

/-- An interrupt entry that completes has resolved the current process (rule R255). -/
theorem interruptEntry_next {m t : State} (h : interruptEntry m = .next t) :
    ∃ k u, resolve m.prc (saveLive (latchInterrupt m)) = .ok (k, u) ∧
      t = clearRequests (enterVector (pcbWrite k u)) := by
  unfold interruptEntry at h
  split at h
  · cases h
  · rename_i k u hr
    cases h
    exact ⟨k, u, hr, rfl⟩

/-- An interrupt entry stops only by its resolution, and is never refused (rules R255, R257). -/
theorem interruptEntry_stops {m : State} :
    (∀ f, interruptEntry m = .fault f → resolve m.prc (saveLive (latchInterrupt m)) = .error f) ∧
      ∀ r, interruptEntry m ≠ .refused r := by
  unfold interruptEntry
  constructor
  · intro f h
    split at h
    · rename_i g hr
      cases h
      exact hr
    · cases h
  · intro r h
    split at h <;> cases h

/-- A context switch that completes has resolved the current process and the next one (rule R250). -/
theorem contextSwitch_next {m t : State} (h : contextSwitch m = .next t) :
    ∃ k u j v, resolve m.prc (saveLive m) = .ok (k, u) ∧
      resolve (quantumReload (advanceProcess (pcbWrite k u))).prc (quantumReload (advanceProcess (pcbWrite k u))) =
        .ok (j, v) ∧
      t = markSwitched (loadLive (pcbRead j v)) := by
  unfold contextSwitch at h
  split at h
  · cases h
  · rename_i k u hr
    simp only [switchIn] at h
    split at h
    · cases h
    · rename_i j v hj
      cases h
      exact ⟨k, u, j, v, hr, hj, rfl⟩

/-- A context switch stops only by one of its two resolutions, and is never refused (rules R250, R254). -/
theorem contextSwitch_stops {m : State} :
    (∀ f, contextSwitch m = .fault f →
      resolve m.prc (saveLive m) = .error f ∨
        ∃ k u, resolve m.prc (saveLive m) = .ok (k, u) ∧
          resolve (quantumReload (advanceProcess (pcbWrite k u))).prc (quantumReload (advanceProcess (pcbWrite k u))) =
            .error f) ∧
      ∀ r, contextSwitch m ≠ .refused r := by
  unfold contextSwitch
  constructor
  · intro f h
    split at h
    · rename_i g hr
      cases h
      exact .inl hr
    · rename_i k u hr
      simp only [switchIn] at h
      split at h
      · rename_i g hj
        cases h
        exact .inr ⟨k, u, hr, hj⟩
      · cases h
  · intro r h
    split at h
    · cases h
    · simp only [switchIn] at h
      split at h <;> cases h

/-- The way back: the context of the slot that the process id in AR resolves to (rules R190, R258). -/
theorem loadContext_ok {m t : State} (h : loadContext m = .ok t) :
    ∃ k, m.namesSlot m.ar k ∧ t.psr = m.slot k ∧ t.holdsContext (m.slot k) ∧ t.s = (m.slot k).s ∧
      t.ar = low8 (m.read m.ar) ∧ m.changesOnly [.ar, .psr, .pc, .ac, .e, .a0, .a1, .s] t := by
  unfold loadContext at h
  split at h
  · cases h
  · rename_i k u hr
    cases h
    obtain ⟨h1, h2, h3⟩ := resolveAR_ok hr
    obtain ⟨p1, p2⟩ := pcbRead_spec k u
    obtain ⟨l1, l2, l3⟩ := loadLive_spec (pcbRead k u)
    have hs : (pcbRead k u).psr = m.slot k := p1.trans (h3.2.2.1 k)
    rw [hs] at l1 l2
    refine ⟨k, h1, hs, l1, l2, h2, ?_⟩
    exact changesOnly_trans
      (changesOnly_trans (changesOnly_mono h3 (by simp)) p2 (by simp)) l3 (by simp)

/-- The way back stops only by its resolution (rule R190). -/
theorem loadContext_error {m : State} {f : Fault} (h : loadContext m = .error f) : resolveAR m = .error f := by
  unfold loadContext at h
  split at h
  · rename_i g hr
    cases h
    exact hr
  · cases h

/-! The fetch. -/

/-- Fetch: AR holds the old PC, IR the word there, PC is one further, nothing else differs (rule R131). -/
theorem fetch_spec (m : State) :
    (fetch m).ar = m.pc ∧ (fetch m).ir = m.read m.pc ∧ (fetch m).pc = m.pc + 1 ∧ m.changesOnly [.ar, .ir, .pc] (fetch m) :=
  ⟨rfl, rfl, by simp [fetch, inc_eq], fun n hn => by cases n <;> first | exact absurd (by decide) hn | rfl, fun _ => rfl, fun _ => rfl, rfl, rfl⟩

end Sys2Proof.Machine
end

