-- ==== Sys2Proof/Laws/PerInstr.lean ====
section
/-!
SUPPORT. The statements made per instruction, one lemma per constructor of `Instr`: the word of an instruction is of
the format of its mnemonic, and its written form has a word (rules R102 to R108, R117).
-/

namespace Sys2Proof.Laws.EncodedFormat

/-- The word of the instruction is of the format of its mnemonic, and the instruction is well-formed. -/
def Statement (i : Instr) : Prop := formatOf (encode i) = i.mnemonic.format ∧ i.wellFormed = true

theorem cal (ind : Bool) (adr : Addr) : Statement (.cal ind adr) := by
  refine ⟨?_, rfl⟩
  revert ind adr
  decide

theorem lda (ind : Bool) (adr : Addr) : Statement (.lda ind adr) := by
  refine ⟨?_, rfl⟩
  revert ind adr
  decide

theorem sta (ind : Bool) (adr : Addr) : Statement (.sta ind adr) := by
  refine ⟨?_, rfl⟩
  revert ind adr
  decide

theorem br (ind : Bool) (adr : Addr) : Statement (.br ind adr) := by
  refine ⟨?_, rfl⟩
  revert ind adr
  decide

theorem isa (ind : Bool) (adr : Addr) : Statement (.isa ind adr) := by
  refine ⟨?_, rfl⟩
  revert ind adr
  decide

theorem swt (ind : Bool) (adr : Addr) : Statement (.swt ind adr) := by
  refine ⟨?_, rfl⟩
  revert ind adr
  decide

theorem awt (ind : Bool) (adr : Addr) : Statement (.awt ind adr) := by
  refine ⟨?_, rfl⟩
  revert ind adr
  decide

theorem ldp (adr : Addr) : Statement (.ldp adr) := by
  refine ⟨?_, rfl⟩
  revert adr
  decide

theorem add : Statement .add := ⟨rfl, rfl⟩

theorem sub : Statement .sub := ⟨rfl, rfl⟩

theorem and : Statement .and := ⟨rfl, rfl⟩

theorem or : Statement .or := ⟨rfl, rfl⟩

theorem sza : Statement .sza := ⟨rfl, rfl⟩

theorem sze : Statement .sze := ⟨rfl, rfl⟩

theorem cle : Statement .cle := ⟨rfl, rfl⟩

theorem cma : Statement .cma := ⟨rfl, rfl⟩

theorem cme : Statement .cme := ⟨rfl, rfl⟩

theorem cir : Statement .cir := ⟨rfl, rfl⟩

theorem cil : Statement .cil := ⟨rfl, rfl⟩

theorem ica : Statement .ica := ⟨rfl, rfl⟩

theorem esw : Statement .esw := ⟨rfl, rfl⟩

theorem dsw : Statement .dsw := ⟨rfl, rfl⟩

theorem hlt : Statement .hlt := ⟨rfl, rfl⟩

theorem fork : Statement .fork := ⟨rfl, rfl⟩

theorem rst : Statement .rst := ⟨rfl, rfl⟩

theorem spa : Statement .spa := ⟨rfl, rfl⟩

theorem utm : Statement .utm := ⟨rfl, rfl⟩

theorem inp : Statement .inp := ⟨rfl, rfl⟩

theorem out : Statement .out := ⟨rfl, rfl⟩

theorem ski : Statement .ski := ⟨rfl, rfl⟩

theorem sko : Statement .sko := ⟨rfl, rfl⟩

theorem ei : Statement .ei := ⟨rfl, rfl⟩

theorem di : Statement .di := ⟨rfl, rfl⟩

end Sys2Proof.Laws.EncodedFormat
end

