-- ==== Sys2Proof/Tests/Slice0.lean ====
section
/-!
SUPPORT. The model's own tests: written forms that `WellFormed` refuses, one word per constructor written out from the
encoding tables, single steps whose results are those of `95_test_vectors.md` (the vector's id stands in the comment),
and for each statement with hypotheses a concrete state and operands that meet them all.
-/

namespace Sys2Proof.Tests

open Sys2Proof.Machine

/-! ## Well-formedness (rule R117) -/

/-- `CMA 05` is refused (2.1). -/
theorem test_formR_takes_no_operand :
    SourceForm.wellFormed { mnemonic := .cma, operand := some 5, marker := false } = false := by decide

theorem test_formR_takes_no_marker :
    SourceForm.wellFormed { mnemonic := .hlt, operand := none, marker := true } = false := by decide

/-- `LDA` alone is refused (2.1). -/
theorem test_formM_needs_an_operand :
    SourceForm.wellFormed { mnemonic := .lda, operand := none, marker := false } = false := by decide

theorem test_formP_needs_an_operand :
    SourceForm.wellFormed { mnemonic := .ldp, operand := none, marker := false } = false := by decide

/-- `LDP 02 I` is refused (2.1). -/
theorem test_formP_takes_no_marker :
    SourceForm.wellFormed { mnemonic := .ldp, operand := some 2, marker := true } = false := by decide

theorem test_formM_with_marker_is_well_formed :
    SourceForm.wellFormed { mnemonic := .lda, operand := some 5, marker := true } = true := by decide

/-! ## Decoding: the words written out from rules R103 to R105, R107, R108 (I, OPC, ADR; `1000`, ADR; `0000`, FN) -/

theorem test_decode_cal :
    decode 0b0_001_00100000 = .ok (.cal false 0x20) ∧ decode 0b1_001_00110000 = .ok (.cal true 0x30) := by decide
theorem test_decode_lda :
    decode 0b0_010_00000101 = .ok (.lda false 0x05) ∧ decode 0b1_010_01000000 = .ok (.lda true 0x40) := by decide
theorem test_decode_sta :
    decode 0b0_011_11000100 = .ok (.sta false 0xC4) ∧ decode 0b1_011_01000000 = .ok (.sta true 0x40) := by decide
theorem test_decode_br :
    decode 0b0_100_00010000 = .ok (.br false 0x10) ∧ decode 0b1_100_01000000 = .ok (.br true 0x40) := by decide
theorem test_decode_isa :
    decode 0b0_101_00110000 = .ok (.isa false 0x30) ∧ decode 0b1_101_01000000 = .ok (.isa true 0x40) := by decide
theorem test_decode_swt :
    decode 0b0_110_00000001 = .ok (.swt false 0x01) ∧ decode 0b1_110_01010000 = .ok (.swt true 0x50) := by decide
theorem test_decode_awt :
    decode 0b0_111_11111111 = .ok (.awt false 0xFF) ∧ decode 0b1_111_11111111 = .ok (.awt true 0xFF) := by decide
theorem test_decode_ldp :
    decode 0b1000_00000000 = .ok (.ldp 0x00) ∧ decode 0b1000_11111111 = .ok (.ldp 0xFF) := by decide
theorem test_decode_add : decode 0b0000_10000000 = .ok .add := by decide
theorem test_decode_sub : decode 0b0000_10000001 = .ok .sub := by decide
theorem test_decode_and : decode 0b0000_10000010 = .ok .and := by decide
theorem test_decode_or : decode 0b0000_10000011 = .ok .or := by decide
theorem test_decode_sza : decode 0b0000_10010000 = .ok .sza := by decide
theorem test_decode_sze : decode 0b0000_10010001 = .ok .sze := by decide
theorem test_decode_cle : decode 0b0000_10010010 = .ok .cle := by decide
theorem test_decode_cma : decode 0b0000_10010011 = .ok .cma := by decide
theorem test_decode_cme : decode 0b0000_10010100 = .ok .cme := by decide
theorem test_decode_cir : decode 0b0000_10010101 = .ok .cir := by decide
theorem test_decode_cil : decode 0b0000_10010110 = .ok .cil := by decide
theorem test_decode_ica : decode 0b0000_10010111 = .ok .ica := by decide
theorem test_decode_esw : decode 0b0000_10100000 = .ok .esw := by decide
theorem test_decode_dsw : decode 0b0000_10100001 = .ok .dsw := by decide
theorem test_decode_hlt : decode 0b0000_10100010 = .ok .hlt := by decide
theorem test_decode_fork : decode 0b0000_10100011 = .ok .fork := by decide
theorem test_decode_rst : decode 0b0000_10100100 = .ok .rst := by decide
theorem test_decode_spa : decode 0b0000_10100101 = .ok .spa := by decide
theorem test_decode_utm : decode 0b0000_10100110 = .ok .utm := by decide
theorem test_decode_inp : decode 0b0000_10110000 = .ok .inp := by decide
theorem test_decode_out : decode 0b0000_10110001 = .ok .out := by decide
theorem test_decode_ski : decode 0b0000_10110010 = .ok .ski := by decide
theorem test_decode_sko : decode 0b0000_10110011 = .ok .sko := by decide
theorem test_decode_ei : decode 0b0000_10110100 = .ok .ei := by decide
theorem test_decode_di : decode 0b0000_10110101 = .ok .di := by decide

/-- The illegal words of the table of 2.1, at both ends of every gap of rule R110. -/
theorem test_decode_illegal :
    [0x000, 0x07F, 0x084, 0x08F, 0x098, 0x09F, 0x0A7, 0x0AF, 0x0B6, 0x0FF].all
      (fun w => (decode (BitVec.ofNat 12 w)).toOption.isNone) = true := by decide

theorem test_decodeTableWord :
    decodeTableWord 16 0x205 = some (.lda false 0x05) ∧ decodeTableWord 16 0x1205 = none := by decide

/-! ## The assembler (2.1, rules R115 to R118) -/

theorem test_assemble_words :
    assemble (.tokens ["HLT"]) = some 0x0A2 ∧ assemble (.tokens ["LDA", "05"]) = some 0x205 ∧
      assemble (.tokens ["LDA", "05", "x"]) = some 0xA05 ∧ assemble (.tokens ["LDA", "105"]) = some 0x205 ∧
      assemble (.tokens ["LDP", "02"]) = some 0x802 ∧ assemble (.tokens []) = some 0x000 := by decide

theorem test_assemble_numbers :
    assemble (.tokens ["03"]) = some 0x003 ∧ assemble (.tokens ["ADD"]) = some 0x080 ∧
      assemble (.tokens ["0ADD"]) = some 0xADD ∧ assemble (.tokens ["FFFF"]) = some 0xFFF ∧
      assemble (.number (-1)) = some 0xFFF := by decide

theorem test_assemble_refused :
    assemble (.tokens ["CMA", "05"]) = none ∧ assemble (.tokens ["LDA"]) = none ∧
      assemble (.tokens ["LDP", "02", "I"]) = none := by decide

theorem test_canonical_text :
    canonicalText 0xA05 = ["LDA", "05", "I"] ∧ canonicalText 0x0A2 = ["HLT"] ∧ canonicalText 0x0A7 = ["0A7"] := by decide

/-! ## Single steps -/

/-- The base state B of `95_test_vectors.md` section 0 with the word under test at `0x10`. -/
def base (w : Word) : State :=
  { State.reset with gs := true, s := true, tp := 1, tm := 5, pc := 0x10, mem := { cells := [(0x08, 5), (0x10, w)] } }

/-- A record written as in the vectors. -/
def record (s a1 a0 e : Bool) (ac : Word) (pc0 pc : Addr) : Psr := { s, a1, a0, e, ac, pc0, pc }

/-- The step answers a next state that passes the check. -/
def steps (m : State) (check : State → Bool) : Bool :=
  match step m with
  | .next t => check t
  | _ => false

/-- The step answers a fatal condition with a code and a value, and its committed state passes the check. -/
def faults (m : State) (code : Nat) (value : Word) (check : State → Bool) : Bool :=
  match step m with
  | .fault (.decodeError w t) => code == 1 && w == value && check t
  | .fault (.processResolutionError v t) => code == 2 && v == value && check t
  | .fault (.capacityError n t) => code == 3 && zext12 n == value && check t
  | _ => false

/-- A1 and A8. -/
theorem test_cal_direct :
    steps { (base 0x120).write 0x20 3 with ac := 5 } (fun t =>
      t.ac == 8 && t.dr == 3 && t.ar == 0x20 && t.pc == 0x11 && t.tm == 4) = true := by decide
theorem test_cal_indirect :
    steps { ((base 0x930).write 0x30 0xF21).write 0x21 0x00F with ac := 0x010 } (fun t =>
      t.ac == 0x01F && t.ar == 0x21 && t.i) = true := by decide
/-- A10. -/
theorem test_add : steps { base 0x080 with a0 := true, a1 := true, ac := 7 } (fun t =>
    !t.a0 && !t.a1 && t.ac == 7 && t.ar == 0x10) = true := by decide
/-- A11. -/
theorem test_sub : steps (base 0x081) (fun t => t.a0 && !t.a1) = true := by decide
/-- A3: SUB subtracts the operand from AC. -/
theorem test_sub_then_cal :
    steps { (base 0x120).write 0x20 5 with ac := 3, a0 := true } (fun t => t.ac == 0xFFE) = true := by decide
/-- A12, A6. -/
theorem test_and : steps (base 0x082) (fun t => !t.a0 && t.a1) = true := by decide
theorem test_and_then_cal :
    steps { (base 0x120).write 0x20 0x3C5 with ac := 0xF0F, a1 := true } (fun t => t.ac == 0x305) = true := by decide
/-- A13, A7. -/
theorem test_or : steps (base 0x083) (fun t => t.a0 && t.a1) = true := by decide
theorem test_or_then_cal :
    steps { (base 0x120).write 0x20 0x3C5 with ac := 0xF0F, a0 := true, a1 := true } (fun t =>
      t.ac == 0xFCF) = true := by decide
/-- M2: only the low 8 bits of the pointer word are the address. -/
theorem test_lda_indirect :
    steps (((base 0xA40).write 0x40 0x141).write 0x41 0xABC) (fun t =>
      t.ac == 0xABC && t.ar == 0x41 && t.i && t.pc == 0x11) = true := by decide
/-- M6. -/
theorem test_sta_indirect :
    steps { (base 0xB40).write 0x40 0x031 with ac := 0xABC } (fun t =>
      t.read 0x31 == 0xABC && t.read 0x40 == 0x031) = true := by decide
/-- M9. -/
theorem test_br_indirect :
    steps ((base 0xC40).write 0x40 0x3FE) (fun t => t.pc == 0xFE && t.ar == 0xFE) = true := by decide
/-- P2, steps 5 and 17 (rule R164): stored and compared is the incremented value. -/
theorem test_isa_no_match :
    steps { base 0x530 with ac := 3 } (fun t => t.pc == 0x11 && t.dr == 1 && t.read 0x30 == 1) = true := by decide
theorem test_isa_match :
    steps { (base 0x530).write 0x30 2 with ac := 3 } (fun t => t.pc == 0x12 && t.read 0x30 == 3) = true := by decide
/-- F7: a skip passes over an illegal word without fetching it. -/
theorem test_sza_skips : steps (base 0x090) (fun t => t.pc == 0x12) = true := by decide
theorem test_sza_no_skip : steps { base 0x090 with ac := 0x800 } (fun t => t.pc == 0x11) = true := by decide
/-- Rule R172. -/
theorem test_sze : steps { base 0x091 with e := true } (fun t => t.pc == 0x11) = true := by decide
/-- Rules R173 to R175. -/
theorem test_cle : steps { base 0x092 with e := true } (fun t => !t.e) = true := by decide
theorem test_cma : steps { base 0x093 with ac := 0xF05, e := true } (fun t => t.ac == 0x0FA && t.e) = true := by decide
theorem test_cme : steps (base 0x094) (fun t => t.e) = true := by decide
/-- Rules R176, R177 on `E = 1`, `AC = 0x002` and `E = 0`, `AC = 0x801`, by hand. -/
theorem test_cir : steps { base 0x095 with ac := 0x002, e := true } (fun t => t.ac == 0x801 && !t.e) = true := by decide
theorem test_cil : steps { base 0x096 with ac := 0x801 } (fun t => t.ac == 0x002 && t.e) = true := by decide
/-- G17. -/
theorem test_ica : steps { base 0x097 with ac := 0xFFF } (fun t => t.ac == 0 && !t.e && !t.c) = true := by decide
/-- S1: the expiry sees the SW just set. -/
theorem test_esw : steps { base 0x0A0 with tm := 1 } (fun t => t.sw && t.c && t.tm == 0) = true := by decide
/-- S4. -/
theorem test_dsw : steps { base 0x0A1 with tm := 1, sw := true } (fun t => !t.sw && !t.c && t.tm == 0) = true := by decide
/-- S5 and S6 with the word at `0x10`. -/
theorem test_hlt_goes_on :
    steps { base 0x0A2 with tp := 2 } (fun t => !t.s && t.gs && t.ns == 1 && t.c && t.pc == 0x10) = true := by decide
theorem test_hlt_stops :
    steps { base 0x0A2 with tp := 2, ns := 1 } (fun t => !t.gs && t.ns == 2) = true := by decide
/-- S11 and S10. -/
theorem test_fork :
    steps { base 0x0A3 with tp := 6, ac := 0x111 } (fun t =>
      t.tp == 7 && t.slot 6 == record true false false false 0x111 0x00 0x11 && t.slot 5 == Psr.zero) = true := by decide
theorem test_fork_full :
    faults { base 0x0A3 with tp := 7 } 3 7 (fun t => t.tp == 7 && t.tm == 5 && t.ir == 0x0A3 && !t.run) = true := by decide

/-- The start of S15. -/
def rstStart : State :=
  { ((base 0x0A4).write 0x01 1).setSlot 1 (record true true false true 0x123 0x40 0x57) with prc := 1, tp := 2, ac := 0x0AA }

/-- S15 and S16. -/
theorem test_rst :
    steps rstStart (fun t =>
      t.slot 1 == record false false false false 0 0x40 0x40 && t.ac == 0x0AA && t.s && t.pc == 0x11) = true := by decide
theorem test_rst_live :
    steps { rstStart with params := { Params.default with rstLive := true } } (fun t =>
      t.ac == 0 && !t.s && t.pc == 0x40) = true := by decide

/-- The start of S18. -/
def swtStart : State :=
  { ((base 0x601).write 0x01 1).setSlot 1 (record false false true true 0x222 0x40 0x40) with
    tp := 2, ns := 1, ac := 0x011, psr := record true false false false 0 0x20 0x20 }

/-- S18 with the word at `0x10`, and the fault of S23. -/
theorem test_swt :
    steps swtStart (fun t =>
      t.prc == 1 && t.pc == 0x40 && t.ac == 0x222 && t.e && t.a0 && t.s && t.ns == 0 && t.tm == 4 &&
        t.slot 0 == record true false false false 0x011 0x20 0x11) = true := by decide
theorem test_swt_fault :
    faults (swtStart.write 0x00 8) 2 8 (fun t => t.prc == 0 && t.slot 0 == Psr.zero && t.ac == 0x011) = true := by decide

/-- The start of S24 with the word at `0x10`. -/
def awtStart : State :=
  { ((base 0x701).write 0x01 1).setSlot 1 (record true false false false 5 0x40 0x42) with tp := 2, tm := 6, ac := 0x0AB }

/-- S24 and S25. -/
theorem test_awt_spins : steps awtStart (fun t => t.pc == 0x10 && t.c && t.ac == 0x0AB && t.tm == 5) = true := by decide
theorem test_awt_goes_on :
    steps (awtStart.setSlot 1 Psr.zero) (fun t => t.pc == 0x11 && !t.c) = true := by decide

/-- The start of S30. -/
def ldpStart : State :=
  { ((base 0x802).write 0x02 5).setSlot 5 (record true true true false 0x7FF 0x60 0x6A) with tp := 3, ac := 1 }

/-- S30 and S32. -/
theorem test_ldp :
    steps ldpStart (fun t =>
      t.pc == 0x6A && t.ac == 0x7FF && t.a0 && t.a1 && !t.e && t.s && t.prc == 0 && t.ar == 5 && !t.i) = true := by decide
theorem test_ldp_fault : faults (ldpStart.write 0x02 0xFFF) 2 0xFFF (fun t => t.ar == 0xFF && t.ac == 1) = true := by decide
/-- S36: all 12 bits of the cell are compared. -/
theorem test_spa :
    steps { (base 0x0A5).write 0x02 2 with prc := 2, tp := 3, ac := 2 } (fun t => t.pc == 0x12) = true := by decide
theorem test_spa_no_skip :
    steps { (base 0x0A5).write 0x02 0x102 with prc := 2, tp := 3, ac := 2 } (fun t => t.pc == 0x11) = true := by decide
/-- S37. -/
theorem test_utm : steps { (base 0x0A6).write 0x08 0x00A with tm := 1 } (fun t => t.tm == 9 && t.ar == 8) = true := by decide
/-- I1. -/
theorem test_inp : steps { base 0x0B0 with inpr := 0xB, fgi := true, fgo := true, ac := 0xFFF } (fun t =>
    t.ac == 0x00B && !t.fgi && t.fgo) = true := by decide
/-- I3. -/
theorem test_out : steps { base 0x0B1 with ac := 0xABC, fgi := true, fgo := true } (fun t =>
    t.outr == 0xC && !t.fgo && t.fgi) = true := by decide
/-- I5, I6. -/
theorem test_ski : steps { base 0x0B2 with fgi := true } (fun t => t.pc == 0x12 && t.fgi) = true := by decide
theorem test_ski_no_skip : steps { base 0x0B2 with fgo := true } (fun t => t.pc == 0x11) = true := by decide
/-- I7, I8. -/
theorem test_sko : steps { base 0x0B3 with fgo := true } (fun t => t.pc == 0x12 && t.fgo) = true := by decide
theorem test_sko_no_skip : steps { base 0x0B3 with fgi := true } (fun t => t.pc == 0x11) = true := by decide
/-- I9, I11. -/
theorem test_ei : steps (base 0x0B4) (fun t => t.ien) = true := by decide
theorem test_di : steps { base 0x0B5 with ien := true } (fun t => !t.ien) = true := by decide
/-- F6: no end of instruction after an illegal word. -/
theorem test_illegal_word :
    faults { base 0x0B6 with tm := 1, sw := true } 1 0x0B6 (fun t =>
      t.pc == 0x11 && t.ir == 0x0B6 && t.tm == 1 && !t.c) = true := by decide

/-- The start of X1. -/
def switchStart : State :=
  { (((base 0).write 0x10 0).write 0x01 1).write 0x08 3 |>.setSlot 1 (record true false true false 0x700 0x40 0x40) with
    tp := 2, sw := true, c := true, tm := 0, pc := 0x13, ac := 3, e := true
    psr := record true false false false 0 0x10 0x10 }

/-- X1. -/
theorem test_context_switch :
    steps switchStart (fun t =>
      t.pc == 0x40 && t.ac == 0x700 && t.tm == 3 && t.prc == 1 && !t.e && !t.c && t.a0 &&
        t.slot 0 == record true false false true 3 0x10 0x13) = true := by decide

/-- The start of N1. -/
def interruptStart : State :=
  { base 0 with
    ien := true, fgi := true, sw := true, pc := 0x25, ac := 0x0F0, e := true, a1 := true
    psr := record true false false false 0 0x20 0x20 }

/-- N1. -/
theorem test_interrupt_entry :
    steps interruptStart (fun t =>
      t.pc == 0x09 && !t.sw && !t.ien && !t.fgi && !t.r && t.tm == 5 && t.ac == 0x0F0 &&
        t.slot 0 == record true true false true 0x0F0 0x20 0x25) = true := by decide

/-- The pacer records of `LDA 40 I`, oldest first (2.10). -/
theorem test_pacer_trace :
    steps (((base 0xA40).write 0x40 0x141).write 0x41 0xABC) (fun t =>
      t.trace.reverse.map (fun p => p.changed) == [[.ar], [.ir], [.pc], [.ar, .i], [.ar], [.ac], [.tm], []] &&
        (t.pending.map (fun p => p.phase)) == some .endOfInstruction &&
        (t.pending.map (fun p => p.pointer)) == some 0x11) = true := by decide

/-- What reads between the sub-steps of `LDA 40 I` see: AR, IR, PC and AC after each of F1 to F3, D1, D2, X1, E1, E2
(rules R131, R134, R135, R161, R217). -/
theorem test_reads_between_substeps :
    steps (((base 0xA40).write 0x40 0x141).write 0x41 0xABC) (fun t =>
      t.observed.map (fun c => (c.ar, c.ir, c.pc, c.ac, c.mid)) ==
        [(0x10, 0x000, 0x10, 0x000, true), (0x10, 0xA40, 0x10, 0x000, true), (0x10, 0xA40, 0x11, 0x000, true),
          (0x40, 0xA40, 0x11, 0x000, true), (0x41, 0xA40, 0x11, 0x000, true), (0x41, 0xA40, 0x11, 0xABC, true),
          (0x41, 0xA40, 0x11, 0xABC, true), (0x41, 0xA40, 0x11, 0xABC, false)]) = true := by decide

/-- From reset the word the host places is the word the next step runs. -/
theorem test_withFetchWord : steps (State.reset.withFetchWord 16 0x097) (fun t => t.ac == 1 && t.pc == 0x0B) = true := by
  decide

/-- The document of T8, its `REG` numbers as values (`1FE` and `99` are hexadecimal). -/
def roundTripDocument : LoadDocument :=
  { reg := [("PC", .number 0x1FE), ("AC", .number (-1)), ("TM", .number 0x99),
      ("PSR", .fields [1, 0, 1, 0, 0xABC, 0x10, 0x12])]
    ff := [("GS", true), ("S", true), ("SW", true)]
    cells := [(0, [.tokens ["00"]]), (1, [.tokens ["01"]]), (8, [.tokens ["04"]]),
      (0x10, [.tokens ["LDA", "20", "I"], .tokens ["ADD"], .tokens ["0ADD"]])]
    rows := [(0, [1, 0, 0, 0, 0, 0x10, 0x10]), (1, [1, 0, 0, 0, 0, 0x40, 0x40])] }

/-- T8: reading back what was loaded; TM and TP are derived. The list stands at `0x10`, where T8 reads it back. -/
theorem test_load_round_trip :
    (match perform (.load roundTripDocument) State.reset with
      | .next t =>
        t.pc == 0xFE && t.ac == 0xFFF && t.psr == record true false true false 0xABC 0x10 0x12 && t.gs && t.s && t.sw &&
          t.read 0x08 == 4 && t.read 0x10 == 0xA20 && t.read 0x11 == 0x080 && t.read 0x12 == 0xADD && t.tm == 4 &&
          t.tp == 2 && t.slot 1 == record true false false false 0 0x40 0x40
      | _ => false) = true := by decide

/-- Rule R224: a row index of 8 aborts the load with the reset state. -/
theorem test_load_validation :
    (match perform (.load { roundTripDocument with rows := [(8, [1, 0, 0, 0, 0, 0, 0])] }) (base 0x097) with
      | .fault (.loadValidationError t) => t == State.reset
      | _ => false) = true := by decide

/-- Log entry 10: where the runs of two entries of section M overlap the later one wins. -/
theorem test_load_overlap :
    (match perform (.load { roundTripDocument with cells := roundTripDocument.cells ++ [(0x11, [.number 7])] })
        State.reset with
      | .next t => t.read 0x10 == 0xA20 && t.read 0x11 == 7 && t.read 0x12 == 0xADD
      | _ => false) = true := by decide

/-- Log entry 10: dash-separated fields are for PSR alone. -/
theorem test_load_fields_for_another_register : validReg ("AC", .fields [1, 0, 1, 0, 0xABC, 0x10, 0x12]) = false := by decide

/-! ## Witnesses: states and operands that meet the hypotheses of the statements -/

theorem witness_EncodeAfterDecode : decode 0xA05 = .ok (.lda true 0x05) := by decide

/-- At both ends of every gap of rule R110. -/
theorem witness_IllegalWordsStopTheRun :
    (base 0x0A7).readyToExecute ∧ topNibble ((base 0x0A7).read (base 0x0A7).pc) = 0 ∧
      illegalCode (((base 0x0A7).read (base 0x0A7).pc).toNat % 256) ∧
      (∀ fn ∈ [0x00, 0x7F, 0x84, 0x8F, 0x98, 0x9F, 0xA7, 0xAF, 0xB6, 0xFF], illegalCode fn) ∧
      (∀ fn ∈ [0x80, 0x83, 0x90, 0x97, 0xA0, 0xA6, 0xB0, 0xB5], ¬ illegalCode fn) := by decide

theorem witness_TextFormsWithoutWordAreRefused :
    Mnemonic.format .cma = .r ∧ Mnemonic.format .lda = .m ∧ Mnemonic.format .ldp = .p := by decide

theorem witness_StepRunsTheDecodedInstruction :
    (base 0x205).readyToExecute ∧ decode ((base 0x205).read (base 0x205).pc) = .ok (.lda false 0x05) := by decide

/-- Reset, and reset with RUN set. -/
theorem witness_StoppedMachineOnlyEndsItsRun :
    State.reset.mid = false ∧ State.reset.gs = false ∧ State.reset.run = false ∧
      ({ State.reset with run := true } : State).gs = false := by decide

/-- Each clause, by each of its two conditions. -/
theorem witness_ArbiterTakesOneBranch :
    (base 0x097).live ∧ ({ base 0x097 with s := false } : State).wantsSwitch ∧
      ({ base 0x097 with c := true, sw := true } : State).wantsSwitch ∧
      ¬ ({ base 0x097 with c := true, ien := true, fgo := true } : State).wantsSwitch ∧
      ({ base 0x097 with ien := true, fgo := true } : State).wantsInterrupt ∧
      ({ base 0x097 with r := true } : State).wantsInterrupt ∧
      ¬ (base 0x097).wantsSwitch ∧ ¬ ({ base 0x097 with ien := true } : State).wantsInterrupt := by decide

/-- X1: from process 0 in slot 0 to process 1 in slot 1. -/
theorem witness_ContextSwitchSavesAndLoads :
    switchStart.live ∧ switchStart.wantsSwitch ∧ switchStart.namesSlot (switchStart.prc.setWidth 8) 0 ∧
      switchStart.namesSlot (switchStart.successor.setWidth 8) 1 := by decide

/-- X2: one process, which is its own successor. -/
theorem witness_ContextSwitchSavesAndLoads_self :
    ({ switchStart with tp := 1 } : State).live ∧ ({ switchStart with tp := 1 } : State).wantsSwitch ∧
      ({ switchStart with tp := 1 } : State).namesSlot (({ switchStart with tp := 1 } : State).prc.setWidth 8) 0 ∧
      ({ switchStart with tp := 1 } : State).namesSlot (({ switchStart with tp := 1 } : State).successor.setWidth 8) 0 := by
  decide

/-- X10 and X11: the two ways to wrap differ only where PRC is not below TP; `ar8` takes a table word of 8 or more. -/
theorem witness_ContextSwitchSavesAndLoads_params :
    ({ switchStart with prc := 5 } : State).successor = 6 ∧
      ({ switchStart with prc := 5, params := { Params.default with prcWrap := .ge } } : State).successor = 0 ∧
      ({ (switchStart.write 0x00 0x102) with params := { Params.default with resolveCheck := .ar8 } } : State).namesSlot
        0x00 2 := by decide

/-- X8 and X9. -/
theorem witness_ContextSwitchFaults :
    (switchStart.write 0x00 8).live ∧ (switchStart.write 0x00 8).wantsSwitch ∧
      (switchStart.write 0x00 8).namesNoSlot ((switchStart.write 0x00 8).prc.setWidth 8) 8 ∧
      (switchStart.write 0x01 0x00B).namesSlot ((switchStart.write 0x01 0x00B).prc.setWidth 8) 0 ∧
      (switchStart.write 0x01 0x00B).namesNoSlot ((switchStart.write 0x01 0x00B).successor.setWidth 8) 0x00B := by decide

/-- N1 and N6. -/
theorem witness_InterruptEntrySavesAndTraps :
    interruptStart.live ∧ ¬ interruptStart.wantsSwitch ∧ interruptStart.wantsInterrupt ∧
      interruptStart.namesSlot (interruptStart.prc.setWidth 8) 0 ∧ interruptStart.params.intVectorMode = .address ∧
      ({ interruptStart with params := { Params.default with intVectorMode := .content } } : State).wantsInterrupt := by
  decide

/-- N7. -/
theorem witness_InterruptEntryFaults :
    (interruptStart.write 0x00 0x00F).live ∧ ¬ (interruptStart.write 0x00 0x00F).wantsSwitch ∧
      (interruptStart.write 0x00 0x00F).wantsInterrupt ∧
      (interruptStart.write 0x00 0x00F).namesNoSlot ((interruptStart.write 0x00 0x00F).prc.setWidth 8) 0x00F := by decide

/-- The state a step answers, or the state itself. -/
def after (m : State) : State :=
  match step m with
  | .next t => t
  | _ => m

/-- N1, with the state after the entry as the later state. -/
theorem witness_LdpReturnsFromInterrupt :
    interruptStart.live ∧ ¬ interruptStart.wantsSwitch ∧ interruptStart.wantsInterrupt ∧
      interruptStart.namesSlot (interruptStart.prc.setWidth 8) 0 ∧
      step interruptStart = .next (after interruptStart) :=
  ⟨by decide, by decide, by decide, by decide, rfl⟩

/-- N9, to the same process; X3 with an interrupt wanted, to a stopped one. -/
theorem witness_InterruptSurvivesContextSwitch :
    ({ base 0 with ien := true, fgi := true, c := true, sw := true } : State).live ∧
      ({ base 0 with ien := true, fgi := true, s := false } : State).wantsSwitch ∧
      ({ base 0 with ien := true, fgi := true, s := false } : State).wantsInterrupt ∧
      (after { (base 0).setSlot 0 (record true false false false 0 0 0) with
        ien := true, fgi := true, c := true, sw := true }).s = true ∧
      (after { base 0 with ien := true, fgi := true, s := false }).s = false := by decide

theorem witness_RotationsUndoEachOther :
    ∃ t u v, exec .cir (base 0x095) = .next t ∧ exec .cil t = .next u ∧ exec .cir u = .next v := ⟨_, _, _, rfl, rfl, rfl⟩

/-- I10. -/
theorem witness_EiTakesEffectAtOnce :
    ∃ t, ({ base 0x0B4 with fgi := true } : State).gs = true ∧ ({ base 0x0B4 with fgi := true } : State).s = true ∧
      exec .ei { base 0x0B4 with fgi := true } = .next t ∧ ¬ (t.c = true ∧ t.sw = true) :=
  ⟨_, rfl, rfl, rfl, by decide⟩

/-- S5 and S6: HLT with another process started, and HLT of the last one. -/
theorem witness_HltStopsTheProcess :
    (after { base 0x0A2 with tp := 2 }).gs = true ∧ (after (base 0x0A2)).gs = false ∧
      (after (base 0x0A2)).run = false := by decide

/-- S11, and S13 with the table. -/
theorem witness_ForkCopiesTheProcess :
    ({ base 0x0A3 with tp := 6 } : State).tp ≠ 7 ∧
      (({ base 0x0A3 with tp := 6 } : State).params.forkSlot = .direct ∧
        ({ base 0x0A3 with tp := 6 } : State).forkTarget 6) ∧
      ({ ((base 0x0A3).write 0x02 5) with tp := 2, params := { Params.default with forkSlot := .table } } : State).forkTarget
        5 := by
  refine ⟨by decide, ⟨rfl, rfl⟩, rfl⟩

/-- S10, S12 at TP 8 and 15, S14. -/
theorem witness_ForkFaults :
    ({ base 0x0A3 with tp := 7 } : State).tp = 7 ∧
      (({ base 0x0A3 with tp := 8 } : State).params.forkSlot = .direct ∧
        8 ≤ ({ base 0x0A3 with tp := 8 } : State).tp.toNat ∧ 8 ≤ ({ base 0x0A3 with tp := 15 } : State).tp.toNat) ∧
      ({ ((base 0x0A3).write 0x02 9) with tp := 2, params := { Params.default with forkSlot := .table } } :
          State).namesNoSlot 0x02 9 := by decide

/-- S15 and S16. -/
theorem witness_RstResetsTheStoredRecord :
    rstStart.namesSlot (rstStart.prc.setWidth 8) 1 ∧ rstStart.params.rstLive = false ∧
      ({ rstStart with params := { Params.default with rstLive := true } } : State).namesSlot 0x01 1 := by decide

/-- S18, and S20 where the target is the process itself; the operand's low 4 bits alone count, as in S21. -/
theorem witness_SwtSwitchesToTheTarget :
    swtStart.namesSlot (swtStart.prc.setWidth 8) 0 ∧
      swtStart.namesSlot (((effectiveOperand false 0x01 swtStart).setWidth 4).setWidth 8) 1 ∧
      swtStart.namesSlot (((effectiveOperand false 0x00 swtStart).setWidth 4).setWidth 8) 0 ∧
      swtStart.namesSlot (((effectiveOperand false 0x11 swtStart).setWidth 4).setWidth 8) 1 := by decide

/-- S23 and S22. -/
theorem witness_SwtFaults :
    (swtStart.write 0x00 8).namesNoSlot ((swtStart.write 0x00 8).prc.setWidth 8) 8 ∧
      (swtStart.write 0x03 0x00A).namesSlot ((swtStart.write 0x03 0x00A).prc.setWidth 8) 0 ∧
      (swtStart.write 0x03 0x00A).namesNoSlot
        (((effectiveOperand false 0x03 (swtStart.write 0x03 0x00A)).setWidth 4).setWidth 8) 0x00A := by decide

/-- S24 and S25: the target started, and stopped. -/
theorem witness_AwtWaitsForTheTarget :
    awtStart.namesSlot (effectiveOperand false 0x01 awtStart) 1 ∧ (awtStart.slot 1).s = true ∧
      (awtStart.setSlot 1 Psr.zero).namesSlot (effectiveOperand false 0x01 (awtStart.setSlot 1 Psr.zero)) 1 := by decide

theorem witness_LdpLoadsTheStoredContext : ldpStart.namesSlot 0x02 5 := by decide

/-- S17, S27 and S32: in each the table word at its address. -/
theorem witness_FailedResolutionStopsTheInstruction :
    (rstStart.write 0x01 0x00C).namesNoSlot ((rstStart.write 0x01 0x00C).prc.setWidth 8) 0x00C ∧
      (awtStart.write 0x01 0x108).namesNoSlot (effectiveOperand false 0x01 (awtStart.write 0x01 0x108)) 0x108 ∧
      (ldpStart.write 0x02 0xFFF).namesNoSlot 0x02 0xFFF := by decide

theorem witness_EveryStepKeepsTheInvariant :
    (base 0x330).engineInvariant ∧ step (base 0x330) = .next (after (base 0x330)) := ⟨by decide, rfl⟩

theorem witness_UnusedRegistersInfluenceNothing : step (base 0x330) = .next (after (base 0x330)) := rfl

/-- M5. -/
theorem witness_OnlyStaAndIsaWriteMemory :
    step { base 0x330 with ac := 0xABC } = .next (after { base 0x330 with ac := 0xABC }) ∧
      (after { base 0x330 with ac := 0xABC }).read 0x30 ≠ ({ base 0x330 with ac := 0xABC } : State).read 0x30 :=
  ⟨rfl, by decide⟩

/-- After S15 slot 1 holds the entry point `0x40`. -/
theorem witness_EntryPointsAreOnlyCopied : step rstStart = .next (after rstStart) ∧ (after rstStart).holdsEntryPoint 0x40 :=
  ⟨rfl, .inl (by decide)⟩

theorem witness_OnlyHltClearsGs :
    step (base 0x0A2) = .next (after (base 0x0A2)) ∧ (after (base 0x0A2)).gs ≠ (base 0x0A2).gs := ⟨rfl, by decide⟩

/-- An interrupt entry, INP (I1) and OUT (I3). -/
theorem witness_DeviceFlagsAreOnlyCleared :
    step interruptStart = .next (after interruptStart) ∧ (after interruptStart).fgi ≠ interruptStart.fgi ∧
      (after { base 0x0B0 with fgi := true }).fgi ≠ true ∧ (after { base 0x0B1 with fgo := true }).fgo ≠ true :=
  ⟨rfl, by decide, by decide, by decide⟩

/-- An instruction that expires the quantum, and one that does not. -/
theorem witness_InstructionsEndTheSameWay :
    ∃ t u, exec .ica { base 0x097 with tm := 1 } = .next t ∧ t.tm = 0 ∧ exec .ica (base 0x097) = .next u ∧ u.tm ≠ 0 :=
  ⟨_, _, rfl, by decide, rfl, by decide⟩

theorem witness_FaultingHandlersDoNotEnd : ∃ f, exec .fork { base 0x0A3 with tp := 7 } = .fault f := ⟨_, rfl⟩

theorem witness_OnlyFiveInstructionsFault :
    (∃ f, exec .fork { base 0x0A3 with tp := 7 } = .fault f) ∧
      ∃ f, exec (.ldp 0x02) (ldpStart.write 0x02 0xFFF) = .fault f := ⟨⟨_, rfl⟩, ⟨_, rfl⟩⟩

/-- A decision that completes, and an illegal word. -/
theorem witness_PacerMarksTheEndOfEveryDecision :
    (base 0x097).gs = true ∧ step (base 0x097) = .next (after (base 0x097)) ∧ ∃ f, step (base 0x0A7) = .fault f :=
  ⟨rfl, rfl, _, rfl⟩

/-- T5, step 3. -/
theorem witness_ExpiryForcesAContextSwitch :
    ∃ t, exec .ica { base 0x097 with tm := 1, sw := true } = .next t ∧ t.gs = true ∧ t.tm = 0 ∧ t.sw = true :=
  ⟨_, rfl, rfl, by decide, rfl⟩

theorem witness_WritesChangeOnePlace : (base 0x097).mem.wf = true ∧ State.reset.mem.wf = true := by decide

/-- A run still running, one that ends as HLT clears GS (S6), one that meets an illegal word. -/
theorem witness_ContinuousRunIsASequenceOfSteps :
    (∃ t, continuousLoop 1 { base 0x097 with run := true } = .next t ∧ t.run = true) ∧
      (∃ t, continuousLoop 3 { base 0x0A2 with run := true } = .next t ∧ t.run = false) ∧
      ∃ f, continuousLoop 3 { base 0x0A7 with run := true } = .fault f :=
  ⟨⟨_, rfl, rfl⟩, ⟨_, rfl, rfl⟩, ⟨_, rfl⟩⟩

/-- An editable element while idle, one that is not, and an edit while MID is 1. -/
theorem witness_EditsWriteOneEditableElement :
    (base 0x097).mid = false ∧ Element.gs ∈ [Element.ar, .pc, .prc, .inpr, .ns, .tar, .ien, .sw, .fgi, .fgo, .s, .gs] ∧
      Element.ac ∉ [Element.ar, .pc, .prc, .inpr, .ns, .tar, .ien, .sw, .fgi, .fgo, .s, .gs] ∧
      ({ base 0x097 with mid := true } : State).mid = true := by decide

/-- A load that completes, with an entry of each section, an element, a cell and a slot that it does not name, and one
that fails its validation. -/
theorem witness_LoadDerivesTimerAndCount :
    (∃ t, perform (.load roundTripDocument) State.reset = .next t) ∧
      (Element.ac.text, .number (-1)) ∈ roundTripDocument.reg ∧
      ("PSR", .fields [1, 0, 1, 0, 0xABC, 0x10, 0x12]) ∈ roundTripDocument.reg ∧
      (Element.sw.text, true) ∈ roundTripDocument.ff ∧ Element.dr.text ∉ roundTripDocument.reg.map Prod.fst ∧
      Element.dr.text ∉ roundTripDocument.ff.map Prod.fst ∧
      (1, [1, 0, 0, 0, 0, 0x40, 0x40]) ∈ roundTripDocument.rows ∧ (7 : Int) ∉ roundTripDocument.rows.map Prod.fst ∧
      ∃ f, perform (.load { roundTripDocument with rows := [(8, [1, 0, 0, 0, 0, 0, 0])] }) State.reset = .fault f :=
  ⟨⟨_, rfl⟩, by decide, by decide, by decide, by decide, by decide, by decide, by decide, ⟨_, rfl⟩⟩

/-- The last text of the list from `0x10` stands alone at `0x12`, and no entry fills `0x13`. -/
theorem witness_LoadDerivesTimerAndCount_cells :
    (∀ e ∈ roundTripDocument.cells, e.1 = 0x10 → e.2[2]? = some (.tokens ["0ADD"])) ∧
      (∀ e ∈ roundTripDocument.cells, e.1 ≤ 0x12 ∧ 0x12 < e.1 + e.2.length → e.1 = 0x10) ∧
      ∀ e ∈ roundTripDocument.cells, ¬ (e.1 ≤ 0x13 ∧ 0x13 < e.1 + e.2.length) := by decide

/-- A text with a word, one without, and MID 0 and 1. -/
theorem witness_EditsWriteOneCellOrField :
    (base 0x097).mid = false ∧ ({ base 0x097 with mid := true } : State).mid = true ∧
      assemble (.tokens ["LDA", "05"]) = some 0x205 ∧ assemble (.tokens ["LDA"]) = none := by decide

end Sys2Proof.Tests
end

section
/-!
PROOFS. The words of format M: the fields of an encoded word, and what the decoder reads from it (rules R102, R103,
R107).
-/

namespace Sys2Proof

variable (opc : BitVec 3) (ind : Bool) (adr : Addr)

@[simp] theorem adrField_encodeM : adrField (encodeM opc ind adr) = adr := BitVec.extractLsb'_append_eq_right

@[simp] theorem topNibble_encodeM : topNibble (encodeM opc ind adr) = BitVec.ofBool ind ++ opc :=
  BitVec.extractLsb'_append_eq_left

@[simp] theorem opcField_encodeM : opcField (encodeM opc ind adr) = opc :=
  (BitVec.extractLsb'_append_eq_of_le (by decide)).trans BitVec.extractLsb'_append_eq_right

@[simp] theorem indField_encodeM : indField (encodeM opc ind adr) = ind :=
  calc indField (encodeM opc ind adr)
    _ = (BitVec.ofBool ind ++ opc).getLsbD 3 := BitVec.getLsbD_append
    _ = (BitVec.ofBool ind).getLsbD 0 := BitVec.getLsbD_append
    _ = ind := by simp

/-- OPC 0 belongs to formats R and P; a word with any other OPC is of format M, direct or indirect. -/
theorem formatOf_encodeM (h : opc ≠ 0) : formatOf (encodeM opc ind adr) = .m := by
  have hR : BitVec.ofBool ind ++ opc ≠ 0x0#4 := by revert opc ind; decide
  have hP : BitVec.ofBool ind ++ opc ≠ 0x8#4 := by revert opc ind; decide
  simp [formatOf, hR, hP]

theorem decode_encodeM (h : opc ≠ 0) : decode (encodeM opc ind adr) = .ok (decodeM opc ind adr) := by
  simp [decode, formatOf_encodeM opc ind adr h]

end Sys2Proof
end

section
/-!
PROOFS. CAL (`41_alu.md`, rule R154): the operation the mode bits select, the two sub-steps of the handler, the frame
of a format M instruction, and the statement O16.
-/

namespace Sys2Proof.Machine

section AluOperations
variable (ac dr : Word)

@[simp] theorem alu_add : alu false false ac dr = ac + dr := addN_eq ac dr
@[simp] theorem alu_sub : alu true false ac dr = ac - dr := subN_eq ac dr
@[simp] theorem alu_and : alu false true ac dr = ac &&& dr := rfl
@[simp] theorem alu_or : alu true true ac dr = ac ||| dr := rfl

end AluOperations

/-- The frame of a format M instruction whose handler writes `K`: what the operand writes, `K`, and what the end of
the instruction writes (rules R134, R135, R139). -/
theorem finishM_changesOnly {K : List Element} {ind : Bool} {adr : Addr} {m u : State}
    (h : (operandM ind adr m).changesOnly K u) :
    m.changesOnly ([.ar, .i] ++ K ++ [.sc, .tm, .c]) (endOfInstruction u) := by
  have hoperand : m.changesOnly ([.ar, .i] ++ K) (operandM ind adr m) :=
    changesOnly_mono (operandM_spec ind adr m).2.2 fun _ hn => List.mem_append_left _ hn
  have hhandler : m.changesOnly ([.ar, .i] ++ K) u :=
    changesOnly_trans hoperand h fun _ hn => List.mem_append_right _ hn
  exact finish_changesOnly hhandler (fun _ hn => List.mem_append_left _ hn) fun _ hn => List.mem_append_right _ hn

/-- X1 of CAL: DR takes the word that AR addresses. -/
def calLoad (m : State) : State := substep (fun m => { m with dr := m.read m.ar }) m

/-- X2 of CAL: AC takes the result of the selected operation. -/
def calCompute (m : State) : State := substep (fun m => { m with ac := alu m.a0 m.a1 m.ac m.dr }) m

/-- The handler of CAL on its operand. -/
def calHandler (ind : Bool) (adr : Addr) (m : State) : State := calCompute (calLoad (operandM ind adr m))

/-- The one outcome of CAL: the handler, then the end of the instruction. -/
theorem exec_cal (ind : Bool) (adr : Addr) (m : State) :
    exec (.cal ind adr) m = .next (endOfInstruction (calHandler ind adr m)) := rfl

theorem calLoad_changesOnly (m : State) : m.changesOnly [.dr] (calLoad m) := by
  refine substep_changesOnly ⟨fun n hn => ?_, fun _ => rfl, fun _ => rfl, rfl, rfl⟩
  cases n with
  | dr => simp at hn
  | _ => rfl

theorem calCompute_changesOnly (m : State) : m.changesOnly [.ac] (calCompute m) := by
  refine substep_changesOnly ⟨fun n hn => ?_, fun _ => rfl, fun _ => rfl, rfl, rfl⟩
  cases n with
  | ac => simp at hn
  | _ => rfl

section CalHandler
variable (ind : Bool) (adr : Addr) (m : State)

@[simp] theorem calHandler_ar : (calHandler ind adr m).ar = effectiveOperand ind adr m :=
  operandM_ar ind adr m
@[simp] theorem calHandler_i : (calHandler ind adr m).i = ind := operandM_i ind adr m
@[simp] theorem calHandler_tm : (calHandler ind adr m).tm = m.tm := operandM_tm ind adr m
@[simp] theorem calHandler_c : (calHandler ind adr m).c = m.c := operandM_c ind adr m

@[simp] theorem calHandler_dr : (calHandler ind adr m).dr = m.read (effectiveOperand ind adr m) := by
  simp [calHandler, calCompute, calLoad]

@[simp] theorem calHandler_ac :
    (calHandler ind adr m).ac = alu m.a0 m.a1 m.ac (m.read (effectiveOperand ind adr m)) := by
  simp [calHandler, calCompute, calLoad]

theorem calHandler_changesOnly : (operandM ind adr m).changesOnly [.dr, .ac] (calHandler ind adr m) :=
  changesOnly_trans (changesOnly_mono (calLoad_changesOnly _) (by simp)) (calCompute_changesOnly _) (by simp)

end CalHandler

/-- Settles O16: the word is one of format M with OPC 1; what is written is read off the handler and the end of the
instruction, with one case per setting of the mode bits; the frame is that of a format M instruction. -/
theorem calComputesIntoTheAccumulator : Obligations.CalComputesIntoTheAccumulator := by
  unfold Obligations.CalComputesIntoTheAccumulator
  intro ind adr
  refine ⟨?word, fun m => ⟨_, exec_cal ind adr m, ?ar, ?i, ?dr, ?ac, ?ends, ?frame⟩⟩
  case word =>
    have hword : (if ind then 0x9#4 else 0x1#4) ++ adr = encodeM 1 ind adr := by cases ind <;> rfl
    rw [hword, decode_encodeM 1 ind adr (by decide)]
    rfl
  case ar => simp
  case i => simp
  case dr => simp
  case ac => cases h0 : m.a0 <;> cases h1 : m.a1 <;> simp [h0, h1]
  case ends => simpa using (endOfInstruction_spec (calHandler ind adr m)).1
  case frame => exact finishM_changesOnly (calHandler_changesOnly ind adr m)

end Sys2Proof.Machine
end

section
/-!
PROOFS. The memory-reference instructions (`42_memory_reference.md`, rules R161, R163, R164): the words of format M,
the frame of a handler that stores into one cell, the handlers of LDA, BR and ISA, and the statements O18, O20, O21.
-/

namespace Sys2Proof

/-- A format M word by its hexadecimal digits: the first is OPC, with bit 3 set where the operand is indirect (rule
R103). -/
theorem decode_formatM (opc : BitVec 3) (ind : Bool) (adr : Addr) (h : opc ≠ 0) :
    decode ((if ind then 1#1 ++ opc else 0#1 ++ opc) ++ adr) = .ok (decodeM opc ind adr) := by
  have hword : (if ind then 1#1 ++ opc else 0#1 ++ opc) ++ adr = encodeM opc ind adr := by cases ind <;> rfl
  rw [hword, decode_encodeM opc ind adr h]

end Sys2Proof

namespace Sys2Proof.Machine

/-! A handler that stores into one cell leaves what differs from the written memory in the named elements only: its
frame is `changesOnly` from the state with the cell written. -/

/-- A sub-step differs from what its function gives in the pacer's part only (rule R210). -/
theorem substep_changesOnly_nil (f : State → State) (m : State) : (f m).changesOnly [] (substep f m) :=
  ⟨fun n _ => substep_value f m n, fun _ => rfl, fun _ => rfl, rfl, rfl⟩

/-- The same write on both sides keeps the frame. -/
theorem changesOnly_write {L : List Element} {m t : State} (h : m.changesOnly L t) (a : Addr) (w : Word) :
    (m.write a w).changesOnly L (t.write a w) := by
  obtain ⟨helements, hmemory, hslots, hcontrol⟩ := h
  refine ⟨fun n hn => ?_, fun b => ?_, fun k => ?_, hcontrol⟩
  · simpa using helements n hn
  · simp [read_write, hmemory b]
  · simpa using hslots k

/-- What the frame from a written state says of the state before the write (rule R75). -/
theorem changesOnly_of_write {L : List Element} {m t : State} {a : Addr} {w : Word}
    (h : (m.write a w).changesOnly L t) :
    t.read a = w ∧ m.sameMemoryBut a t ∧ m.sameExcept L t ∧ m.sameSlots t ∧ m.sameControl t := by
  obtain ⟨helements, hmemory, hslots, hcontrol⟩ := h
  refine ⟨?_, fun b hb => ?_, fun n hn => ?_, fun k => ?_, hcontrol⟩
  · simpa [read_write] using hmemory a
  · simpa [read_write, Ne.symm hb] using hmemory b
  · simpa using helements n hn
  · simpa using hslots k

/-- The frame of a format M instruction whose handler writes `K` and one cell (rules R134, R135, R139). -/
theorem finishM_write_changesOnly {K : List Element} {ind : Bool} {adr a : Addr} {w : Word} {m u : State}
    (h : ((operandM ind adr m).write a w).changesOnly K u) :
    (m.write a w).changesOnly ([.ar, .i] ++ K ++ [.sc, .tm, .c]) (endOfInstruction u) := by
  have hoperand : (m.write a w).changesOnly ([.ar, .i] ++ K) ((operandM ind adr m).write a w) :=
    changesOnly_mono (changesOnly_write (operandM_spec ind adr m).2.2 a w) fun _ hn => List.mem_append_left _ hn
  have hhandler : (m.write a w).changesOnly ([.ar, .i] ++ K) u :=
    changesOnly_trans hoperand h fun _ hn => List.mem_append_right _ hn
  exact finish_changesOnly hhandler (fun _ hn => List.mem_append_left _ hn) fun _ hn => List.mem_append_right _ hn

/-! LDA. -/

/-- X1 of LDA: AC takes the word that AR addresses. -/
def ldaLoad (m : State) : State := substep (fun m => { m with ac := m.read m.ar }) m

/-- The one outcome of LDA: the handler, then the end of the instruction. -/
theorem exec_lda (ind : Bool) (adr : Addr) (m : State) :
    exec (.lda ind adr) m = .next (endOfInstruction (ldaLoad (operandM ind adr m))) := rfl

section LdaLoad
variable (m : State)

@[simp] theorem ldaLoad_ar : (ldaLoad m).ar = m.ar := rfl
@[simp] theorem ldaLoad_i : (ldaLoad m).i = m.i := rfl
@[simp] theorem ldaLoad_tm : (ldaLoad m).tm = m.tm := rfl
@[simp] theorem ldaLoad_c : (ldaLoad m).c = m.c := rfl
@[simp] theorem ldaLoad_ac : (ldaLoad m).ac = m.read m.ar := rfl

theorem ldaLoad_changesOnly : m.changesOnly [.ac] (ldaLoad m) := by
  refine substep_changesOnly ⟨fun n hn => ?_, fun _ => rfl, fun _ => rfl, rfl, rfl⟩
  cases n with
  | ac => simp at hn
  | _ => rfl

end LdaLoad

/-- Settles O18: the word is one of format M with OPC 2; what is written is read off the handler and the end of the
instruction; the frame is that of a format M instruction whose handler writes AC. -/
theorem ldaLoadsTheAccumulator : Obligations.LdaLoadsTheAccumulator := by
  unfold Obligations.LdaLoadsTheAccumulator
  intro ind adr
  refine ⟨decode_formatM 2 ind adr (by decide), fun m => ⟨_, exec_lda ind adr m, ?ar, ?i, ?ac, ?ends, ?frame⟩⟩
  case ar => simp
  case i => simp
  case ac => simp
  case ends => simpa using (endOfInstruction_spec (ldaLoad (operandM ind adr m))).1
  case frame => exact finishM_changesOnly (ldaLoad_changesOnly _)

/-! BR. -/

/-- X1 of BR: PC takes the operand. -/
def brJump (m : State) : State := substep (fun m => { m with pc := m.ar }) m

/-- The one outcome of BR: the handler, then the end of the instruction. -/
theorem exec_br (ind : Bool) (adr : Addr) (m : State) :
    exec (.br ind adr) m = .next (endOfInstruction (brJump (operandM ind adr m))) := rfl

section BrJump
variable (m : State)

@[simp] theorem brJump_ar : (brJump m).ar = m.ar := rfl
@[simp] theorem brJump_i : (brJump m).i = m.i := rfl
@[simp] theorem brJump_tm : (brJump m).tm = m.tm := rfl
@[simp] theorem brJump_c : (brJump m).c = m.c := rfl
@[simp] theorem brJump_pc : (brJump m).pc = m.ar := rfl

theorem brJump_changesOnly : m.changesOnly [.pc] (brJump m) := by
  refine substep_changesOnly ⟨fun n hn => ?_, fun _ => rfl, fun _ => rfl, rfl, rfl⟩
  cases n with
  | pc => simp at hn
  | _ => rfl

end BrJump

/-- Settles O20: the word is one of format M with OPC 4; what is written is read off the handler and the end of the
instruction; the frame is that of a format M instruction whose handler writes PC. -/
theorem brBranches : Obligations.BrBranches := by
  unfold Obligations.BrBranches
  intro ind adr
  refine ⟨decode_formatM 4 ind adr (by decide), fun m => ⟨_, exec_br ind adr m, ?ar, ?i, ?pc, ?ends, ?frame⟩⟩
  case ar => simp
  case i => simp
  case pc => simp
  case ends => simpa using (endOfInstruction_spec (brJump (operandM ind adr m))).1
  case frame => exact finishM_changesOnly (brJump_changesOnly _)

/-! ISA. -/

/-- X1 of ISA: DR takes the word that AR addresses, plus 1. -/
def isaIncrement (m : State) : State := substep (fun m => { m with dr := inc (m.read m.ar) }) m

/-- X2 of ISA: DR goes to the cell that AR addresses. -/
def isaStore (m : State) : State := substep (fun m => m.write m.ar m.dr) m

/-- X3 of ISA: the skip where DR equals AC. -/
def isaSkip (m : State) : State := skipIf (fun m => decide (m.dr = m.ac)) m

/-- The handler of ISA, on the operand in AR. -/
def isaHandler (m : State) : State := isaSkip (isaStore (isaIncrement m))

/-- The one outcome of ISA: the handler, then the end of the instruction. -/
theorem exec_isa (ind : Bool) (adr : Addr) (m : State) :
    exec (.isa ind adr) m = .next (endOfInstruction (isaHandler (operandM ind adr m))) := rfl

section IsaHandler
variable (m : State)

@[simp] theorem isaIncrement_ar : (isaIncrement m).ar = m.ar := rfl
@[simp] theorem isaIncrement_dr : (isaIncrement m).dr = m.read m.ar + 1 := inc_eq _

@[simp] theorem isaHandler_ar : (isaHandler m).ar = m.ar := rfl
@[simp] theorem isaHandler_i : (isaHandler m).i = m.i := rfl
@[simp] theorem isaHandler_tm : (isaHandler m).tm = m.tm := rfl
@[simp] theorem isaHandler_c : (isaHandler m).c = m.c := rfl
@[simp] theorem isaHandler_dr : (isaHandler m).dr = m.read m.ar + 1 := isaIncrement_dr m

theorem isaSkip_pc : (isaSkip m).pc = if m.dr = m.ac then m.pc + 1 else m.pc := by
  by_cases h : m.dr = m.ac <;> simp [isaSkip, h]

/-- The skip compares the incremented word with AC (rule R164). -/
@[simp] theorem isaHandler_pc : (isaHandler m).pc = if m.read m.ar + 1 = m.ac then m.pc + 1 else m.pc := by
  rw [← isaIncrement_dr]
  exact isaSkip_pc (isaStore (isaIncrement m))

theorem isaIncrement_changesOnly : m.changesOnly [.dr] (isaIncrement m) := by
  refine substep_changesOnly ⟨fun n hn => ?_, fun _ => rfl, fun _ => rfl, rfl, rfl⟩
  cases n with
  | dr => simp at hn
  | _ => rfl

/-- Beside the cell that takes the incremented word, the handler writes DR and PC only. -/
theorem isaHandler_changesOnly :
    (m.write m.ar (m.read m.ar + 1)).changesOnly [.dr, .pc] (isaHandler m) := by
  have hincrement : (m.write m.ar (m.read m.ar + 1)).changesOnly [.dr, .pc]
      ((isaIncrement m).write m.ar (m.read m.ar + 1)) :=
    changesOnly_write (changesOnly_mono (isaIncrement_changesOnly m) (by simp)) _ _
  have hstore : ((isaIncrement m).write m.ar (m.read m.ar + 1)).changesOnly [] (isaStore (isaIncrement m)) := by
    simpa [isaStore] using substep_changesOnly_nil (fun m => m.write m.ar m.dr) (isaIncrement m)
  have hskip : (isaStore (isaIncrement m)).changesOnly [.pc] (isaHandler m) := (skipIf_spec _ _).2
  exact changesOnly_trans (changesOnly_trans hincrement hstore (by simp)) hskip (by simp)

end IsaHandler

/-- The frame of ISA, from the state with the incremented word in the cell at the effective operand. -/
theorem exec_isa_changesOnly (ind : Bool) (adr : Addr) (m : State) :
    (m.write (effectiveOperand ind adr m) (m.read (effectiveOperand ind adr m) + 1)).changesOnly
      [.ar, .i, .dr, .pc, .sc, .tm, .c] (endOfInstruction (isaHandler (operandM ind adr m))) := by
  have hhandler := isaHandler_changesOnly (operandM ind adr m)
  rw [operandM_ar, operandM_read] at hhandler
  exact finishM_write_changesOnly hhandler

/-- Settles O21: the word is one of format M with OPC 5; the registers are read off the handler and the end of the
instruction; the memory and the rest come from the frame of a handler that stores into one cell. -/
theorem isaIncrementsAndSkipsOnMatch : Obligations.IsaIncrementsAndSkipsOnMatch := by
  unfold Obligations.IsaIncrementsAndSkipsOnMatch
  intro ind adr
  refine ⟨decode_formatM 5 ind adr (by decide), fun m => ?_⟩
  obtain ⟨hcell, hmemory, helements, hslots, hcontrol⟩ := changesOnly_of_write (exec_isa_changesOnly ind adr m)
  have hdr : (endOfInstruction (isaHandler (operandM ind adr m))).dr = m.read (effectiveOperand ind adr m) + 1 := by
    simp
  refine ⟨_, exec_isa ind adr m, ?ar, ?i, hdr, hcell.trans hdr.symm, hmemory, ?pc, ?ends, helements, hslots,
    hcontrol⟩
  case ar => simp
  case i => simp
  case pc => simp
  case ends => simpa using (endOfInstruction_spec (isaHandler (operandM ind adr m))).1

end Sys2Proof.Machine
end

section
/-!
PROOFS. The skips of the register-reference instructions (`43_register_reference.md`, rules R171, R172): what the
operand of format R leaves for the condition to read, the effect of any format R instruction that is one skip, and the
statement O22.
-/

namespace Sys2Proof.Machine

section OperandR
variable (m : State)

@[simp] theorem operandR_pc : (operandR m).pc = m.pc := rfl
@[simp] theorem operandR_ac : (operandR m).ac = m.ac := rfl
@[simp] theorem operandR_e : (operandR m).e = m.e := rfl
@[simp] theorem operandR_tm : (operandR m).tm = m.tm := rfl
@[simp] theorem operandR_c : (operandR m).c = m.c := rfl
@[simp] theorem operandR_i : (operandR m).i = false := (operandR_spec m).1

end OperandR

/-- The one outcome of SZA: the operand of format R, the skip on AC, the end of the instruction. -/
theorem exec_sza (m : State) :
    exec .sza m = .next (endOfInstruction (skipIf (fun m => decide (m.ac = 0)) (operandR m))) := rfl

/-- The one outcome of SZE: the operand of format R, the skip on E, the end of the instruction. -/
theorem exec_sze (m : State) : exec .sze m = .next (endOfInstruction (skipIf (fun m => !m.e) (operandR m))) := rfl

/-- A format R instruction whose handler is one skip writes PC only: 1 more where its condition, read after the
operand, says `p` of the state before the instruction (rules R140, R170). -/
theorem writesOnly_of_skipR {i : Instr} {w : Word} {cond : State → Bool} {p : State → Prop} [DecidablePred p]
    (hword : decode w = .ok i) (hexec : ∀ m, exec i m = .next (endOfInstruction (skipIf cond (operandR m))))
    (hcond : ∀ m, cond (operandR m) = true ↔ p m) :
    writesOnly i w [.pc] (fun m t => t.pc = if p m then m.pc + 1 else m.pc) := by
  refine ⟨hword, fun m => ⟨_, hexec m, ?pc, ?i, ?ends, ?frame⟩⟩
  case pc => simp [hcond m]
  case i => simp
  case ends => simpa using (endOfInstruction_spec (skipIf cond (operandR m))).1
  case frame => exact skipR_changesOnly cond m

/-- Settles O22: both instructions are one skip, SZA on all 12 bits of AC and SZE on E. -/
theorem szaSzeSkipOnZero : Obligations.SzaSzeSkipOnZero := by
  unfold Obligations.SzaSzeSkipOnZero
  constructor
  · exact writesOnly_of_skipR (by decide) exec_sza fun _ => decide_eq_true_iff
  · exact writesOnly_of_skipR (by decide) exec_sze fun _ => by simp

end Sys2Proof.Machine
end

section
/-!
PROOFS. The skips of the input and output instructions (`45_io.md`, rules R203, R204): the two flags under the operand
of format R, and the statement O27.
-/

namespace Sys2Proof.Machine

section OperandRFlags
variable (m : State)

@[simp] theorem operandR_fgi : (operandR m).fgi = m.fgi := rfl
@[simp] theorem operandR_fgo : (operandR m).fgo = m.fgo := rfl

end OperandRFlags

/-- The one outcome of SKI: the operand of format R, the skip on FGI, the end of the instruction. -/
theorem exec_ski (m : State) : exec .ski m = .next (endOfInstruction (skipIf (fun m => m.fgi) (operandR m))) := rfl

/-- The one outcome of SKO: the operand of format R, the skip on FGO, the end of the instruction. -/
theorem exec_sko (m : State) : exec .sko m = .next (endOfInstruction (skipIf (fun m => m.fgo) (operandR m))) := rfl

/-- Settles O27: both instructions are one skip, SKI on FGI and SKO on FGO; a skip writes PC only, so the flag it
tests is kept. -/
theorem skiSkoSkipOnFlag : Obligations.SkiSkoSkipOnFlag := by
  unfold Obligations.SkiSkoSkipOnFlag
  constructor
  · exact writesOnly_of_skipR (by decide) exec_ski fun m => by rw [operandR_fgi]
  · exact writesOnly_of_skipR (by decide) exec_sko fun m => by rw [operandR_fgo]

end Sys2Proof.Machine
end

section
/-!
PROOFS. The arbiter (`60_exceptions.md`, rule R240): its two requests as conditions on the state, the branch each gives,
the step of an idle engine with GS 1 as one decision, and the statement O9.
-/

namespace Sys2Proof.Machine

section Arbiter
variable {m : State}

theorem switchRequested_iff : m.switchRequested = true ↔ m.wantsSwitch := by simp [State.switchRequested]

theorem interruptRequested_iff : m.interruptRequested = true ↔ m.wantsInterrupt := by
  simp [State.interruptRequested]

/-- The start of a decision writes nothing the arbiter reads. -/
@[simp] theorem arbiter_beginDecision : arbiter (beginDecision m) = arbiter m := rfl

theorem arbiter_of_wantsSwitch (hs : m.wantsSwitch) : arbiter m = .contextSwitch :=
  if_pos (switchRequested_iff.mpr hs)

theorem arbiter_of_wantsInterrupt (hs : ¬ m.wantsSwitch) (hi : m.wantsInterrupt) : arbiter m = .ioInterrupt :=
  (if_neg (mt switchRequested_iff.mp hs)).trans (if_pos (interruptRequested_iff.mpr hi))

theorem arbiter_of_noRequest (hs : ¬ m.wantsSwitch) (hi : ¬ m.wantsInterrupt) : arbiter m = .execute :=
  (if_neg (mt switchRequested_iff.mp hs)).trans (if_neg (mt interruptRequested_iff.mp hi))

theorem gate_of_live (h : m.live) : gate m = .decide := by
  obtain ⟨hmid, hgs⟩ := h
  simp [gate, hmid, hgs]

/-- With MID 0 and GS 1 a step request is one arbiter decision (rule R214). -/
theorem step_of_live (h : m.live) : step m = decision (beginDecision m) := by rw [step, gate_of_live h]

end Arbiter

/-- Settles O9: the step is one decision, and the decision takes the branch of the arbiter, which the start of the
decision does not change. -/
theorem arbiterTakesOneBranch : Obligations.ArbiterTakesOneBranch := by
  unfold Obligations.ArbiterTakesOneBranch
  intro m hlive
  rw [step_of_live hlive, decision, arbiter_beginDecision]
  refine ⟨fun hs => ?contextSwitch, fun hs hi => ?ioInterrupt, fun hs hi => ?execute⟩
  case contextSwitch => rw [arbiter_of_wantsSwitch hs]
  case ioInterrupt => rw [arbiter_of_wantsInterrupt hs hi]
  case execute => rw [arbiter_of_noRequest hs hi]

end Sys2Proof.Machine
end

section
/-!
PROOFS. The encoding (`30_encoding.md`): the words of formats P and R, what the decoder reads of each format, the
round trips, the illegal words, and the statements O1, O2 and O4.
-/

namespace Sys2Proof

section FormatsPAndR
variable (adr fn : Addr)

@[simp] theorem adrField_encodeP : adrField (encodeP adr) = adr := BitVec.extractLsb'_append_eq_right

@[simp] theorem adrField_encodeR : adrField (encodeR fn) = fn := BitVec.extractLsb'_append_eq_right

@[simp] theorem formatOf_encodeP : formatOf (encodeP adr) = .p := by
  have htop : topNibble (encodeP adr) = 0x8 := BitVec.extractLsb'_append_eq_left
  simp [formatOf, htop]

@[simp] theorem formatOf_encodeR : formatOf (encodeR fn) = .r := by
  have htop : topNibble (encodeR fn) = 0x0 := BitVec.extractLsb'_append_eq_left
  simp [formatOf, htop]

/-- A word of format R is its function code. -/
theorem encodeR_toNat : (encodeR fn).toNat = fn.toNat := (BitVec.toNat_append 0#4 fn).trans (by simp)

theorem decode_encodeP : decode (encodeP adr) = .ok (.ldp adr) := by simp [decode]

theorem decode_encodeR : decode (encodeR fn) = decodeR fn := by simp [decode]

end FormatsPAndR

/-- Settles O1: one case per constructor, by the format of its word. -/
theorem decodeAfterEncode : Obligations.DecodeAfterEncode := by
  unfold Obligations.DecodeAfterEncode
  intro i
  cases i with
  | cal ind adr => exact decode_encodeM 1 ind adr (by decide)
  | lda ind adr => exact decode_encodeM 2 ind adr (by decide)
  | sta ind adr => exact decode_encodeM 3 ind adr (by decide)
  | br ind adr => exact decode_encodeM 4 ind adr (by decide)
  | isa ind adr => exact decode_encodeM 5 ind adr (by decide)
  | swt ind adr => exact decode_encodeM 6 ind adr (by decide)
  | awt ind adr => exact decode_encodeM 7 ind adr (by decide)
  | ldp adr => exact decode_encodeP adr
  | _ => exact decode_encodeR _

/-! A word is put together again from its fields. -/

section Fields
variable (w : Word)

/-- A word is its top nibble and its low byte. -/
theorem topNibble_append_adrField : topNibble w ++ adrField w = w := BitVec.extractLsb'_append_extractLsb'

/-- The top nibble is the indirect flag and OPC (rule R103). -/
theorem indField_append_opcField : BitVec.ofBool (indField w) ++ opcField w = topNibble w := by
  have hind : BitVec.ofBool (indField w) = w.extractLsb' 11 1 := by
    ext j hj
    obtain rfl : j = 0 := by omega
    simp [indField]
  rw [hind]
  exact BitVec.extractLsb'_append_extractLsb'_eq_extractLsb' rfl

theorem encodeR_adrField (h : topNibble w = 0) : encodeR (adrField w) = w :=
  (congrArg (· ++ adrField w) h.symm).trans (topNibble_append_adrField w)

theorem encodeP_adrField (h : topNibble w = 8) : encodeP (adrField w) = w :=
  (congrArg (· ++ adrField w) h.symm).trans (topNibble_append_adrField w)

theorem encodeM_fields : encodeM (opcField w) (indField w) (adrField w) = w := by
  rw [encodeM, indField_append_opcField, topNibble_append_adrField]

theorem adrField_toNat : (adrField w).toNat = w.toNat % 256 := by simp [adrField]

/-- The three formats by the top nibble (rule R102). -/
theorem formatOf_eq_r_iff : formatOf w = .r ↔ topNibble w = 0 := by
  unfold formatOf
  split
  · simp_all
  · split <;> simp_all

theorem formatOf_eq_p_iff : formatOf w = .p ↔ topNibble w = 8 := by
  unfold formatOf
  split
  · simp_all
  · split <;> simp_all

/-- OPC 0 is no operation of format M. -/
theorem opcField_ne_zero (h : formatOf w = .m) : opcField w ≠ 0 := by
  intro hopc
  have htop := indField_append_opcField w
  rw [hopc] at htop
  cases hind : indField w with
  | false =>
    have hr := (formatOf_eq_r_iff w).mpr (by rw [← htop, hind]; rfl)
    simp [h] at hr
  | true =>
    have hp := (formatOf_eq_p_iff w).mpr (by rw [← htop, hind]; rfl)
    simp [h] at hp

end Fields

/-! Each format's decoder drops no bit of a legal word. -/

theorem encode_decodeM {opc : BitVec 3} (ind : Bool) (adr : Addr) (h : opc ≠ 0) :
    encode (decodeM opc ind adr) = encodeM opc ind adr := by
  have hcode : ∀ c : BitVec 3, c ≠ 0 → c = 1 ∨ c = 2 ∨ c = 3 ∨ c = 4 ∨ c = 5 ∨ c = 6 ∨ c = 7 := by decide
  rcases hcode opc h with rfl | rfl | rfl | rfl | rfl | rfl | rfl <;> rfl

theorem encode_decodeR {fn : Addr} {i : Instr} (h : decodeR fn = .ok i) : encode i = encodeR fn := by
  unfold decodeR at h
  split at h <;> cases h <;> rename_i hcode <;>
    exact BitVec.eq_of_toNat_eq ((encodeR_toNat fn).trans hcode).symm

/-- Settles O2: one case per format. -/
theorem encodeAfterDecode : Obligations.EncodeAfterDecode := by
  unfold Obligations.EncodeAfterDecode
  intro w i h
  unfold decode at h
  split at h
  case h_1 hformat =>
    rw [encode_decodeR h, encodeR_adrField w ((formatOf_eq_r_iff w).mp hformat)]
  case h_2 hformat =>
    cases h
    exact encodeP_adrField w ((formatOf_eq_p_iff w).mp hformat)
  case h_3 hformat =>
    cases h
    rw [encode_decodeM _ _ (opcField_ne_zero w hformat), encodeM_fields]

/-! The illegal words (rule R110). -/

/-- The function codes that decode to nothing are those between the groups of rule R108. -/
theorem decodeR_error_iff (fn : Addr) : (∃ e, decodeR fn = .error e) ↔ Machine.illegalCode fn.toNat := by
  have hfn := fn.isLt
  unfold decodeR
  split
  case h_26 =>
    simp only [imp_false, Except.error.injEq, exists_eq', true_iff, Machine.illegalCode] at *
    omega
  all_goals
    simp only [reduceCtorEq, exists_false, false_iff, Machine.illegalCode]
    omega

theorem decode_error_iff (w : Word) :
    (∃ e, decode w = .error e) ↔ topNibble w = 0 ∧ Machine.illegalCode (w.toNat % 256) := by
  rw [← adrField_toNat, ← decodeR_error_iff, ← formatOf_eq_r_iff]
  unfold decode
  split <;> simp_all

/-- Settles O4: seven closed words. -/
theorem sampleWordsDecode : Obligations.SampleWordsDecode := by
  unfold Obligations.SampleWordsDecode
  decide

end Sys2Proof
end

section
/-!
PROOFS. The assembler (`30_encoding.md`, rules R115 to R118): what the tokens of a canonical text denote, the words of
written forms, and the statements O5 and O6.
-/

namespace Sys2Proof.Machine

/-! Tokens. -/

@[simp] theorem mnemonicOf?_text (mn : Mnemonic) : mnemonicOf? mn.text = some mn := by
  cases mn <;> decide

theorem mnemonicOf?_eq_none {t : String} (h : ∀ mn : Mnemonic, mn.text ≠ t) : mnemonicOf? t = none := by
  simp [mnemonicOf?, h]

theorem hexDigit?_hexChar {d : Nat} (h : d < 16) : hexDigit? (hexChar d) = some d := by
  revert d
  decide

/-- The two digits of an operand denote it (rule R20). -/
@[simp] theorem numeral?_hex2 (a : Addr) : numeral? (hex2 a) = some a.toNat := by
  have ha := a.isLt
  simp only [numeral?, hex2, String.toList_ofList, List.isEmpty_cons, hexValue?,
    hexDigit?_hexChar (show a.toNat / 16 < 16 by omega), hexDigit?_hexChar (show a.toNat % 16 < 16 by omega)]
  simp
  omega

/-- The three digits of a word denote it. -/
@[simp] theorem numeral?_hex3 (w : Word) : numeral? (hex3 w) = some w.toNat := by
  have hw := w.isLt
  simp only [numeral?, hex3, String.toList_ofList, List.isEmpty_cons, hexValue?,
    hexDigit?_hexChar (show w.toNat / 256 < 16 by omega), hexDigit?_hexChar (show w.toNat / 16 % 16 < 16 by omega),
    hexDigit?_hexChar (show w.toNat % 16 < 16 by omega)]
  simp
  omega

/-- No mnemonic begins with a digit. -/
theorem text_head_ne_zero (mn : Mnemonic) : mn.text.toList.head? ≠ some '0' := by cases mn <;> decide

/-- The numeral of a word with top nibble 0 is no mnemonic, as that of `0xADD` is. -/
theorem mnemonicOf?_hex3 {w : Word} (h : topNibble w = 0) : mnemonicOf? (hex3 w) = none := by
  have htop : w.toNat / 256 = 0 := by
    have hnat := congrArg BitVec.toNat h
    have hw := w.isLt
    simp only [topNibble, BitVec.extractLsb'_toNat, Nat.shiftRight_eq_div_pow] at hnat
    simp at hnat
    omega
  refine mnemonicOf?_eq_none fun mn hmn => text_head_ne_zero mn ?_
  rw [hmn, hex3, htop, String.toList_ofList]
  rfl

/-! Written forms. -/

@[simp] theorem assembleOperand?_text (mn : Mnemonic) (a : String) (marker : Bool) :
    assembleOperand? mn.text a marker =
      (numeral? a).bind fun n =>
        (SourceForm.instr? { mnemonic := mn, operand := some n, marker := marker }).map encode := by
  cases h : numeral? a <;> simp [assembleOperand?, h]

theorem instr?_of_not_wellFormed {f : SourceForm} (h : f.wellFormed = false) : SourceForm.instr? f = none := by
  simp [SourceForm.instr?, h]

/-- The written form of an instruction denotes it (rule R116). -/
theorem instr?_source (i : Instr) : SourceForm.instr? i.source = some i := by
  cases i <;> simp [SourceForm.instr?, SourceForm.wellFormed, Instr.source, Instr.mnemonic, Instr.operand?,
    Instr.indirect, Mnemonic.format, Mnemonic.instr]

/-- Only an instruction with an operand can be indirect (rule R106). -/
theorem indirect_of_operand?_eq_none {i : Instr} (h : i.operand? = none) : i.indirect = false := by
  cases i <;> simp_all [Instr.operand?, Instr.indirect]

/-- The canonical text of a legal word assembles to the word of its instruction. -/
theorem assemble_canonicalText_of_ok {w : Word} {i : Instr} (h : decode w = .ok i) :
    assemble (.tokens (canonicalText w)) = some (encode i) := by
  have hsource := instr?_source i
  rw [Instr.source] at hsource
  cases hoperand : i.operand? with
  | none =>
    rw [hoperand, indirect_of_operand?_eq_none hoperand, Option.map_none] at hsource
    simp [canonicalText, h, hoperand, assemble, hsource]
  | some a =>
    cases hind : i.indirect <;> rw [hoperand, hind, Option.map_some] at hsource <;>
      simp [canonicalText, h, hoperand, hind, assemble, hsource]

/-- The canonical text of an illegal word is its numeral. -/
theorem assemble_canonicalText_of_error {w : Word} {e : Illegal} (h : decode w = .error e) :
    assemble (.tokens (canonicalText w)) = some w := by
  have htop : topNibble w = 0 := ((decode_error_iff w).mp ⟨e, h⟩).1
  simp [canonicalText, h, assemble, mnemonicOf?_hex3 htop]

/-- Settles O5: a legal word by its instruction, an illegal one by its numeral. -/
theorem canonicalTextAssembles : Obligations.CanonicalTextAssembles := by
  unfold Obligations.CanonicalTextAssembles
  intro w
  cases h : decode w with
  | ok i => rw [assemble_canonicalText_of_ok h, encodeAfterDecode w i h]
  | error e => exact assemble_canonicalText_of_error h

/-- Settles O6: in each case the form is not well-formed, whatever number the second token denotes. -/
theorem textFormsWithoutWordAreRefused : Obligations.TextFormsWithoutWordAreRefused := by
  unfold Obligations.TextFormsWithoutWordAreRefused
  intro mn
  refine ⟨fun hr a x => ⟨?_, ?_⟩, fun hm => ?_, fun hp => ⟨?_, fun a x => ?_⟩⟩ <;>
    simp [assemble, instr?_of_not_wellFormed, SourceForm.wellFormed, *]

end Sys2Proof.Machine
end

section
/-!
PROOFS. The instructions of format R with one handler sub-step (`41_alu.md` section 3, `43_register_reference.md`,
`45_io.md`, `44_process_control.md` section 1): an element outside the list a frame names is kept, the effect of any
such instruction, the ring of E and AC, and the statements O17, O23, O24, O25, O26, O28 and O30.
-/

namespace Sys2Proof.Machine

/-! An element outside the list of a frame is kept. -/

theorem bool_toNat_injective : Function.Injective Bool.toNat := Function.LeftInverse.injective Bool.ofNat_toNat

section Kept
variable {L : List Element} {m t : State} (h : m.sameExcept L t)
include h

theorem kept_ar (hn : .ar ∉ L) : t.ar = m.ar := BitVec.eq_of_toNat_eq (h .ar hn)
theorem kept_inpr (hn : .inpr ∉ L) : t.inpr = m.inpr := BitVec.eq_of_toNat_eq (h .inpr hn)
theorem kept_tm (hn : .tm ∉ L) : t.tm = m.tm := BitVec.eq_of_toNat_eq (h .tm hn)
theorem kept_prc (hn : .prc ∉ L) : t.prc = m.prc := BitVec.eq_of_toNat_eq (h .prc hn)
theorem kept_tp (hn : .tp ∉ L) : t.tp = m.tp := BitVec.eq_of_toNat_eq (h .tp hn)
theorem kept_ns (hn : .ns ∉ L) : t.ns = m.ns := BitVec.eq_of_toNat_eq (h .ns hn)
theorem kept_sc (hn : .sc ∉ L) : t.sc = m.sc := BitVec.eq_of_toNat_eq (h .sc hn)
theorem kept_i (hn : .i ∉ L) : t.i = m.i := bool_toNat_injective (h .i hn)
theorem kept_r (hn : .r ∉ L) : t.r = m.r := bool_toNat_injective (h .r hn)
theorem kept_c (hn : .c ∉ L) : t.c = m.c := bool_toNat_injective (h .c hn)
theorem kept_sw (hn : .sw ∉ L) : t.sw = m.sw := bool_toNat_injective (h .sw hn)
theorem kept_ien (hn : .ien ∉ L) : t.ien = m.ien := bool_toNat_injective (h .ien hn)
theorem kept_fgi (hn : .fgi ∉ L) : t.fgi = m.fgi := bool_toNat_injective (h .fgi hn)
theorem kept_fgo (hn : .fgo ∉ L) : t.fgo = m.fgo := bool_toNat_injective (h .fgo hn)
theorem kept_s (hn : .s ∉ L) : t.s = m.s := bool_toNat_injective (h .s hn)
theorem kept_gs (hn : .gs ∉ L) : t.gs = m.gs := bool_toNat_injective (h .gs hn)

end Kept

/-! The updates that one sub-step makes of one or two elements. -/

section Updates
variable (m : State)

theorem changesOnly_setE (b : Bool) : m.changesOnly [.e] { m with e := b } :=
  ⟨fun n hn => by cases n <;> simp at hn <;> rfl, fun _ => rfl, fun _ => rfl, rfl, rfl⟩

theorem changesOnly_setAc (w : Word) : m.changesOnly [.ac] { m with ac := w } :=
  ⟨fun n hn => by cases n <;> simp at hn <;> rfl, fun _ => rfl, fun _ => rfl, rfl, rfl⟩

theorem changesOnly_setRing (w : Word) (b : Bool) : m.changesOnly [.ac, .e] { m with ac := w, e := b } :=
  ⟨fun n hn => by cases n <;> simp at hn <;> rfl, fun _ => rfl, fun _ => rfl, rfl, rfl⟩

theorem changesOnly_setInput (w : Word) (b : Bool) : m.changesOnly [.ac, .fgi] { m with ac := w, fgi := b } :=
  ⟨fun n hn => by cases n <;> simp at hn <;> rfl, fun _ => rfl, fun _ => rfl, rfl, rfl⟩

theorem changesOnly_setOutput (v : Nibble) (b : Bool) : m.changesOnly [.outr, .fgo] { m with outr := v, fgo := b } :=
  ⟨fun n hn => by cases n <;> simp at hn <;> rfl, fun _ => rfl, fun _ => rfl, rfl, rfl⟩

theorem changesOnly_setIen (b : Bool) : m.changesOnly [.ien] { m with ien := b } :=
  ⟨fun n hn => by cases n <;> simp at hn <;> rfl, fun _ => rfl, fun _ => rfl, rfl, rfl⟩

theorem changesOnly_setSw (b : Bool) : m.changesOnly [.sw] { m with sw := b } :=
  ⟨fun n hn => by cases n <;> simp at hn <;> rfl, fun _ => rfl, fun _ => rfl, rfl, rfl⟩

theorem changesOnly_setMode (a0 a1 : Bool) : m.changesOnly [.a0, .a1] (m.setMode a0 a1) :=
  ⟨fun n hn => by cases n <;> simp at hn <;> rfl, fun _ => rfl, fun _ => rfl, rfl, rfl⟩

end Updates

/-! Any instruction of format R with one handler sub-step. -/

/-- A format R instruction whose one handler sub-step writes `K` (rules R138, R170). -/
theorem writesOnly_of_oneStepR {i : Instr} {w : Word} {K : List Element} {f : State → State}
    {post : State → State → Prop} (hword : decode w = .ok i) (hexec : ∀ m, exec i m = oneStepR f m)
    (hframe : ∀ m : State, m.changesOnly K (f m)) (hK : ∀ n ∈ [Element.i, .tm, .c], n ∉ K)
    (hpost : ∀ m, post m (endOfInstruction (substep f (operandR m)))) : writesOnly i w K post := by
  refine ⟨hword, fun m => ⟨_, hexec m, hpost m, ?i, ?ends, oneStepR_changesOnly (hframe _)⟩⟩
  case i =>
    rw [endOfInstruction_i, substep_i, kept_i (hframe _).1 (hK _ (by simp)), operandR_i]
  case ends =>
    have hends := (endOfInstruction_spec (substep f (operandR m))).1
    rwa [substep_tm, substep_c, kept_tm (hframe _).1 (hK _ (by simp)), kept_c (hframe _).1 (hK _ (by simp)),
      operandR_tm, operandR_c] at hends

theorem cle_writesOnly : writesOnly .cle 0x092 [.e] fun _ t => t.e = false :=
  writesOnly_of_oneStepR (by decide) (fun _ => rfl) (changesOnly_setE · false) (by decide) fun _ => rfl

theorem cma_writesOnly : writesOnly .cma 0x093 [.ac] fun m t => t.ac = ~~~m.ac :=
  writesOnly_of_oneStepR (by decide) (fun _ => rfl) (fun m => changesOnly_setAc m (notN m.ac)) (by decide)
    fun m => notN_eq m.ac

theorem cme_writesOnly : writesOnly .cme 0x094 [.e] fun m t => t.e = !m.e :=
  writesOnly_of_oneStepR (by decide) (fun _ => rfl) (fun m => changesOnly_setE m (!m.e)) (by decide) fun _ => rfl

theorem ica_writesOnly : writesOnly .ica 0x097 [.ac] fun m t => t.ac = m.ac + 1 :=
  writesOnly_of_oneStepR (by decide) (fun _ => rfl) (fun m => changesOnly_setAc m (inc m.ac)) (by decide)
    fun m => inc_eq m.ac

/-- Settles O23: each is one sub-step on E or on AC. -/
theorem clearComplementIncrement : Obligations.ClearComplementIncrement := by
  unfold Obligations.ClearComplementIncrement
  exact ⟨cle_writesOnly, cma_writesOnly, cme_writesOnly, ica_writesOnly⟩

theorem inp_writesOnly :
    writesOnly .inp 0x0B0 [.ac, .fgi] fun m t => t.ac = m.inpr.setWidth 12 ∧ t.fgi = false :=
  writesOnly_of_oneStepR (by decide) (fun _ => rfl) (fun m => changesOnly_setInput m (zext12 m.inpr) false) (by decide)
    fun _ => ⟨rfl, rfl⟩

theorem out_writesOnly :
    writesOnly .out 0x0B1 [.outr, .fgo] fun m t => t.outr = m.ac.setWidth 4 ∧ t.fgo = false :=
  writesOnly_of_oneStepR (by decide) (fun _ => rfl) (fun m => changesOnly_setOutput m (lowNibble m.ac) false)
    (by decide) fun _ => ⟨rfl, rfl⟩

/-- Settles O26: each is one sub-step on a register and the device's flag. -/
theorem inpOutMoveOneNibble : Obligations.InpOutMoveOneNibble := by
  unfold Obligations.InpOutMoveOneNibble
  exact ⟨inp_writesOnly, out_writesOnly⟩

theorem ei_writesOnly : writesOnly .ei 0x0B4 [.ien] fun _ t => t.ien = true :=
  writesOnly_of_oneStepR (by decide) (fun _ => rfl) (changesOnly_setIen · true) (by decide) fun _ => rfl

theorem di_writesOnly : writesOnly .di 0x0B5 [.ien] fun _ t => t.ien = false :=
  writesOnly_of_oneStepR (by decide) (fun _ => rfl) (changesOnly_setIen · false) (by decide) fun _ => rfl

/-- Settles O28: each is one sub-step on IEN. -/
theorem eiDiWriteIen : Obligations.EiDiWriteIen := by
  unfold Obligations.EiDiWriteIen
  exact ⟨ei_writesOnly, di_writesOnly⟩

theorem esw_writesOnly : writesOnly .esw 0x0A0 [.sw] fun _ t => t.sw = true :=
  writesOnly_of_oneStepR (by decide) (fun _ => rfl) (changesOnly_setSw · true) (by decide) fun _ => rfl

theorem dsw_writesOnly : writesOnly .dsw 0x0A1 [.sw] fun _ t => t.sw = false :=
  writesOnly_of_oneStepR (by decide) (fun _ => rfl) (changesOnly_setSw · false) (by decide) fun _ => rfl

/-- Settles O30: each is one sub-step on SW, which the end of the instruction then reads. -/
theorem eswDswWriteSw : Obligations.EswDswWriteSw := by
  unfold Obligations.EswDswWriteSw
  exact ⟨esw_writesOnly, dsw_writesOnly⟩

/-! The mode-setting instructions. -/

section Mode
variable {i : Instr} {w : Word} {a0 a1 : Bool}

theorem writesOnly_of_setMode (hword : decode w = .ok i) (hexec : ∀ m, exec i m = oneStepR (State.setMode a0 a1) m) :
    writesOnly i w [.a0, .a1] fun _ t => t.a0 = a0 ∧ t.a1 = a1 :=
  writesOnly_of_oneStepR hword hexec (changesOnly_setMode · a0 a1) (by decide) fun _ => ⟨rfl, rfl⟩

/-- An instruction that sets the mode bits makes every CAL in the state after it compute with the operation they
select (rules R154 to R158). -/
theorem selectsMode_of_setMode {op : Word → Word → Word}
    (hmode : writesOnly i w [.a0, .a1] fun _ t => t.a0 = a0 ∧ t.a1 = a1)
    (hop : ∀ x y, alu a0 a1 x y = op x y) : selectsMode i w a0 a1 op := by
  obtain ⟨hword, hwrites⟩ := hmode
  refine ⟨hword, fun m => ?_⟩
  obtain ⟨t, hnext, ⟨ha0, ha1⟩, hi, hends, hframe⟩ := hwrites m
  refine ⟨t, hnext, ha0, ha1, hi, hends, hframe, fun ind adr => ⟨_, exec_cal ind adr t, ?_⟩⟩
  simp [ha0, ha1, hop]

end Mode

theorem add_writesOnly : writesOnly .add 0x080 [.a0, .a1] fun _ t => t.a0 = false ∧ t.a1 = false :=
  writesOnly_of_setMode (by decide) fun _ => rfl

theorem sub_writesOnly : writesOnly .sub 0x081 [.a0, .a1] fun _ t => t.a0 = true ∧ t.a1 = false :=
  writesOnly_of_setMode (by decide) fun _ => rfl

theorem and_writesOnly : writesOnly .and 0x082 [.a0, .a1] fun _ t => t.a0 = false ∧ t.a1 = true :=
  writesOnly_of_setMode (by decide) fun _ => rfl

theorem or_writesOnly : writesOnly .or 0x083 [.a0, .a1] fun _ t => t.a0 = true ∧ t.a1 = true :=
  writesOnly_of_setMode (by decide) fun _ => rfl

/-- Settles O17: one case per setting of the mode bits. -/
theorem modeInstructionsSelectTheOperation : Obligations.ModeInstructionsSelectTheOperation := by
  unfold Obligations.ModeInstructionsSelectTheOperation
  exact ⟨selectsMode_of_setMode add_writesOnly alu_add, selectsMode_of_setMode sub_writesOnly alu_sub,
    selectsMode_of_setMode and_writesOnly alu_and, selectsMode_of_setMode or_writesOnly alu_or⟩

/-! The ring of E and AC (rules R176, R177): its bit 12 is E, its bits 11 to 0 are AC. -/

/-- One bit of the ring. -/
def ringBit (q : Bool × Word) (n : Nat) : Bool := if n = 12 then q.1 else q.2.getLsbD n

theorem ringBit_of_lt {q : Bool × Word} {n : Nat} (hn : n < 12) : ringBit q n = q.2.getLsbD n := if_neg (by omega)

theorem ring_ext {q p : Bool × Word} (h : ∀ n < 13, ringBit q n = ringBit p n) : q = p := by
  refine Prod.ext (h 12 (by omega)) (BitVec.eq_of_getLsbD_eq fun n hn => ?_)
  have hbit := h n (by omega)
  rwa [ringBit_of_lt hn, ringBit_of_lt hn] at hbit

theorem rotateRight_getLsbD (e : Bool) (ac : Word) (n : Nat) :
    (rotateRight e ac).2.getLsbD n =
      if n < 11 then (ac.extractLsb' 1 11).getLsbD n else (BitVec.ofBool e).getLsbD (n - 11) :=
  BitVec.getLsbD_append

theorem rotateLeft_getLsbD (e : Bool) (ac : Word) (n : Nat) :
    (rotateLeft e ac).2.getLsbD n =
      if n < 1 then (BitVec.ofBool e).getLsbD n else (ac.extractLsb' 0 11).getLsbD (n - 1) :=
  BitVec.getLsbD_append

/-- CIR moves every bit of the ring one place down, and bit 0 to the top. -/
theorem ringBit_rotateRight (q : Bool × Word) {n : Nat} (hn : n < 13) :
    ringBit (rotateRight q.1 q.2) n = ringBit q ((n + 1) % 13) := by
  rcases (by omega : n = 12 ∨ n = 11 ∨ n < 11) with rfl | rfl | hlow
  · simp [ringBit, rotateRight]
  · simp only [ringBit, rotateRight_getLsbD]
    simp
  · have hmod : (n + 1) % 13 = n + 1 := Nat.mod_eq_of_lt (by omega)
    simp only [ringBit, rotateRight_getLsbD, hmod, hlow, if_neg (show n ≠ 12 by omega),
      if_neg (show n + 1 ≠ 12 by omega)]
    simp [hlow, Nat.add_comm]

/-- CIL moves every bit of the ring one place up, and the top bit to the bottom. -/
theorem ringBit_rotateLeft (q : Bool × Word) {n : Nat} (hn : n < 13) :
    ringBit (rotateLeft q.1 q.2) ((n + 1) % 13) = ringBit q n := by
  rcases (by omega : n = 12 ∨ n = 11 ∨ n < 11) with rfl | rfl | hlow
  · simp only [ringBit, rotateLeft_getLsbD]
    simp
  · simp [ringBit, rotateLeft]
  · have hmod : (n + 1) % 13 = n + 1 := Nat.mod_eq_of_lt (by omega)
    simp only [ringBit, rotateLeft_getLsbD, hmod, if_neg (show n ≠ 12 by omega),
      if_neg (show n + 1 ≠ 12 by omega)]
    simp [hlow]

theorem rotateRight_rotateLeft (q : Bool × Word) : rotateRight (rotateLeft q.1 q.2).1 (rotateLeft q.1 q.2).2 = q :=
  ring_ext fun _ hn => (ringBit_rotateRight _ hn).trans (ringBit_rotateLeft q hn)

theorem rotateLeft_rotateRight (q : Bool × Word) :
    rotateLeft (rotateRight q.1 q.2).1 (rotateRight q.1 q.2).2 = q := by
  refine ring_ext fun n hn => ?_
  have hback : (((n + 12) % 13) + 1) % 13 = n := by omega
  have hdown : (n + 12) % 13 < 13 := Nat.mod_lt _ (by omega)
  calc ringBit (rotateLeft (rotateRight q.1 q.2).1 (rotateRight q.1 q.2).2) n
    _ = ringBit (rotateRight q.1 q.2) ((n + 12) % 13) := by
      rw [← ringBit_rotateLeft (rotateRight q.1 q.2) hdown, hback]
    _ = ringBit q n := by rw [ringBit_rotateRight q hdown, hback]

/-- CIR as a map of the ring. -/
abbrev turnRight (q : Bool × Word) : Bool × Word := rotateRight q.1 q.2

/-- CIL as a map of the ring. -/
abbrev turnLeft (q : Bool × Word) : Bool × Word := rotateLeft q.1 q.2

theorem ringBit_turnRight_iterate (k : Nat) (q : Bool × Word) {n : Nat} (hn : n < 13) :
    ringBit (turnRight^[k] q) n = ringBit q ((n + k) % 13) := by
  induction k generalizing n with
  | zero => rw [Function.iterate_zero_apply, Nat.add_zero, Nat.mod_eq_of_lt hn]
  | succ k ih =>
    rw [Function.iterate_succ_apply', ringBit_rotateRight _ hn, ih (Nat.mod_lt _ (by omega)), Nat.mod_add_mod,
      Nat.add_right_comm, Nat.add_assoc]

theorem turnRight_thirteen (q : Bool × Word) : turnRight^[13] q = q :=
  ring_ext fun n hn => by rw [ringBit_turnRight_iterate 13 q hn, Nat.add_mod_right, Nat.mod_eq_of_lt hn]

theorem turnLeft_thirteen (q : Bool × Word) : turnLeft^[13] q = q := by
  have hinverse : Function.LeftInverse turnLeft turnRight := rotateLeft_rotateRight
  have hback := hinverse.iterate 13 q
  rwa [turnRight_thirteen] at hback

/-- What CIR leaves in the ring. -/
theorem exec_cir_ring {m t : State} (h : exec .cir m = .next t) : (t.e, t.ac) = rotateRight m.e m.ac := by
  cases h
  rfl

/-- What CIL leaves in the ring. -/
theorem exec_cil_ring {m t : State} (h : exec .cil m = .next t) : (t.e, t.ac) = rotateLeft m.e m.ac := by
  cases h
  rfl

/-- Settles O25: the two maps of the ring are inverse to each other, and thirteen turns move each of its thirteen bits
back to its place. -/
theorem rotationsUndoEachOther : Obligations.RotationsUndoEachOther := by
  unfold Obligations.RotationsUndoEachOther
  refine ⟨fun m t u hright hleft => ?_, fun m t u hleft hright => ?_, fun e ac =>
    ⟨turnRight_thirteen (e, ac), turnLeft_thirteen (e, ac)⟩⟩
  · have hring : (u.e, u.ac) = (m.e, m.ac) :=
      calc (u.e, u.ac)
        _ = turnLeft (t.e, t.ac) := exec_cil_ring hleft
        _ = turnLeft (turnRight (m.e, m.ac)) := by rw [exec_cir_ring hright]
        _ = (m.e, m.ac) := rotateLeft_rotateRight _
    exact ⟨congrArg Prod.snd hring, congrArg Prod.fst hring⟩
  · have hring : (u.e, u.ac) = (m.e, m.ac) :=
      calc (u.e, u.ac)
        _ = turnRight (t.e, t.ac) := exec_cir_ring hright
        _ = turnRight (turnLeft (m.e, m.ac)) := by rw [exec_cil_ring hleft]
        _ = (m.e, m.ac) := rotateRight_rotateLeft _
    exact ⟨congrArg Prod.snd hring, congrArg Prod.fst hring⟩

theorem cir_writesOnly : writesOnly .cir 0x095 [.ac, .e] fun m t =>
    t.ac.getLsbD 11 = m.e ∧ (∀ n < 11, t.ac.getLsbD n = m.ac.getLsbD (n + 1)) ∧ t.e = m.ac.getLsbD 0 := by
  refine writesOnly_of_oneStepR (by decide) (fun _ => rfl) (fun m => changesOnly_setRing m _ _) (by decide)
    fun m => ⟨?_, fun n hn => ?_, rfl⟩
  · exact ringBit_rotateRight (m.e, m.ac) (n := 11) (by omega)
  · have hbit := ringBit_rotateRight (m.e, m.ac) (n := n) (by omega)
    rwa [Nat.mod_eq_of_lt (by omega), ringBit_of_lt (by omega), ringBit_of_lt (by omega)] at hbit

theorem cil_writesOnly : writesOnly .cil 0x096 [.ac, .e] fun m t =>
    t.ac.getLsbD 0 = m.e ∧ (∀ n < 11, t.ac.getLsbD (n + 1) = m.ac.getLsbD n) ∧ t.e = m.ac.getLsbD 11 := by
  refine writesOnly_of_oneStepR (by decide) (fun _ => rfl) (fun m => changesOnly_setRing m _ _) (by decide)
    fun m => ⟨?_, fun n hn => ?_, rfl⟩
  · exact ringBit_rotateLeft (m.e, m.ac) (n := 12) (by omega)
  · have hbit := ringBit_rotateLeft (m.e, m.ac) (n := n) (by omega)
    rwa [Nat.mod_eq_of_lt (by omega), ringBit_of_lt (by omega), ringBit_of_lt (by omega)] at hbit

/-- Settles O24: each is one sub-step on the ring, bit by bit. -/
theorem cirCilRotateThroughE : Obligations.CirCilRotateThroughE := by
  unfold Obligations.CirCilRotateThroughE
  exact ⟨cir_writesOnly, cil_writesOnly⟩

end Sys2Proof.Machine
end

section
/-!
PROOFS. The step (`40_instruction_cycle.md`, `50_pacer_and_host.md` section 2): the step of a stopped machine, the step
that fetches, the next step after an instruction, and the statements O3, O7, O8, O29, O43, O44 and O54.
-/

namespace Sys2Proof.Machine

/-! A stopped machine. -/

theorem step_of_stopped {m : State} (hmid : m.mid = false) (hgs : m.gs = false) : step m = .next (stopRun m) := by
  simp [step, gate, hmid, hgs]

theorem stopRun_of_run {m : State} (hrun : m.run = false) : stopRun m = m := by
  rw [stopRun, ← hrun]

/-- Settles O8: the gate finds GS 0, and clearing a RUN that is clear changes nothing. -/
theorem stoppedMachineOnlyEndsItsRun : Obligations.StoppedMachineOnlyEndsItsRun := by
  unfold Obligations.StoppedMachineOnlyEndsItsRun
  intro m hmid hgs
  have hstep := step_of_stopped hmid hgs
  exact ⟨fun hrun => by rw [hstep, stopRun_of_run hrun], hstep⟩

/-- Settles O43: the reset state is a closed term. -/
theorem resetHasTheInvariant : Obligations.ResetHasTheInvariant := by
  unfold Obligations.ResetHasTheInvariant
  exact ⟨reset_wf, rfl, rfl, rfl⟩

theorem reset_slot (k : Slot) : State.reset.slot k = Psr.zero := Vector.getElem_replicate k.isLt

/-- Settles O44: every element and cell of the reset state is written out, and its GS is 0. -/
theorem resetIsZeroAndIdle : Obligations.ResetIsZeroAndIdle := by
  unfold Obligations.ResetIsZeroAndIdle
  refine ⟨fun n => ?_, fun _ => rfl, reset_slot, rfl, rfl, rfl, ?_⟩
  · cases n <;> decide
  · exact (stoppedMachineOnlyEndsItsRun _ rfl rfl).1 rfl

/-! A step that fetches. -/

/-- The start of a decision writes what the pacer holds only. -/
theorem beginDecision_changesOnly (m : State) : m.changesOnly [] (beginDecision m) :=
  ⟨fun n _ => beginDecision_value m n, fun _ => rfl, fun _ => rfl, rfl, rfl⟩

/-- The state after the fetch of a decision that starts from `m` (rule R131). -/
def afterFetch (m : State) : State := fetch (beginDecision m)

theorem afterFetch_changesOnly (m : State) : m.changesOnly [.ar, .ir, .pc] (afterFetch m) :=
  changesOnly_trans (changesOnly_mono (beginDecision_changesOnly m) (by simp)) (fetch_spec _).2.2.2 (by simp)

@[simp] theorem afterFetch_ir (m : State) : (afterFetch m).ir = m.read m.pc := rfl

theorem step_of_ready {m : State} (h : m.readyToExecute) : step m = fetchExecute (beginDecision m) :=
  (arbiterTakesOneBranch m h.1).2.2 h.2.1 h.2.2

theorem fetchExecute_of_ok {m : State} {i : Instr} (h : decode (m.read m.pc) = .ok i) :
    fetchExecute (beginDecision m) = exec i (afterFetch m) := by
  have hir : decode (fetch (beginDecision m)).ir = .ok i := h
  simp only [fetchExecute, hir, afterFetch]

theorem fetchExecute_of_error {m : State} {e : Illegal} (h : decode (m.read m.pc) = .error e) :
    fetchExecute (beginDecision m) = .fault (.decodeError (m.read m.pc) (afterFetch m).halted) := by
  have hir : decode (fetch (beginDecision m)).ir = .error e := h
  simp only [fetchExecute, hir, illegalWord]
  rfl

/-- Settles O7: the three sub-steps of the fetch, then the dispatch. -/
theorem stepRunsTheDecodedInstruction : Obligations.StepRunsTheDecodedInstruction := by
  unfold Obligations.StepRunsTheDecodedInstruction
  intro m i hready hdecode
  refine ⟨afterFetch m, ?step, rfl, rfl, ?pc, rfl, afterFetch_changesOnly m⟩
  case step => rw [step_of_ready hready, fetchExecute_of_ok hdecode]
  case pc => exact (fetch_spec (beginDecision m)).2.2.1

/-- What a stop leaves, from the frame of the state it stops in (rules R8, R263). -/
theorem halted_stopsWith {L : List Element} {m t : State} (h : m.changesOnly L t) : m.stopsWith L t.halted := by
  obtain ⟨helements, hmemory, hslots, -, hparams⟩ := h
  exact ⟨fun n hn => (halted_value t n).trans (helements n hn), hmemory, hslots, rfl, rfl, hparams⟩

/-- Settles O3: the set by the decoder of format R; the stop after the fetch. -/
theorem illegalWordsStopTheRun : Obligations.IllegalWordsStopTheRun := by
  unfold Obligations.IllegalWordsStopTheRun
  refine ⟨decode_error_iff, fun m hready htop hcode => ?_⟩
  obtain ⟨e, herror⟩ := (decode_error_iff _).mpr ⟨htop, hcode⟩
  refine ⟨(afterFetch m).halted, ?step, rfl, rfl, ?pc, halted_stopsWith (afterFetch_changesOnly m)⟩
  case step => rw [step_of_ready hready, fetchExecute_of_error herror]
  case pc => exact (fetch_spec (beginDecision m)).2.2.1

/-! The step after an instruction. -/

/-- With GS 1 and a context switch wanted, the next step is one. -/
theorem step_of_wantsSwitch {m : State} (hlive : m.live) (hs : m.wantsSwitch) :
    step m = contextSwitch (beginDecision m) := (arbiterTakesOneBranch m hlive).1 hs

/-- Settles O29: EI leaves GS, S and the flags, so both requests of the arbiter are decided. -/
theorem eiTakesEffectAtOnce : Obligations.EiTakesEffectAtOnce := by
  unfold Obligations.EiTakesEffectAtOnce
  intro m t hgs hs hflag hnext hswitch
  obtain ⟨t', hnext', hien, -, ⟨-, -, -, hmid⟩, helements, -⟩ := ei_writesOnly.2 m
  obtain rfl : t' = t := Host.Outcome.next.inj (hnext'.symm.trans hnext)
  have hlive : t'.live := ⟨hmid, (kept_gs helements (by decide)).trans hgs⟩
  refine (arbiterTakesOneBranch t' hlive).2.1 ?noSwitch (.inr ⟨hien, ?flag⟩)
  case noSwitch =>
    rw [State.wantsSwitch, kept_s helements (by decide), hs]
    simpa using hswitch
  case flag => rwa [kept_fgi helements (by decide), kept_fgo helements (by decide)]

end Sys2Proof.Machine
end

section
/-!
PROOFS. STA (`42_memory_reference.md`), and HLT, SPA and UTM (`44_process_control.md` sections 2 and 8): the handlers
and their frames, and the statements O19, O31, O40 and O41.
-/

namespace Sys2Proof.Machine

/-! STA. -/

/-- X1 of STA: AC goes to the cell that AR addresses. -/
def staStore (m : State) : State := substep (fun m => m.write m.ar m.ac) m

/-- The one outcome of STA: the handler, then the end of the instruction. -/
theorem exec_sta (ind : Bool) (adr : Addr) (m : State) :
    exec (.sta ind adr) m = .next (endOfInstruction (staStore (operandM ind adr m))) := rfl

section StaStore
variable (m : State)

@[simp] theorem staStore_ar : (staStore m).ar = m.ar := rfl
@[simp] theorem staStore_i : (staStore m).i = m.i := rfl
@[simp] theorem staStore_tm : (staStore m).tm = m.tm := rfl
@[simp] theorem staStore_c : (staStore m).c = m.c := rfl
@[simp] theorem staStore_mem : (staStore m).mem = m.mem.write m.ar m.ac := rfl

end StaStore

/-- The frame of STA, from the state with AC in the cell at the effective operand. -/
theorem exec_sta_changesOnly (ind : Bool) (adr : Addr) (m : State) :
    (m.write (effectiveOperand ind adr m) m.ac).changesOnly [.ar, .i, .sc, .tm, .c]
      (endOfInstruction (staStore (operandM ind adr m))) := by
  have hstore := substep_changesOnly_nil (fun m => m.write m.ar m.ac) (operandM ind adr m)
  rw [operandM_ar, operandM_ac] at hstore
  exact finishM_write_changesOnly hstore

/-- Settles O19: the word is one of format M with OPC 3; the registers are read off the handler and the end of the
instruction; the memory and the rest come from the frame of a handler that stores into one cell. -/
theorem staStoresTheAccumulator : Obligations.StaStoresTheAccumulator := by
  unfold Obligations.StaStoresTheAccumulator
  intro ind adr
  refine ⟨decode_formatM 3 ind adr (by decide), fun m => ?_⟩
  obtain ⟨hcell, hmemory, helements, hslots, hcontrol⟩ := changesOnly_of_write (exec_sta_changesOnly ind adr m)
  refine ⟨_, exec_sta ind adr m, ?ar, ?i, hcell, hmemory, fun hwf => ?wf, ?ends, helements, hslots, hcontrol⟩
  case ar => simp
  case i => simp
  case wf => simpa using memory_write_wf hwf (effectiveOperand ind adr m) m.ac
  case ends => simpa using (endOfInstruction_spec (staStore (operandM ind adr m))).1

/-! HLT. -/

/-- The handler of HLT, X1 to X5, on the state after the operand of format R. -/
def hltHandler (m : State) : State :=
  requestSwitch (stopWhenAllStopped (countStopped m.s (rollBack (markStopped m))))

/-- The one outcome of HLT: the handler, then the end of the instruction. -/
theorem exec_hlt (m : State) : exec .hlt m = .next (endOfInstruction (hltHandler (operandR m))) := rfl

section OperandRProcess
variable (m : State)

@[simp] theorem operandR_s : (operandR m).s = m.s := rfl
@[simp] theorem operandR_ns : (operandR m).ns = m.ns := rfl
@[simp] theorem operandR_tp : (operandR m).tp = m.tp := rfl
@[simp] theorem operandR_gs : (operandR m).gs = m.gs := rfl

end OperandRProcess

section HltSubsteps
variable (m : State) (was : Bool)

theorem markStopped_changesOnly : m.changesOnly [.s] (markStopped m) :=
  substep_changesOnly ⟨fun n hn => by cases n <;> simp at hn <;> rfl, fun _ => rfl, fun _ => rfl, rfl, rfl⟩

theorem rollBack_changesOnly : m.changesOnly [.pc] (rollBack m) :=
  substep_changesOnly ⟨fun n hn => by cases n <;> simp at hn <;> rfl, fun _ => rfl, fun _ => rfl, rfl, rfl⟩

theorem countStopped_changesOnly : m.changesOnly [.ns] (countStopped was m) :=
  substep_changesOnly ⟨fun n hn => by cases n <;> simp at hn <;> rfl, fun _ => rfl, fun _ => rfl, rfl, rfl⟩

theorem stopWhenAllStopped_changesOnly : m.changesOnly [.gs] (stopWhenAllStopped m) :=
  substep_changesOnly ⟨fun n hn => by cases n <;> simp at hn <;> rfl, fun _ => rfl, fun _ => rfl, rfl, rfl⟩

theorem requestSwitch_changesOnly : m.changesOnly [.c] (requestSwitch m) :=
  substep_changesOnly ⟨fun n hn => by cases n <;> simp at hn <;> rfl, fun _ => rfl, fun _ => rfl, rfl, rfl⟩

/-- X1 to X5 write S, PC, NS, GS and C, one each. -/
theorem hltHandler_changesOnly : m.changesOnly [.s, .pc, .ns, .gs, .c] (hltHandler m) := by
  have hstopped := changesOnly_mono (markStopped_changesOnly m) (K := [.s, .pc, .ns, .gs, .c]) (by simp)
  have hback := changesOnly_trans hstopped (rollBack_changesOnly _) (by simp)
  have hcounted := changesOnly_trans hback (countStopped_changesOnly _ m.s) (by simp)
  have hall := changesOnly_trans hcounted (stopWhenAllStopped_changesOnly _) (by simp)
  exact changesOnly_trans hall (requestSwitch_changesOnly _) (by simp)

@[simp] theorem hltHandler_s : (hltHandler m).s = false := rfl
@[simp] theorem hltHandler_c : (hltHandler m).c = true := rfl
@[simp] theorem hltHandler_i : (hltHandler m).i = m.i := kept_i (hltHandler_changesOnly m).1 (by decide)
@[simp] theorem hltHandler_tm : (hltHandler m).tm = m.tm := kept_tm (hltHandler_changesOnly m).1 (by decide)

@[simp] theorem hltHandler_pc : (hltHandler m).pc = m.pc - 1 := by
  simp [hltHandler, requestSwitch, stopWhenAllStopped, countStopped, rollBack, markStopped, dec_eq]

@[simp] theorem hltHandler_ns : (hltHandler m).ns = if m.s = true then m.ns + 1 else m.ns := by
  simp [hltHandler, requestSwitch, stopWhenAllStopped, countStopped, rollBack, markStopped, inc_eq]

theorem requestSwitch_stopWhenAllStopped_gs :
    (requestSwitch (stopWhenAllStopped m)).gs = if m.ns = m.tp then false else m.gs := rfl

theorem requestSwitch_stopWhenAllStopped_ns : (requestSwitch (stopWhenAllStopped m)).ns = m.ns := rfl

/-- GS is cleared where NS, as X3 leaves it, has reached TP (rule R184). -/
theorem hltHandler_gs : (hltHandler m).gs = if (hltHandler m).ns = m.tp then false else m.gs := by
  have htp : (countStopped m.s (rollBack (markStopped m))).tp = m.tp := rfl
  have hgs : (countStopped m.s (rollBack (markStopped m))).gs = m.gs := rfl
  rw [hltHandler, requestSwitch_stopWhenAllStopped_gs, requestSwitch_stopWhenAllStopped_ns, htp, hgs]

end HltSubsteps

/-- Settles O31: what is written is read off the handler and the end of the instruction; S is 0 after it, so that the
next decision, where there is one, is a context switch. -/
theorem hltStopsTheProcess : Obligations.HltStopsTheProcess := by
  unfold Obligations.HltStopsTheProcess
  refine ⟨by decide, fun m => ⟨_, exec_hlt m, rfl, ?pc, ?ns, ?gs, ?i, ?ends, ?frame, fun hgs => ?switch,
    fun hgs hrun => ?idle⟩⟩
  case pc => simp
  case ns => rw [endOfInstruction_ns, hltHandler_ns, operandR_s, operandR_ns]
  case gs =>
    rw [endOfInstruction_gs, hltHandler_gs, endOfInstruction_ns, operandR_tp, operandR_gs]
  case i => simp
  case ends => simpa using (endOfInstruction_spec (hltHandler (operandR m))).1
  case frame =>
    exact finish_changesOnly
      (changesOnly_trans (changesOnly_mono (operandR_spec m).2 (K := [.s, .pc, .ns, .gs, .c, .i]) (by simp))
        (hltHandler_changesOnly _) (by simp +contextual))
      (by simp +contextual) (by simp)
  case switch => exact step_of_wantsSwitch ⟨rfl, hgs⟩ (.inr rfl)
  case idle => exact (stoppedMachineOnlyEndsItsRun _ rfl hgs).1 hrun

/-! SPA and UTM. -/

/-- The skip condition of SPA: the cell that AR addresses is AC. -/
def cellIsAc (m : State) : Bool := decide (m.read m.ar = m.ac)

theorem exec_spa (m : State) :
    exec .spa m = .next (endOfInstruction (skipIf cellIsAc (selectEntry m.prc (operandR m)))) := rfl

theorem selectEntry_changesOnly (p : Nibble) (m : State) : m.changesOnly [.ar] (selectEntry p m) :=
  ⟨fun n hn => by cases n <;> simp at hn <;> rfl, fun _ => rfl, fun _ => rfl, rfl, rfl⟩

section SelectEntry
variable (p : Nibble) (m : State)

@[simp] theorem selectEntry_ar : (selectEntry p m).ar = p.setWidth 8 := rfl
@[simp] theorem selectEntry_ac : (selectEntry p m).ac = m.ac := rfl
@[simp] theorem selectEntry_pc : (selectEntry p m).pc = m.pc := rfl

end SelectEntry

/-- Settles O40: AR takes PRC, and the skip compares the cell there. -/
theorem spaSkipsOnTheTableEntry : Obligations.SpaSkipsOnTheTableEntry := by
  unfold Obligations.SpaSkipsOnTheTableEntry
  refine ⟨by decide, fun m => ⟨_, exec_spa m, ⟨rfl, ?pc⟩, rfl, ?ends, ?frame⟩⟩
  case pc =>
    by_cases hcell : m.read (m.prc.setWidth 8) = m.ac <;> simp [cellIsAc, hcell]
  case ends => exact (endOfInstruction_spec (skipIf cellIsAc (selectEntry m.prc (operandR m)))).1
  case frame =>
    exact finish_changesOnly
      (changesOnly_trans
        (changesOnly_trans (changesOnly_mono (operandR_spec m).2 (K := [.pc, .ar, .i]) (by simp))
          (selectEntry_changesOnly m.prc _) (by simp))
        (skipIf_spec cellIsAc _).2 (by simp))
      (by simp +contextual) (by simp)

theorem exec_utm (m : State) : exec .utm m = .next (endOfInstruction (quantumReload (operandR m))) := rfl

/-- Settles O41: the reload, and the end of the instruction on the reloaded timer. -/
theorem utmReloadsTheTimer : Obligations.UtmReloadsTheTimer := by
  unfold Obligations.UtmReloadsTheTimer
  refine ⟨by decide, fun m => ⟨_, exec_utm m, rfl, rfl, ?ends, ?frame⟩⟩
  case ends => exact (endOfInstruction_spec (quantumReload (operandR m))).1
  case frame =>
    exact finish_changesOnly
      (changesOnly_trans (changesOnly_mono (operandR_spec m).2 (K := [.ar, .i, .tm]) (by simp))
        (quantumReload_spec _).2.2 (by simp +contextual))
      (by simp +contextual) (by simp)

end Sys2Proof.Machine
end

section
/-!
PROOFS. The frames that process resolution and the two protocols share (`20_memory.md` section 5, `60_exceptions.md`
sections 3 and 4): the frame of an operation that writes one slot, a table word under a frame, the resolution of a
process id, the save of the live context and the load of a stored one.
-/

namespace Sys2Proof.Machine

/-! An operation that writes one slot leaves what differs from the state with that slot written in the named elements
only: its frame is `changesOnly` from the state with the slot written. -/

/-- The same slot written on both sides keeps the frame. -/
theorem changesOnly_setSlot {L : List Element} {m t : State} (h : m.changesOnly L t) (k : Slot) (p : Psr) :
    (m.setSlot k p).changesOnly L (t.setSlot k p) := by
  obtain ⟨helements, hmemory, hslots, hcontrol⟩ := h
  refine ⟨fun n hn => ?_, hmemory, fun j => ?_, hcontrol⟩
  · simpa using helements n hn
  · simp [slot_setSlot, hslots j]

/-- What the frame from a state with a slot written says of the state before the write (rule R86). -/
theorem changesOnly_of_setSlot {L : List Element} {m t : State} {k : Slot} {p : Psr}
    (h : (m.setSlot k p).changesOnly L t) :
    t.slot k = p ∧ m.sameSlotsBut k t ∧ m.sameExcept L t ∧ m.sameMemory t ∧ m.sameControl t := by
  obtain ⟨helements, hmemory, hslots, hcontrol⟩ := h
  refine ⟨?_, fun j hj => ?_, fun n hn => ?_, hmemory, hcontrol⟩
  · simpa [slot_setSlot] using hslots k
  · simpa [slot_setSlot, Ne.symm hj] using hslots j
  · simpa using helements n hn

/-- The scratch register goes to the slot (rule R86). -/
theorem pcbWrite_changesOnly (k : Slot) (m : State) : (m.setSlot k m.psr).changesOnly [] (pcbWrite k m) :=
  substep_changesOnly_nil (fun m => m.setSlot k m.psr) m

/-- The frame of a save: `K` before the slot is written, from a state whose slot is written with the same record. -/
theorem changesOnly_pcbWrite {K : List Element} {m u : State} {k : Slot} (h : m.changesOnly K u) :
    (m.setSlot k u.psr).changesOnly K (pcbWrite k u) :=
  changesOnly_trans (changesOnly_setSlot h k u.psr) (pcbWrite_changesOnly k u) (by simp)

/-! A table word under a frame. -/

section TableWord
variable {L : List Element} {m t : State} {a : Addr} (h : m.changesOnly L t)
include h

theorem namesSlot_of_changesOnly {k : Slot} (hk : m.namesSlot a k) : t.namesSlot a k := by
  obtain ⟨-, hmemory, -, -, hparams⟩ := h
  rwa [State.namesSlot, hparams, hmemory]

theorem namesNoSlot_of_changesOnly {v : Word} (hv : m.namesNoSlot a v) : t.namesNoSlot a v := by
  obtain ⟨-, hmemory, -, -, hparams⟩ := h
  rwa [State.namesNoSlot, hparams, hmemory]

theorem successor_of_changesOnly (hprc : .prc ∉ L) (htp : .tp ∉ L) : t.successor = m.successor := by
  obtain ⟨helements, -, -, -, hparams⟩ := h
  simp only [State.successor, hparams, kept_prc helements hprc, kept_tp helements htp]

end TableWord

/-- A table cell names a slot, or its word is reported (rules R83, R85). -/
theorem namesSlot_or_namesNoSlot (m : State) (a : Addr) :
    (∃ k, m.namesSlot a k) ∨ ∃ v, m.namesNoSlot a v := by
  cases h : tableSlot m.params.resolveCheck (m.read a) with
  | ok k => exact .inl ⟨k, (tableSlot_ok_iff _ _ _).mp h⟩
  | error v => exact .inr ⟨v, (tableSlot_error_iff _ _ _).mp h⟩

/-! The resolution of a process id. -/

theorem dereference_changesOnly (m : State) : m.changesOnly [.ar] (dereference m) :=
  substep_changesOnly ⟨fun n hn => by cases n <;> simp at hn <;> rfl, fun _ => rfl, fun _ => rfl, rfl, rfl⟩

/-- The state in which a resolution of `p` checks the table word (rules R83, R84). -/
def resolved (p : Nibble) (m : State) : State := dereference (selectEntry p m)

section Resolved
variable (p : Nibble) (m : State)

theorem resolved_ar : (resolved p m).ar = (m.read (p.setWidth 8)).setWidth 8 := rfl
@[simp] theorem resolved_psr : (resolved p m).psr = m.psr := rfl

theorem resolved_changesOnly : m.changesOnly [.ar] (resolved p m) :=
  changesOnly_trans (selectEntry_changesOnly p m) (dereference_changesOnly _) (by simp)

end Resolved

theorem resolve_eq_ok {p : Nibble} {m : State} {k : Slot} (h : m.namesSlot (p.setWidth 8) k) :
    resolve p m = .ok (k, resolved p m) := resolve_of_namesSlot h

theorem resolve_eq_error {p : Nibble} {m : State} {v : Word} (h : m.namesNoSlot (p.setWidth 8) v) :
    resolve p m = .error (.processResolutionError v (resolved p m).halted) := resolve_of_namesNoSlot h

/-! The save of the live context (rules R250, R251, R255, R188). -/

/-- The live context saved in the scratch register, and the current process's table word checked. -/
def saveResolved (m : State) : State := resolved m.prc (saveLive m)

/-- The live context saved in slot `k`. -/
def savedIn (k : Slot) (m : State) : State := pcbWrite k (saveResolved m)

section Save
variable (k : Slot) (m : State)

@[simp] theorem saveResolved_psr : (saveResolved m).psr = m.savedRecord := rfl
theorem saveResolved_ar : (saveResolved m).ar = (m.read (m.prc.setWidth 8)).setWidth 8 := rfl

theorem saveResolved_changesOnly : m.changesOnly [.ar, .psr] (saveResolved m) :=
  changesOnly_trans (changesOnly_mono (saveLive_spec m).2 (by simp)) (resolved_changesOnly _ _) (by simp)

@[simp] theorem savedIn_psr : (savedIn k m).psr = m.savedRecord := rfl

theorem savedIn_changesOnly : (m.setSlot k m.savedRecord).changesOnly [.ar, .psr] (savedIn k m) :=
  changesOnly_pcbWrite (saveResolved_changesOnly m)

end Save

/-! The load of a stored context (rules R190, R250, R252). -/

/-- The context of slot `j` loaded into the live registers. -/
def loadedFrom (j : Slot) (m : State) : State := loadLive (pcbRead j m)

section Load
variable (j : Slot) (m : State)

@[simp] theorem loadedFrom_psr : (loadedFrom j m).psr = m.slot j := rfl
@[simp] theorem loadedFrom_s : (loadedFrom j m).s = (m.slot j).s := rfl
@[simp] theorem loadedFrom_ar : (loadedFrom j m).ar = m.ar := rfl

theorem loadedFrom_holdsContext : (loadedFrom j m).holdsContext (m.slot j) := (loadLive_spec (pcbRead j m)).1

theorem loadedFrom_changesOnly : m.changesOnly [.psr, .pc, .ac, .e, .a0, .a1, .s] (loadedFrom j m) :=
  changesOnly_trans (changesOnly_mono (pcbRead_spec j m).2 (by simp)) (loadLive_spec _).2.2 (by simp)

end Load

/-! The context switch (rules R250 to R254). -/

/-- The state in which the context switch looks up the next process (CS4 and CS5). -/
def advanced (k : Slot) (m : State) : State := quantumReload (advanceProcess (savedIn k m))

section Advanced
variable (k : Slot) (m : State)

theorem advanced_changesOnly :
    (m.setSlot k m.savedRecord).changesOnly [.ar, .tm, .prc, .psr] (advanced k m) := by
  have hsaved := changesOnly_mono (savedIn_changesOnly k m) (K := [.ar, .tm, .prc, .psr]) (by simp)
  have hnext := changesOnly_trans hsaved (advanceProcess_spec _).2 (by simp)
  exact changesOnly_trans hnext (quantumReload_spec _).2.2 (by simp)

theorem advanced_prc : (advanced k m).prc = m.successor :=
  calc (advanced k m).prc
    _ = (advanceProcess (savedIn k m)).prc := rfl
    _ = (savedIn k m).successor := (advanceProcess_spec _).1
    _ = m.successor := successor_of_changesOnly (m := m.setSlot k m.savedRecord) (savedIn_changesOnly k m)
        (by decide) (by decide)

@[simp] theorem advanced_psr : (advanced k m).psr = m.savedRecord := rfl

end Advanced

/-- The next process resolved, from the state with the old one's slot written. -/
def nextResolved (k : Slot) (m : State) : State := resolved m.successor (advanced k m)

theorem nextResolved_changesOnly (k : Slot) (m : State) :
    (m.setSlot k m.savedRecord).changesOnly [.ar, .tm, .prc, .psr] (nextResolved k m) :=
  changesOnly_trans (advanced_changesOnly k m) (resolved_changesOnly _ _) (by simp)

theorem contextSwitch_of_namesSlot {m : State} {k : Slot} (hk : m.namesSlot (m.prc.setWidth 8) k) :
    contextSwitch m = switchIn (savedIn k m) := by
  have hres : resolve m.prc (saveLive m) = .ok (k, saveResolved m) :=
    resolve_eq_ok (namesSlot_of_changesOnly (saveLive_spec m).2 hk)
  simp only [contextSwitch, hres, savedIn]

/-- A context switch that finds both slots. -/
theorem contextSwitch_eq_next {m : State} {k j : Slot} (hk : m.namesSlot (m.prc.setWidth 8) k)
    (hj : m.namesSlot (m.successor.setWidth 8) j) :
    contextSwitch m = .next (markSwitched (loadedFrom j (nextResolved k m))) := by
  have hres : resolve (advanced k m).prc (advanced k m) = .ok (j, nextResolved k m) := by
    rw [advanced_prc]
    exact resolve_eq_ok (namesSlot_of_changesOnly (advanced_changesOnly k m) hj)
  rw [contextSwitch_of_namesSlot hk, switchIn]
  simp only [advanced] at hres
  simp only [hres, loadedFrom]

/-- A context switch that finds no slot for the current process. -/
theorem contextSwitch_eq_fault {m : State} {v : Word} (hv : m.namesNoSlot (m.prc.setWidth 8) v) :
    contextSwitch m = .fault (.processResolutionError v (saveResolved m).halted) := by
  have hres : resolve m.prc (saveLive m) = .error (.processResolutionError v (saveResolved m).halted) :=
    resolve_eq_error (namesNoSlot_of_changesOnly (saveLive_spec m).2 hv)
  simp only [contextSwitch, hres]

/-- A context switch that finds a slot for the current process and none for the next. -/
theorem contextSwitch_eq_fault_next {m : State} {k : Slot} {v : Word} (hk : m.namesSlot (m.prc.setWidth 8) k)
    (hv : m.namesNoSlot (m.successor.setWidth 8) v) :
    contextSwitch m = .fault (.processResolutionError v (nextResolved k m).halted) := by
  have hres : resolve (advanced k m).prc (advanced k m) =
      .error (.processResolutionError v (nextResolved k m).halted) := by
    rw [advanced_prc]
    exact resolve_eq_error (namesNoSlot_of_changesOnly (advanced_changesOnly k m) hv)
  rw [contextSwitch_of_namesSlot hk, switchIn]
  simp only [advanced] at hres
  simp only [hres]

end Sys2Proof.Machine
end

section
/-!
PROOFS. The context switch and the interrupt entry (`60_exceptions.md` sections 1, 3 and 4): what each leaves when it
completes and when it stops, and the statements O10, O11, O12, O13 and O15.
-/

namespace Sys2Proof.Machine

/-! The scratch register as an element: its number determines the record (rule R49). -/

theorem append_inj {n k : Nat} {x x' : BitVec n} {y y' : BitVec k} (h : x ++ y = x' ++ y') : x = x' ∧ y = y' := by
  constructor
  · rw [← BitVec.extractLsb'_append_eq_left (a := x) (b := y), h, BitVec.extractLsb'_append_eq_left]
  · rw [← BitVec.extractLsb'_append_eq_right (a := x) (b := y), h, BitVec.extractLsb'_append_eq_right]

theorem ofBool_injective {a b : Bool} (h : BitVec.ofBool a = BitVec.ofBool b) : a = b := by
  simpa using congrArg (·.getLsbD 0) h

theorem packed_injective {p q : Psr} (h : p.packed = q.packed) : p = q := by
  obtain ⟨h, hpc⟩ := append_inj h
  obtain ⟨h, hpc0⟩ := append_inj h
  obtain ⟨h, hac⟩ := append_inj h
  obtain ⟨h, he⟩ := append_inj h
  obtain ⟨h, ha0⟩ := append_inj h
  obtain ⟨hs, ha1⟩ := append_inj h
  cases p
  cases q
  simp only [Psr.mk.injEq]
  exact ⟨ofBool_injective hs, ofBool_injective ha1, ofBool_injective ha0, ofBool_injective he, hac, hpc0, hpc⟩

theorem kept_psr {L : List Element} {m t : State} (h : m.sameExcept L t) (hn : .psr ∉ L) : t.psr = m.psr :=
  packed_injective (BitVec.eq_of_toNat_eq (h .psr hn))

theorem halted_sameExcept {L : List Element} {m t : State} (h : m.sameExcept L t) : m.sameExcept L t.halted :=
  fun n hn => (halted_value t n).trans (h n hn)

/-! The context switch. -/

/-- What a context switch from slot `k` to slot `j` leaves. -/
def switched (k j : Slot) (m : State) : State := markSwitched (loadedFrom j (nextResolved k m))

@[simp] theorem markSwitched_psr (m : State) : (markSwitched m).psr = m.psr := rfl

@[simp] theorem markSwitched_holdsContext (m : State) (p : Psr) :
    (markSwitched m).holdsContext p ↔ m.holdsContext p := Iff.rfl

section Switched
variable (k j : Slot) (m : State)

theorem switched_changesOnly :
    (m.setSlot k m.savedRecord).changesOnly [.ar, .pc, .ac, .tm, .prc, .sc, .e, .c, .s, .a0, .a1, .psr]
      (switched k j m) := by
  have hnext := changesOnly_mono (nextResolved_changesOnly k m)
    (K := [.ar, .pc, .ac, .tm, .prc, .sc, .e, .c, .s, .a0, .a1, .psr]) (by simp)
  have hloaded := changesOnly_trans hnext (loadedFrom_changesOnly j _) (by simp)
  exact changesOnly_trans hloaded (markSwitched_spec _).2.2.2 (by simp)

theorem switched_psr : (switched k j m).psr = if j = k then m.savedRecord else m.slot j := by
  have hslot : (nextResolved k m).slot j = (m.setSlot k m.savedRecord).slot j :=
    (nextResolved_changesOnly k m).2.2.1 j
  rw [slot_setSlot] at hslot
  rw [switched, markSwitched_psr, loadedFrom_psr, hslot]
  simp only [eq_comm]

theorem switched_holdsContext : (switched k j m).holdsContext (switched k j m).psr := by
  rw [switched, markSwitched_psr, markSwitched_holdsContext, loadedFrom_psr]
  exact loadedFrom_holdsContext j _

theorem switched_prc : (switched k j m).prc = m.successor := advanced_prc k m

end Switched

/-- Settles O10: the two resolutions succeed, and the rest is read off the sub-steps and their frame. -/
theorem contextSwitchSavesAndLoads : Obligations.ContextSwitchSavesAndLoads := by
  unfold Obligations.ContextSwitchSavesAndLoads
  intro m k j hlive hswitch hk hj
  have hstep : step m = .next (switched k j (beginDecision m)) :=
    (step_of_wantsSwitch hlive hswitch).trans (contextSwitch_eq_next (m := beginDecision m) hk hj)
  obtain ⟨hslot, hslots, helements, hmemory, hcontrol⟩ :=
    changesOnly_of_setSlot (switched_changesOnly k j (beginDecision m))
  exact ⟨_, hstep, hslot, hslots, switched_prc k j _, rfl, switched_psr k j _, switched_holdsContext k j _, rfl, rfl,
    rfl, rfl, rfl, hmemory, hcontrol, helements⟩

/-- Settles O11: the resolution of the current process fails, or that of the next one after the slot was written. -/
theorem contextSwitchFaults : Obligations.ContextSwitchFaults := by
  unfold Obligations.ContextSwitchFaults
  intro m v hlive hswitch
  refine ⟨fun hv => ⟨_, ?current, rfl, rfl, halted_stopsWith (saveResolved_changesOnly (beginDecision m))⟩,
    fun k hk hv => ?next⟩
  case current =>
    exact (step_of_wantsSwitch hlive hswitch).trans (contextSwitch_eq_fault (m := beginDecision m) hv)
  case next =>
    have hstep := (step_of_wantsSwitch hlive hswitch).trans (contextSwitch_eq_fault_next (m := beginDecision m) hk hv)
    obtain ⟨hslot, hslots, helements, hmemory, -, hparams⟩ :=
      changesOnly_of_setSlot (nextResolved_changesOnly k (beginDecision m))
    exact ⟨_, hstep, hslot, hslots, rfl, advanced_prc k _, rfl, rfl, rfl, rfl, hparams, hmemory,
      halted_sameExcept helements⟩

/-- A step that completes a context switch has found both slots. -/
theorem namesSlot_of_switch_next {m t : State} (hlive : m.live) (hswitch : m.wantsSwitch) (h : step m = .next t) :
    ∃ k j, m.namesSlot (m.prc.setWidth 8) k ∧ m.namesSlot (m.successor.setWidth 8) j := by
  rcases namesSlot_or_namesNoSlot m (m.prc.setWidth 8) with ⟨k, hk⟩ | ⟨v, hv⟩
  · rcases namesSlot_or_namesNoSlot m (m.successor.setWidth 8) with ⟨j, hj⟩ | ⟨v, hv⟩
    · exact ⟨k, j, hk, hj⟩
    · obtain ⟨u, hfault, -⟩ := (contextSwitchFaults m v hlive hswitch).2 k hk hv
      cases hfault.symm.trans h
  · obtain ⟨u, hfault, -⟩ := (contextSwitchFaults m v hlive hswitch).1 hv
    cases hfault.symm.trans h

/-- Settles O15: the switch keeps what requests the interrupt, and C is the negation of the new S, so that the next
decision is the entry where the new process is started and another switch where it is not. -/
theorem interruptSurvivesContextSwitch : Obligations.InterruptSurvivesContextSwitch := by
  unfold Obligations.InterruptSurvivesContextSwitch
  intro m t hlive hswitch hinterrupt hnext
  obtain ⟨k, j, hk, hj⟩ := namesSlot_of_switch_next hlive hswitch hnext
  obtain ⟨t', hnext', -, -, -, -, -, -, hs, hc, -, -, hmid, -, -, helements⟩ :=
    contextSwitchSavesAndLoads m k j hlive hswitch hk hj
  obtain rfl : t' = t := Host.Outcome.next.inj (hnext'.symm.trans hnext)
  have hr := kept_r helements (by decide)
  have hien := kept_ien helements (by decide)
  have hfgi := kept_fgi helements (by decide)
  have hfgo := kept_fgo helements (by decide)
  have hlive' : t'.live := ⟨hmid, (kept_gs helements (by decide)).trans hlive.2⟩
  refine ⟨hr, hien, hfgi, hfgo, fun hstarted => ?started, fun hstopped => ?stopped⟩
  case started =>
    have hrequest : t'.wantsInterrupt := by
      rw [State.wantsInterrupt, hr, hien, hfgi, hfgo]
      exact hinterrupt
    have hclear : t'.c = false := by rw [hc, ← hs, hstarted]; rfl
    exact (arbiterTakesOneBranch t' hlive').2.1 (by simp [hclear, hstarted]) hrequest
  case stopped => exact step_of_wantsSwitch hlive' (.inr hstopped)

end Sys2Proof.Machine
end

section
/-!
PROOFS. The interrupt entry (`60_exceptions.md` section 4): what it leaves when it completes and when it stops, and the
statements O12 and O13.
-/

namespace Sys2Proof.Machine

/-- What an interrupt entry that saves in slot `k` leaves. -/
def trapped (k : Slot) (m : State) : State := clearRequests (enterVector (savedIn k (latchInterrupt m)))

section Entry
variable {m : State}

theorem interruptEntry_eq_next {k : Slot} (hk : m.namesSlot (m.prc.setWidth 8) k) :
    interruptEntry m = .next (trapped k m) := by
  have hres : resolve m.prc (saveLive (latchInterrupt m)) = .ok (k, saveResolved (latchInterrupt m)) :=
    resolve_eq_ok (m := saveLive (latchInterrupt m))
      (namesSlot_of_changesOnly (saveLive_spec _).2 (namesSlot_of_changesOnly (latchInterrupt_spec m).2 hk))
  simp only [interruptEntry, hres, trapped, savedIn]

theorem interruptEntry_eq_fault {v : Word} (hv : m.namesNoSlot (m.prc.setWidth 8) v) :
    interruptEntry m = .fault (.processResolutionError v (saveResolved (latchInterrupt m)).halted) := by
  have hres : resolve m.prc (saveLive (latchInterrupt m)) =
      .error (.processResolutionError v (saveResolved (latchInterrupt m)).halted) :=
    resolve_eq_error (m := saveLive (latchInterrupt m))
      (namesNoSlot_of_changesOnly (saveLive_spec _).2 (namesNoSlot_of_changesOnly (latchInterrupt_spec m).2 hv))
  simp only [interruptEntry, hres]

theorem saveResolved_latch_changesOnly (m : State) :
    m.changesOnly [.ar, .r, .psr] (saveResolved (latchInterrupt m)) :=
  changesOnly_trans (changesOnly_mono (latchInterrupt_spec m).2 (by simp)) (saveResolved_changesOnly _) (by simp)

theorem trapped_changesOnly (k : Slot) (m : State) :
    (m.setSlot k m.savedRecord).changesOnly [.ar, .pc, .sc, .r, .sw, .ien, .fgi, .fgo, .psr] (trapped k m) := by
  have hsaved : (m.setSlot k m.savedRecord).changesOnly [.ar, .pc, .sc, .r, .sw, .ien, .fgi, .fgo, .psr]
      (savedIn k (latchInterrupt m)) :=
    changesOnly_mono (changesOnly_pcbWrite (saveResolved_latch_changesOnly m)) (by simp)
  have hvector := changesOnly_trans hsaved (enterVector_spec _) (by simp)
  exact changesOnly_trans hvector (clearRequests_spec _).2 (by simp)

/-- The entry keeps the record that the save left in the scratch register. -/
theorem trapped_psr (k : Slot) (m : State) : (trapped k m).psr = m.savedRecord :=
  calc (trapped k m).psr
    _ = (enterVector (savedIn k (latchInterrupt m))).psr := rfl
    _ = (savedIn k (latchInterrupt m)).psr := kept_psr (enterVector_spec _).1 (by decide)
    _ = m.savedRecord := rfl

/-- `INT_VECTOR_MODE` address: PC goes to the vector cell's address (rule R255). -/
theorem trapped_of_address {k : Slot} (h : m.params.intVectorMode = .address) :
    (trapped k m).pc = 0x09 ∧ (trapped k m).ar = (m.read (m.prc.setWidth 8)).setWidth 8 := by
  have hmode : (savedIn k (latchInterrupt m)).params.intVectorMode = .address := h
  rw [trapped, enterVector_address hmode]
  exact ⟨rfl, rfl⟩

/-- `INT_VECTOR_MODE` content: PC goes to where the vector cell points (rule R255). -/
theorem trapped_of_content {k : Slot} (h : m.params.intVectorMode = .content) :
    (trapped k m).pc = (m.read 0x09).setWidth 8 ∧ (trapped k m).ar = 0x09 := by
  have hmode : (savedIn k (latchInterrupt m)).params.intVectorMode = .content := h
  rw [trapped, enterVector_content hmode]
  exact ⟨rfl, rfl⟩

theorem step_of_wantsInterrupt (hlive : m.live) (hs : ¬ m.wantsSwitch) (hi : m.wantsInterrupt) :
    step m = interruptEntry (beginDecision m) := (arbiterTakesOneBranch m hlive).2.1 hs hi

end Entry

/-- Settles O12: the resolution succeeds, and the rest is read off the sub-steps and their frame. -/
theorem interruptEntrySavesAndTraps : Obligations.InterruptEntrySavesAndTraps := by
  unfold Obligations.InterruptEntrySavesAndTraps
  intro m k hlive hswitch hinterrupt hk
  have hstep : step m = .next (trapped k (beginDecision m)) :=
    (step_of_wantsInterrupt hlive hswitch hinterrupt).trans (interruptEntry_eq_next (m := beginDecision m) hk)
  obtain ⟨hslot, hslots, helements, hmemory, hcontrol⟩ :=
    changesOnly_of_setSlot (trapped_changesOnly k (beginDecision m))
  exact ⟨_, hstep, hslot, hslots, trapped_psr k _, trapped_of_address (m := beginDecision m),
    trapped_of_content (m := beginDecision m), rfl, rfl, rfl, rfl, rfl, rfl, rfl, hmemory, hcontrol, helements⟩

/-- Settles O13: the resolution fails with R latched, and what the arbiter reads is as before but for R. -/
theorem interruptEntryFaults : Obligations.InterruptEntryFaults := by
  unfold Obligations.InterruptEntryFaults
  intro m v hlive hswitch hinterrupt hv
  have hstep := (step_of_wantsInterrupt hlive hswitch hinterrupt).trans
    (interruptEntry_eq_fault (m := beginDecision m) hv)
  have hstops := halted_stopsWith (saveResolved_latch_changesOnly (beginDecision m))
  refine ⟨_, hstep, rfl, rfl, rfl, hstops, step_of_wantsInterrupt ⟨rfl, ?gs⟩ ?noSwitch (.inl rfl)⟩
  case gs => exact (kept_gs hstops.1 (by decide)).trans hlive.2
  case noSwitch =>
    rw [State.wantsSwitch, kept_c hstops.1 (by decide), kept_sw hstops.1 (by decide), kept_s hstops.1 (by decide)]
    exact hswitch

end Sys2Proof.Machine
end

section
/-!
PROOFS. The process-control instructions that resolve one process id (`44_process_control.md` sections 3, 4, 6 and 7):
LDP, AWT, RST and FORK, and the statements O14, O32, O33, O34, O37, O38 and O39.
-/

namespace Sys2Proof.Machine

/-! LDP. -/

section Ldp
variable {adr : Addr} {m : State}

/-- The handler of LDP that loads slot `k`. -/
def ldpHandler (k : Slot) (adr : Addr) (m : State) : State := loadedFrom k (dereference (operandP adr m))

theorem exec_ldp_of_namesSlot {k : Slot} (h : m.namesSlot adr k) :
    exec (.ldp adr) m = .next (endOfInstruction (ldpHandler k adr m)) := by
  have hres : resolveAR (operandP adr m) = .ok (k, dereference (operandP adr m)) := resolveAR_of_namesSlot h
  simp only [exec, execLdp, loadContext, hres, finish, ldpHandler, loadedFrom]

theorem exec_ldp_of_namesNoSlot {v : Word} (h : m.namesNoSlot adr v) :
    exec (.ldp adr) m = .fault (.processResolutionError v (dereference (operandP adr m)).halted) := by
  have hres : resolveAR (operandP adr m) =
      .error (.processResolutionError v (dereference (operandP adr m)).halted) := resolveAR_of_namesNoSlot h
  simp only [exec, execLdp, loadContext, hres]

theorem operandP_dereference_changesOnly (adr : Addr) (m : State) :
    m.changesOnly [.ar, .i] (dereference (operandP adr m)) :=
  changesOnly_trans (operandP_spec adr m).2.2 (dereference_changesOnly _) (by simp)

theorem ldpHandler_changesOnly (k : Slot) (adr : Addr) (m : State) :
    m.changesOnly [.ar, .pc, .ac, .e, .a0, .a1, .s, .psr, .i] (ldpHandler k adr m) :=
  changesOnly_trans (changesOnly_mono (operandP_dereference_changesOnly adr m) (by simp))
    (loadedFrom_changesOnly k _) (by simp)

end Ldp

/-- Settles O38: the resolution succeeds, and the context of the slot is loaded. -/
theorem ldpLoadsTheStoredContext : Obligations.LdpLoadsTheStoredContext := by
  unfold Obligations.LdpLoadsTheStoredContext
  intro adr m k hk
  refine ⟨_, exec_ldp_of_namesSlot hk, rfl, ?context, rfl, rfl, rfl, ?ends, ?frame⟩
  case context => exact loadedFrom_holdsContext k (dereference (operandP adr m))
  case ends => exact (endOfInstruction_spec (ldpHandler k adr m)).1
  case frame => exact finish_changesOnly (ldpHandler_changesOnly k adr m) (by simp +contextual) (by simp)

/-- Settles O14: the entry has saved the live context of `m` in the slot that LDP loads. -/
theorem ldpReturnsFromInterrupt : Obligations.LdpReturnsFromInterrupt := by
  unfold Obligations.LdpReturnsFromInterrupt
  intro m t u k hlive hswitch hinterrupt hk hnext hslot hparams hread
  obtain ⟨t', hnext', hsaved, -, -, -, -, -, -, -, -, -, -, -, hmemory, ⟨-, hparams'⟩, -⟩ :=
    interruptEntrySavesAndTraps m k hlive hswitch hinterrupt hk
  obtain rfl : t' = t := Host.Outcome.next.inj (hnext'.symm.trans hnext)
  have hnames : u.namesSlot (m.prc.setWidth 8) k := by
    rw [State.namesSlot, hparams, hparams', hread, hmemory]
    exact hk
  obtain ⟨w, hldp, -, ⟨hpc, hac, he, ha0, ha1⟩, hs, -, -, -, helements, -⟩ := ldpLoadsTheStoredContext _ u k hnames
  rw [hslot, hsaved] at hpc hac he ha0 ha1 hs
  exact ⟨w, hldp, hpc, hac, he, ha0, ha1, hs, kept_ien helements (by decide), kept_sw helements (by decide)⟩

/-! AWT. -/

section Awt
variable {ind : Bool} {adr : Addr} {m : State}

/-- The handler of AWT that looks at slot `k`. -/
def awtHandler (k : Slot) (ind : Bool) (adr : Addr) (m : State) : State :=
  spinIfStarted (pcbRead k (dereference (operandM ind adr m)))

theorem exec_awt_of_namesSlot {k : Slot} (h : m.namesSlot (effectiveOperand ind adr m) k) :
    exec (.awt ind adr) m = .next (endOfInstruction (awtHandler k ind adr m)) := by
  have hres : resolveAR (operandM ind adr m) = .ok (k, dereference (operandM ind adr m)) :=
    resolveAR_of_namesSlot (by
      rw [operandM_ar]
      exact namesSlot_of_changesOnly (operandM_spec ind adr m).2.2 h)
  simp only [exec, execAwt, hres, finish, awtHandler]

theorem exec_awt_of_namesNoSlot {v : Word} (h : m.namesNoSlot (effectiveOperand ind adr m) v) :
    exec (.awt ind adr) m = .fault (.processResolutionError v (dereference (operandM ind adr m)).halted) := by
  have hres : resolveAR (operandM ind adr m) =
      .error (.processResolutionError v (dereference (operandM ind adr m)).halted) :=
    resolveAR_of_namesNoSlot (by
      rw [operandM_ar]
      exact namesNoSlot_of_changesOnly (operandM_spec ind adr m).2.2 h)
  simp only [exec, execAwt, hres]

theorem operandM_dereference_changesOnly (ind : Bool) (adr : Addr) (m : State) :
    m.changesOnly [.ar, .i] (dereference (operandM ind adr m)) :=
  changesOnly_trans (operandM_spec ind adr m).2.2 (dereference_changesOnly _) (by simp)

section LookUp
variable (k : Slot) (m : State)

@[simp] theorem dereference_ar : (dereference m).ar = (m.read m.ar).setWidth 8 := rfl
@[simp] theorem dereference_pc : (dereference m).pc = m.pc := rfl
@[simp] theorem dereference_i : (dereference m).i = m.i := rfl
@[simp] theorem dereference_c : (dereference m).c = m.c := rfl
@[simp] theorem dereference_tm : (dereference m).tm = m.tm := rfl
@[simp] theorem pcbRead_psr : (pcbRead k m).psr = m.slot k := rfl
@[simp] theorem pcbRead_ar : (pcbRead k m).ar = m.ar := rfl
@[simp] theorem pcbRead_pc : (pcbRead k m).pc = m.pc := rfl
@[simp] theorem pcbRead_i : (pcbRead k m).i = m.i := rfl
@[simp] theorem pcbRead_c : (pcbRead k m).c = m.c := rfl
@[simp] theorem pcbRead_ns : (pcbRead k m).ns = m.ns := rfl
@[simp] theorem pcbRead_tm : (pcbRead k m).tm = m.tm := rfl

@[simp] theorem pcbWrite_psr : (pcbWrite k m).psr = m.psr := rfl
@[simp] theorem pcbWrite_ar : (pcbWrite k m).ar = m.ar := rfl
@[simp] theorem pcbWrite_i : (pcbWrite k m).i = m.i := rfl
@[simp] theorem pcbWrite_tp : (pcbWrite k m).tp = m.tp := rfl

end LookUp

section SpinIfStarted
variable (m : State)

@[simp] theorem spinIfStarted_pc : (spinIfStarted m).pc = if m.psr.s = true then m.pc - 1 else m.pc := by
  rw [← dec_eq]
  rfl

@[simp] theorem spinIfStarted_psr : (spinIfStarted m).psr = m.psr := rfl
@[simp] theorem spinIfStarted_ar : (spinIfStarted m).ar = m.ar := rfl
@[simp] theorem spinIfStarted_i : (spinIfStarted m).i = m.i := rfl
@[simp] theorem spinIfStarted_tm : (spinIfStarted m).tm = m.tm := rfl
@[simp] theorem spinIfStarted_c : (spinIfStarted m).c = (m.psr.s || m.c) := rfl

theorem spinIfStarted_changesOnly : m.changesOnly [.pc, .c] (spinIfStarted m) :=
  substep_changesOnly ⟨fun n hn => by cases n <;> simp at hn <;> rfl, fun _ => rfl, fun _ => rfl, rfl, rfl⟩

end SpinIfStarted

theorem awtHandler_changesOnly (k : Slot) (ind : Bool) (adr : Addr) (m : State) :
    m.changesOnly [.ar, .pc, .psr, .i, .c] (awtHandler k ind adr m) := by
  have hoperand := changesOnly_mono (operandM_dereference_changesOnly ind adr m)
      (K := [.ar, .pc, .psr, .i, .c]) (by simp)
  have hread := changesOnly_trans hoperand (pcbRead_spec k _).2 (by simp)
  exact changesOnly_trans hread (spinIfStarted_changesOnly _) (by simp)

end Awt

/-- Settles O37: the resolution succeeds, and the last sub-step of the handler looks at S of the record. -/
theorem awtWaitsForTheTarget : Obligations.AwtWaitsForTheTarget := by
  unfold Obligations.AwtWaitsForTheTarget
  intro ind adr m k hk
  refine ⟨_, exec_awt_of_namesSlot hk, ?psr, ?i, ?ar, ?pc, ?ends, ?frame⟩
  case psr => simp [awtHandler]
  case i => simp [awtHandler]
  case ar => simp [awtHandler]
  case pc => simp [awtHandler]
  case ends =>
    have hends := (endOfInstruction_spec (awtHandler k ind adr m)).1
    have hc : (awtHandler k ind adr m).c = if (m.slot k).s = true then true else m.c := by
      cases hs : (m.slot k).s <;> simp [awtHandler, hs]
    rw [hc] at hends
    simpa [awtHandler] using hends
  case frame => exact finish_changesOnly (awtHandler_changesOnly k ind adr m) (by simp +contextual) (by simp)

theorem endOfInstruction_holdsContext (m : State) (p : Psr) :
    (endOfInstruction m).holdsContext p ↔ m.holdsContext p := Iff.rfl

/-! RST. -/

section Rst
variable {m : State}

/-- X1 to X3 of RST: slot `k`'s record at its entry point, in the scratch register. -/
def rstRecord (k : Slot) (m : State) : State := resetRecord (pcbRead k (resolved m.prc (operandR m)))

/-- The handler of RST on slot `k`. -/
def rstHandler (k : Slot) (m : State) : State := resetLive (pcbWrite k (rstRecord k m))

theorem exec_rst_of_namesSlot {k : Slot} (h : m.namesSlot (m.prc.setWidth 8) k) :
    exec .rst m = .next (endOfInstruction (rstHandler k m)) := by
  have hres : resolve m.prc (operandR m) = .ok (k, resolved m.prc (operandR m)) :=
    resolve_eq_ok (namesSlot_of_changesOnly (operandR_spec m).2 h)
  simp only [exec, execRst, hres, finish, rstHandler, rstRecord]

theorem exec_rst_of_namesNoSlot {v : Word} (h : m.namesNoSlot (m.prc.setWidth 8) v) :
    exec .rst m = .fault (.processResolutionError v (resolved m.prc (operandR m)).halted) := by
  have hres : resolve m.prc (operandR m) = .error (.processResolutionError v (resolved m.prc (operandR m)).halted) :=
    resolve_eq_error (namesNoSlot_of_changesOnly (operandR_spec m).2 h)
  simp only [exec, execRst, hres]

theorem operandR_resolved_changesOnly (p : Nibble) (m : State) :
    m.changesOnly [.ar, .i] (resolved p (operandR m)) :=
  changesOnly_trans (changesOnly_mono (operandR_spec m).2 (by simp)) (resolved_changesOnly p _) (by simp)

section RstSubsteps
variable (k : Slot) (m : State)

theorem resetRecord_changesOnly : m.changesOnly [.psr] (resetRecord m) :=
  substep_changesOnly ⟨fun n hn => by cases n <;> simp at hn <;> rfl, fun _ => rfl, fun _ => rfl, rfl, rfl⟩

theorem rstRecord_psr : (rstRecord k m).psr = entryRecord (m.slot k).pc0 := rfl

theorem rstRecord_changesOnly : m.changesOnly [.ar, .psr, .i] (rstRecord k m) := by
  have hread := changesOnly_trans
    (changesOnly_mono (operandR_resolved_changesOnly m.prc m) (K := [.ar, .psr, .i]) (by simp)) (pcbRead_spec k _).2
    (by simp)
  exact changesOnly_trans hread (resetRecord_changesOnly _) (by simp)

/-- The stored record is written before the live registers are touched. -/
theorem rstWrite_changesOnly :
    (m.setSlot k (entryRecord (m.slot k).pc0)).changesOnly [.ar, .psr, .i] (pcbWrite k (rstRecord k m)) :=
  changesOnly_pcbWrite (rstRecord_changesOnly k m)

theorem resetLive_changesOnly : m.changesOnly [.pc, .ac, .e, .a0, .a1, .s] (resetLive m) := by
  unfold resetLive
  split
  · exact substep_changesOnly ⟨fun n hn => by cases n <;> simp at hn <;> rfl, fun _ => rfl, fun _ => rfl, rfl, rfl⟩
  · exact changesOnly_refl _ m

end RstSubsteps

theorem resetLive_of_false (h : m.params.rstLive = false) : resetLive m = m := by simp [resetLive, h]

/-- `RST_LIVE`: the live registers are the record's where the record stands at its entry point. -/
theorem resetLive_of_true {p : Addr} (h : m.params.rstLive = true) (hpsr : m.psr = entryRecord p) :
    (resetLive m).holdsContext (entryRecord p) ∧ (resetLive m).s = false := by
  rw [resetLive, if_pos h]
  exact ⟨⟨by rw [substep_pc, hpsr], rfl, rfl, rfl, rfl⟩, rfl⟩

section RstHandler
variable (k : Slot) (m : State)

theorem rstHandler_psr : (rstHandler k m).psr = entryRecord (m.slot k).pc0 := by
  rw [rstHandler, kept_psr (resetLive_changesOnly _).1 (by decide), pcbWrite_psr, rstRecord_psr]

theorem rstHandler_ar : (rstHandler k m).ar = (m.read (m.prc.setWidth 8)).setWidth 8 := by
  rw [rstHandler, kept_ar (resetLive_changesOnly _).1 (by decide)]
  rfl

theorem rstHandler_i : (rstHandler k m).i = false := by
  rw [rstHandler, kept_i (resetLive_changesOnly _).1 (by decide)]
  rfl

theorem rstHandler_changesOnly :
    (m.setSlot k (entryRecord (m.slot k).pc0)).changesOnly [.ar, .psr, .i, .pc, .ac, .e, .a0, .a1, .s]
      (rstHandler k m) :=
  changesOnly_trans (changesOnly_mono (rstWrite_changesOnly k m) (by simp)) (resetLive_changesOnly _) (by simp)

theorem rstHandler_tm : (rstHandler k m).tm = m.tm := kept_tm (rstHandler_changesOnly k m).1 (by decide)
theorem rstHandler_c : (rstHandler k m).c = m.c := kept_c (rstHandler_changesOnly k m).1 (by decide)

end RstHandler

end Rst

/-- Settles O34: the resolution succeeds; the frame is that of the state with the slot written, and only with
`RST_LIVE` is there one more sub-step. -/
theorem rstResetsTheStoredRecord : Obligations.RstResetsTheStoredRecord := by
  unfold Obligations.RstResetsTheStoredRecord
  intro m k hk
  have hframe : (m.setSlot k (entryRecord (m.slot k).pc0)).changesOnly
      [.ar, .psr, .i, .sc, .tm, .c, .pc, .ac, .e, .a0, .a1, .s] (endOfInstruction (rstHandler k m)) :=
    finish_changesOnly (rstHandler_changesOnly k m) (by simp +contextual) (by simp)
  obtain ⟨hslot, hslots, helements, hmemory, hcontrol⟩ := changesOnly_of_setSlot hframe
  refine ⟨_, exec_rst_of_namesSlot hk, hslot, hslots, ?psr, ?ar, ?i, ?ends, hmemory, hcontrol, fun hlive => ?keep,
    fun hlive => ?reset⟩
  case psr => rw [endOfInstruction_psr, rstHandler_psr]
  case ar => rw [endOfInstruction_ar, rstHandler_ar]
  case i => rw [endOfInstruction_i, rstHandler_i]
  case ends =>
    have hends := (endOfInstruction_spec (rstHandler k m)).1
    rwa [rstHandler_tm, rstHandler_c] at hends
  case keep =>
    rw [rstHandler, resetLive_of_false (m := pcbWrite k (rstRecord k m)) hlive]
    have hwrite : (m.setSlot k (entryRecord (m.slot k).pc0)).changesOnly [.ar, .psr, .i, .sc, .tm, .c]
        (endOfInstruction (pcbWrite k (rstRecord k m))) :=
      finish_changesOnly (rstWrite_changesOnly k m) (by simp +contextual) (by simp)
    exact (changesOnly_of_setSlot hwrite).2.2.1
  case reset =>
    obtain ⟨hcontext, hs⟩ := resetLive_of_true (m := pcbWrite k (rstRecord k m)) hlive
      ((pcbWrite_psr k _).trans (rstRecord_psr k m))
    exact ⟨(endOfInstruction_holdsContext _ _).mpr hcontext, hs, helements⟩

/-! FORK. -/

section Fork
variable {m : State}

/-- X2 and X3 of FORK: the live context in the scratch register, and with `FORK_SLOT` table the table word checked. -/
def forkLooked (m : State) : State :=
  match m.params.forkSlot with
  | .direct => saveLive (operandR m)
  | .table => resolved m.tp (saveLive (operandR m))

theorem forkLooked_of_direct (h : m.params.forkSlot = .direct) : forkLooked m = saveLive (operandR m) := by
  simp only [forkLooked, h]

theorem forkLooked_of_table (h : m.params.forkSlot = .table) : forkLooked m =
    resolved m.tp (saveLive (operandR m)) := by
  simp only [forkLooked, h]

theorem operandR_saveLive_changesOnly (m : State) : m.changesOnly [.psr, .i] (saveLive (operandR m)) :=
  changesOnly_trans (changesOnly_mono (operandR_spec m).2 (by simp)) (saveLive_spec _).2 (by simp)

theorem forkLooked_changesOnly (m : State) : m.changesOnly [.ar, .psr, .i] (forkLooked m) := by
  have hsaved := changesOnly_mono (operandR_saveLive_changesOnly m) (K := [.ar, .psr, .i]) (by simp)
  cases h : m.params.forkSlot with
  | direct => rwa [forkLooked_of_direct h]
  | table =>
    rw [forkLooked_of_table h]
    exact changesOnly_trans hsaved (resolved_changesOnly m.tp _) (by simp)

theorem forkLooked_psr (m : State) : (forkLooked m).psr = m.savedRecord := by
  cases h : m.params.forkSlot with
  | direct => rw [forkLooked_of_direct h]; rfl
  | table => rw [forkLooked_of_table h]; rfl

theorem forkLooked_i (m : State) : (forkLooked m).i = false := by
  cases h : m.params.forkSlot with
  | direct => rw [forkLooked_of_direct h]; rfl
  | table => rw [forkLooked_of_table h]; rfl

/-- The check of an index: it is a slot's, or it is reported (rule R86). -/
theorem slotOfIndex_of_eq {v : Nibble} {k : Slot} (h : v.toNat = k.toNat) : slotOfIndex v = .ok k := by
  have hk := k.isLt
  have hslot : v.setWidth 3 = k := BitVec.eq_of_toNat_eq (by simp; omega)
  rw [slotOfIndex, if_neg (by omega), hslot]

theorem slotOfIndex_of_le {v : Nibble} (h : 8 ≤ v.toNat) : slotOfIndex v = .error (v.setWidth 12) := if_pos h

theorem forkSlot_of_target {k : Slot} (h : m.forkTarget k) :
    forkSlot (saveLive (operandR m)) = .ok (k, forkLooked m) := by
  cases hparam : m.params.forkSlot with
  | direct =>
    have hindex : slotOfIndex (saveLive (operandR m)).tp = .ok k := by
      refine slotOfIndex_of_eq (v := m.tp) ?_
      simpa [State.forkTarget, hparam] using h
    simp [forkSlot, hparam, hindex, forkLooked]
  | table =>
    have hnames : m.namesSlot (m.tp.setWidth 8) k := by simpa [State.forkTarget, hparam] using h
    have hres : resolve (saveLive (operandR m)).tp (saveLive (operandR m)) =
        .ok (k, resolved m.tp (saveLive (operandR m))) :=
      resolve_eq_ok (namesSlot_of_changesOnly (operandR_saveLive_changesOnly m) hnames)
    simp [forkSlot, hparam, hres, forkLooked]

/-- The handler of FORK into slot `k`. -/
def forkHandler (k : Slot) (m : State) : State := countProcess (pcbWrite k (forkLooked m))

theorem exec_fork_of_target {k : Slot} (htp : m.tp ≠ 7) (h : m.forkTarget k) :
    exec .fork m = .next (endOfInstruction (forkHandler k m)) := by
  simp only [exec, execFork, operandR_tp, if_neg htp, forkSlot_of_target h, finish, forkHandler]

theorem exec_fork_of_full (htp : m.tp = 7) : exec .fork m = .fault (.capacityError 7 (operandR m).halted) := by
  simp only [exec, execFork, operandR_tp, htp, if_true]

theorem exec_fork_of_error {f : Fault} (htp : m.tp ≠ 7) (h : forkSlot (saveLive (operandR m)) = .error f) :
    exec .fork m = .fault f := by
  simp only [exec, execFork, operandR_tp, if_neg htp, h]

section ForkHandler
variable (k : Slot) (m : State)

theorem countProcess_changesOnly : m.changesOnly [.tp] (countProcess m) :=
  substep_changesOnly ⟨fun n hn => by cases n <;> simp at hn <;> rfl, fun _ => rfl, fun _ => rfl, rfl, rfl⟩

theorem forkHandler_changesOnly :
    (m.setSlot k m.savedRecord).changesOnly [.ar, .tp, .psr, .i] (forkHandler k m) := by
  have hwrite := changesOnly_pcbWrite (k := k) (forkLooked_changesOnly m)
  rw [forkLooked_psr] at hwrite
  exact changesOnly_trans (changesOnly_mono hwrite (by simp)) (countProcess_changesOnly _) (by simp)

@[simp] theorem forkHandler_ar : (forkHandler k m).ar = (forkLooked m).ar := rfl

theorem forkHandler_psr : (forkHandler k m).psr = m.savedRecord :=
  calc (forkHandler k m).psr
    _ = (forkLooked m).psr := rfl
    _ = m.savedRecord := forkLooked_psr m

theorem forkHandler_i : (forkHandler k m).i = false :=
  calc (forkHandler k m).i
    _ = (forkLooked m).i := rfl
    _ = false := forkLooked_i m

theorem forkHandler_tp : (forkHandler k m).tp = m.tp + 1 :=
  calc (forkHandler k m).tp
    _ = inc (forkLooked m).tp := rfl
    _ = inc m.tp := by rw [kept_tp (forkLooked_changesOnly m).1 (by decide)]
    _ = m.tp + 1 := inc_eq m.tp

end ForkHandler

end Fork

/-- Settles O32: FORK's slot is found, and the rest is read off the sub-steps and their frame. -/
theorem forkCopiesTheProcess : Obligations.ForkCopiesTheProcess := by
  unfold Obligations.ForkCopiesTheProcess
  intro m k htp htarget
  have hframe : (m.setSlot k m.savedRecord).changesOnly [.ar, .tp, .psr, .i, .sc, .tm, .c]
      (endOfInstruction (forkHandler k m)) :=
    finish_changesOnly (forkHandler_changesOnly k m) (by simp +contextual) (by simp)
  obtain ⟨hslot, hslots, helements, hmemory, hcontrol⟩ := changesOnly_of_setSlot hframe
  refine ⟨_, exec_fork_of_target htp htarget, hslot, hslots, ?psr, ?tp,
      fun hdirect => ?direct, fun htable => ?table, ?i,
    ?ends, hmemory, hcontrol, helements⟩
  case psr => rw [endOfInstruction_psr, forkHandler_psr]
  case tp => rw [endOfInstruction_tp, forkHandler_tp]
  case i => rw [endOfInstruction_i, forkHandler_i]
  case direct =>
    rw [endOfInstruction_ar, forkHandler_ar, forkLooked_of_direct hdirect]
    rfl
  case table =>
    rw [endOfInstruction_ar, forkHandler_ar, forkLooked_of_table htable]
    rfl
  case ends =>
    have hends := (endOfInstruction_spec (forkHandler k m)).1
    rwa [kept_tm (forkHandler_changesOnly k m).1 (by decide), kept_c (forkHandler_changesOnly k m).1 (by decide)]
      at hends

/-- Settles O33: the check of TP, the check of the index, the check of the table word. -/
theorem forkFaults : Obligations.ForkFaults := by
  unfold Obligations.ForkFaults
  refine fun m => ⟨fun htp => ?full, fun hdirect htp => ?direct, fun v htable htp hv => ?table⟩
  case full => exact ⟨_, exec_fork_of_full htp, rfl, halted_stopsWith (operandR_spec m).2⟩
  case direct =>
    have hfull : m.tp ≠ 7 := by
      rintro hseven
      simp [hseven] at htp
    have hslot : forkSlot (saveLive (operandR m)) =
        .error (.processResolutionError (m.tp.setWidth 12) (saveLive (operandR m)).halted) := by
      have hindex : slotOfIndex (saveLive (operandR m)).tp = .error (m.tp.setWidth 12) := slotOfIndex_of_le htp
      simp [forkSlot, hdirect, hindex]
    exact ⟨_, exec_fork_of_error hfull hslot, rfl, rfl, halted_stopsWith (operandR_saveLive_changesOnly m)⟩
  case table =>
    have hslot : forkSlot (saveLive (operandR m)) =
        .error (.processResolutionError v (resolved m.tp (saveLive (operandR m))).halted) := by
      have hres : resolve (saveLive (operandR m)).tp (saveLive (operandR m)) =
          .error (.processResolutionError v (resolved m.tp (saveLive (operandR m))).halted) :=
        resolve_eq_error (namesNoSlot_of_changesOnly (operandR_saveLive_changesOnly m) hv)
      simp [forkSlot, htable, hres]
    have hframe := forkLooked_changesOnly m
    rw [forkLooked_of_table htable] at hframe
    exact ⟨_, exec_fork_of_error htp hslot, rfl, rfl, rfl, halted_stopsWith hframe⟩

/-- Settles O39: each resolves right after its operand, so AR and I are all that was written. -/
theorem failedResolutionStopsTheInstruction : Obligations.FailedResolutionStopsTheInstruction := by
  unfold Obligations.FailedResolutionStopsTheInstruction
  refine fun m v => ⟨fun hv => ?rst, fun adr => ⟨fun ind hv => ?awt, fun hv => ?ldp⟩⟩
  case rst =>
    exact ⟨_, exec_rst_of_namesNoSlot hv, rfl, rfl, halted_stopsWith (operandR_resolved_changesOnly m.prc m)⟩
  case awt =>
    refine ⟨_, exec_awt_of_namesNoSlot hv, operandM_i ind adr m, ?_,
      halted_stopsWith (operandM_dereference_changesOnly ind adr m)⟩
    change (dereference (operandM ind adr m)).ar = _
    simp
  case ldp =>
    exact ⟨_, exec_ldp_of_namesNoSlot hv, rfl, rfl, halted_stopsWith (operandP_dereference_changesOnly adr m)⟩

end Sys2Proof.Machine
end

section
/-!
PROOFS. SWT (`44_process_control.md` section 5): the save of the live context, the resolution of the target, the load of
its context, and the statements O35 and O36.
-/

namespace Sys2Proof.Machine

/-! X7 to X11 on the state with the target's record in the scratch register. -/

/-- X8 to X11 of SWT: the context without S, the count, S, and the quantum. -/
def startTarget (m : State) : State := quantumReload (markStarted (countStarted (loadLiveButS m)))

section StartTarget
variable (m : State)

theorem loadLiveButS_changesOnly : m.changesOnly [.pc, .ac, .e, .a0, .a1] (loadLiveButS m) :=
  substep_changesOnly ⟨fun n hn => by cases n <;> simp at hn <;> rfl, fun _ => rfl, fun _ => rfl, rfl, rfl⟩

theorem countStarted_changesOnly : m.changesOnly [.ns] (countStarted m) :=
  substep_changesOnly ⟨fun n hn => by cases n <;> simp at hn <;> rfl, fun _ => rfl, fun _ => rfl, rfl, rfl⟩

theorem markStarted_changesOnly : m.changesOnly [.s] (markStarted m) :=
  substep_changesOnly ⟨fun n hn => by cases n <;> simp at hn <;> rfl, fun _ => rfl, fun _ => rfl, rfl, rfl⟩

theorem becomeCurrent_changesOnly (t : Nibble) : m.changesOnly [.prc] (becomeCurrent t m) :=
  substep_changesOnly ⟨fun n hn => by cases n <;> simp at hn <;> rfl, fun _ => rfl, fun _ => rfl, rfl, rfl⟩

theorem startTarget_changesOnly : m.changesOnly [.ar, .pc, .ac, .tm, .ns, .e, .s, .a0, .a1] (startTarget m) := by
  have hload := changesOnly_mono (loadLiveButS_changesOnly m)
    (K := [.ar, .pc, .ac, .tm, .ns, .e, .s, .a0, .a1]) (by simp)
  have hcount := changesOnly_trans hload (countStarted_changesOnly _) (by simp)
  have hmark := changesOnly_trans hcount (markStarted_changesOnly _) (by simp)
  exact changesOnly_trans hmark (quantumReload_spec _).2.2 (by simp)

@[simp] theorem startTarget_psr : (startTarget m).psr = m.psr := kept_psr (startTarget_changesOnly m).1 (by decide)
@[simp] theorem startTarget_i : (startTarget m).i = m.i := kept_i (startTarget_changesOnly m).1 (by decide)
@[simp] theorem startTarget_c : (startTarget m).c = m.c := kept_c (startTarget_changesOnly m).1 (by decide)
@[simp] theorem startTarget_prc : (startTarget m).prc = m.prc := kept_prc (startTarget_changesOnly m).1 (by decide)
@[simp] theorem startTarget_s : (startTarget m).s = true := rfl
@[simp] theorem startTarget_ar : (startTarget m).ar = 0x08 := rfl
@[simp] theorem startTarget_tm : (startTarget m).tm = (m.read 0x08).setWidth 8 := rfl

@[simp] theorem startTarget_ns : (startTarget m).ns = if m.psr.s = true then m.ns else m.ns - 1 := by
  rw [← dec_eq]
  rfl

theorem startTarget_holdsContext : (startTarget m).holdsContext m.psr := ⟨rfl, rfl, rfl, rfl, rfl⟩

end StartTarget

/-! The whole handler. -/

/-- The target of SWT: the low 4 bits of the operand (rule R188). -/
abbrev swtTarget (ind : Bool) (adr : Addr) (m : State) : Nibble := (effectiveOperand ind adr m).setWidth 4

/-- X1 to X4: the live context saved in slot `k`. -/
def swtSaved (k : Slot) (ind : Bool) (adr : Addr) (m : State) : State := savedIn k (operandM ind adr m)

/-- X5 and X6: the target is the current process, and its table word is checked. -/
def swtResolved (k : Slot) (ind : Bool) (adr : Addr) (m : State) : State :=
  resolved (swtTarget ind adr m) (becomeCurrent (swtTarget ind adr m) (swtSaved k ind adr m))

/-- The handler of SWT from slot `k` to slot `j`. -/
def swtHandler (k j : Slot) (ind : Bool) (adr : Addr) (m : State) : State :=
  startTarget (pcbRead j (swtResolved k ind adr m))

section Swt
variable (k j : Slot) (ind : Bool) (adr : Addr) (m : State)

@[simp] theorem operandM_savedRecord : (operandM ind adr m).savedRecord = m.savedRecord := by
  simp [State.savedRecord]

theorem swtSave_changesOnly : m.changesOnly [.ar, .psr, .i] (saveResolved (operandM ind adr m)) :=
  changesOnly_trans (changesOnly_mono (operandM_spec ind adr m).2.2 (by simp)) (saveResolved_changesOnly _) (by simp)

theorem swtSave_psr : (saveResolved (operandM ind adr m)).psr = m.savedRecord := by simp

theorem swtSaved_changesOnly : (m.setSlot k m.savedRecord).changesOnly [.ar, .psr, .i] (swtSaved k ind adr m) := by
  have hwrite := changesOnly_pcbWrite (k := k) (swtSave_changesOnly ind adr m)
  rwa [swtSave_psr] at hwrite

theorem becomeCurrent_swtSaved_changesOnly :
    (m.setSlot k m.savedRecord).changesOnly [.ar, .prc, .psr, .i]
      (becomeCurrent (swtTarget ind adr m) (swtSaved k ind adr m)) :=
  changesOnly_trans (changesOnly_mono (swtSaved_changesOnly k ind adr m) (by simp)) (becomeCurrent_changesOnly _ _)
    (by simp)

theorem swtResolved_changesOnly :
    (m.setSlot k m.savedRecord).changesOnly [.ar, .prc, .psr, .i] (swtResolved k ind adr m) :=
  changesOnly_trans (becomeCurrent_swtSaved_changesOnly k ind adr m) (resolved_changesOnly _ _) (by simp)

theorem swtResolved_psr : (swtResolved k ind adr m).psr = m.savedRecord :=
  calc (swtResolved k ind adr m).psr
    _ = (operandM ind adr m).savedRecord := rfl
    _ = m.savedRecord := operandM_savedRecord ind adr m

theorem swtResolved_i : (swtResolved k ind adr m).i = ind :=
  calc (swtResolved k ind adr m).i
    _ = (operandM ind adr m).i := rfl
    _ = ind := operandM_i ind adr m

theorem swtResolved_ar :
    (swtResolved k ind adr m).ar = (m.read ((swtTarget ind adr m).setWidth 8)).setWidth 8 := by
  rw [swtResolved, resolved_ar, (becomeCurrent_swtSaved_changesOnly k ind adr m).2.1]
  rfl

theorem swtHandler_changesOnly :
    (m.setSlot k m.savedRecord).changesOnly [.ar, .pc, .ac, .tm, .prc, .ns, .i, .e, .s, .a0, .a1, .psr]
      (swtHandler k j ind adr m) := by
  have hresolved := changesOnly_mono (swtResolved_changesOnly k ind adr m)
    (K := [.ar, .pc, .ac, .tm, .prc, .ns, .i, .e, .s, .a0, .a1, .psr]) (by simp)
  have hread := changesOnly_trans hresolved (pcbRead_spec j _).2 (by simp)
  exact changesOnly_trans hread (startTarget_changesOnly _) (by simp)

/-- The record loaded: the target's, or the one just saved where the target shares the slot. -/
theorem swtHandler_psr : (swtHandler k j ind adr m).psr = if j = k then m.savedRecord else m.slot j := by
  have hslot := (swtResolved_changesOnly k ind adr m).2.2.1 j
  rw [slot_setSlot] at hslot
  rw [swtHandler, startTarget_psr, pcbRead_psr, hslot]
  simp only [eq_comm]

theorem swtHandler_holdsContext : (swtHandler k j ind adr m).holdsContext (swtHandler k j ind adr m).psr := by
  rw [swtHandler, startTarget_psr]
  exact startTarget_holdsContext _

theorem swtHandler_ns :
    (swtHandler k j ind adr m).ns = if (swtHandler k j ind adr m).psr.s = true then m.ns else m.ns - 1 := by
  have hns : (pcbRead j (swtResolved k ind adr m)).ns = m.ns :=
    (pcbRead_ns j _).trans (kept_ns (swtResolved_changesOnly k ind adr m).1 (by decide))
  rw [swtHandler, startTarget_ns, startTarget_psr, hns]

theorem swtHandler_i : (swtHandler k j ind adr m).i = ind := by
  rw [swtHandler, startTarget_i, pcbRead_i, swtResolved_i]

theorem swtHandler_prc : (swtHandler k j ind adr m).prc = swtTarget ind adr m := startTarget_prc _

theorem swtHandler_c : (swtHandler k j ind adr m).c = m.c := kept_c (swtHandler_changesOnly k j ind adr m).1 (by decide)

theorem swtHandler_tm : (swtHandler k j ind adr m).tm = (m.read 0x08).setWidth 8 := by
  rw [swtHandler, startTarget_tm, pcbRead_read, (swtResolved_changesOnly k ind adr m).2.1]
  rfl

end Swt

section SwtOutcomes
variable {k : Slot} {ind : Bool} {adr : Addr} {m : State}

theorem swt_save_ok (hk : m.namesSlot (m.prc.setWidth 8) k) :
    resolve (operandM ind adr m).prc (saveLive (operandM ind adr m)) = .ok (k, saveResolved (operandM ind adr m)) := by
  rw [saveResolved, operandM_prc]
  exact resolve_eq_ok
    (namesSlot_of_changesOnly (saveLive_spec _).2 (namesSlot_of_changesOnly (operandM_spec ind adr m).2.2 hk))

theorem exec_swt_of_namesNoSlot {v : Word} (hv : m.namesNoSlot (m.prc.setWidth 8) v) :
    exec (.swt ind adr) m = .fault (.processResolutionError v (saveResolved (operandM ind adr m)).halted) := by
  have hres : resolve (operandM ind adr m).prc (saveLive (operandM ind adr m)) =
      .error (.processResolutionError v (saveResolved (operandM ind adr m)).halted) := by
    rw [saveResolved, operandM_prc]
    exact resolve_eq_error
      (namesNoSlot_of_changesOnly (saveLive_spec _).2 (namesNoSlot_of_changesOnly (operandM_spec ind adr m).2.2 hv))
  simp only [exec, execSwt, hres]

theorem adrNibble_operandM : adrNibble (operandM ind adr m).ar = swtTarget ind adr m := by
  rw [operandM_ar]
  rfl

theorem exec_swt_of_namesSlot {j : Slot} (hk : m.namesSlot (m.prc.setWidth 8) k)
    (hj : m.namesSlot ((swtTarget ind adr m).setWidth 8) j) :
    exec (.swt ind adr) m = .next (endOfInstruction (swtHandler k j ind adr m)) := by
  have hres : resolve (swtTarget ind adr m) (becomeCurrent (swtTarget ind adr m) (swtSaved k ind adr m)) =
      .ok (j, swtResolved k ind adr m) :=
    resolve_eq_ok (namesSlot_of_changesOnly (becomeCurrent_swtSaved_changesOnly k ind adr m) hj)
  rw [swtSaved, savedIn] at hres
  simp only [exec, execSwt, swt_save_ok hk, adrNibble_operandM, switchTo, hres, finish, swtHandler, startTarget]

theorem exec_swt_of_namesNoSlot_target {v : Word} (hk : m.namesSlot (m.prc.setWidth 8) k)
    (hv : m.namesNoSlot ((swtTarget ind adr m).setWidth 8) v) :
    exec (.swt ind adr) m = .fault (.processResolutionError v (swtResolved k ind adr m).halted) := by
  have hres : resolve (swtTarget ind adr m) (becomeCurrent (swtTarget ind adr m) (swtSaved k ind adr m)) =
      .error (.processResolutionError v (swtResolved k ind adr m).halted) :=
    resolve_eq_error (namesNoSlot_of_changesOnly (becomeCurrent_swtSaved_changesOnly k ind adr m) hv)
  rw [swtSaved, savedIn] at hres
  simp only [exec, execSwt, swt_save_ok hk, adrNibble_operandM, switchTo, hres]

end SwtOutcomes

/-- Settles O35: both resolutions succeed, and the rest is read off the sub-steps and their frame. -/
theorem swtSwitchesToTheTarget : Obligations.SwtSwitchesToTheTarget := by
  unfold Obligations.SwtSwitchesToTheTarget
  intro ind adr m k j hk hj
  have hframe : (m.setSlot k m.savedRecord).changesOnly
      [.ar, .pc, .ac, .tm, .prc, .ns, .sc, .i, .e, .c, .s, .a0, .a1, .psr]
      (endOfInstruction (swtHandler k j ind adr m)) :=
    finish_changesOnly (swtHandler_changesOnly k j ind adr m) (by simp +contextual) (by simp)
  obtain ⟨hslot, hslots, helements, hmemory, hcontrol⟩ := changesOnly_of_setSlot hframe
  refine ⟨_, exec_swt_of_namesSlot hk hj, hslot, hslots, ?prc, ?psr, ?context, ?s, ?ns, ?ar, ?i, ?ends, hmemory,
    hcontrol, helements⟩
  case prc => rw [endOfInstruction_prc, swtHandler_prc]
  case psr => rw [endOfInstruction_psr, swtHandler_psr]
  case context =>
    rw [endOfInstruction_psr, endOfInstruction_holdsContext]
    exact swtHandler_holdsContext k j ind adr m
  case s => rw [endOfInstruction_s, swtHandler, startTarget_s]
  case ns => rw [endOfInstruction_psr, endOfInstruction_ns, swtHandler_ns]
  case ar => rw [endOfInstruction_ar, swtHandler, startTarget_ar]
  case i => rw [endOfInstruction_i, swtHandler_i]
  case ends =>
    have hends := (endOfInstruction_spec (swtHandler k j ind adr m)).1
    rwa [swtHandler_tm, swtHandler_c] at hends

/-- Settles O36: the resolution of the current process fails after the save in the scratch register, or that of the
target after the slot was written and PRC set. -/
theorem swtFaults : Obligations.SwtFaults := by
  unfold Obligations.SwtFaults
  refine fun ind adr m v => ⟨fun hv => ?current, fun k hk hv => ?target⟩
  case current =>
    refine ⟨_, exec_swt_of_namesNoSlot hv, swtSave_psr ind adr m, operandM_i ind adr m, ?ar,
      halted_stopsWith (swtSave_changesOnly ind adr m)⟩
    calc (saveResolved (operandM ind adr m)).ar
      _ = ((operandM ind adr m).read ((operandM ind adr m).prc.setWidth 8)).setWidth 8 := saveResolved_ar _
      _ = (m.read (m.prc.setWidth 8)).setWidth 8 := by simp
  case target =>
    obtain ⟨hslot, hslots, helements, hmemory, -, hparams⟩ :=
      changesOnly_of_setSlot (swtResolved_changesOnly k ind adr m)
    exact ⟨_, exec_swt_of_namesNoSlot_target hk hv, hslot, hslots, swtResolved_psr k ind adr m, rfl,
      swtResolved_i k ind adr m, swtResolved_ar k ind adr m, rfl, rfl, hparams, hmemory, halted_sameExcept helements⟩

end Sys2Proof.Machine
end

section
/-!
PROOFS. A decision is a sequence of sub-steps (rules R9, R53, R210): the sub-step as a relation between states and as an
operation that commutes with other values in TR and TAR (decision D9), and the same for every instruction, for the two
protocols, and for a decision as a whole. The statements about the records, about the canonical form of the memory and
about TR and TAR rest on this one reading of the model.
-/

namespace Sys2Proof.Machine

/-! Other values in TR and TAR. -/

section WithUnused
variable (x : Word) (y : Nibble) (m : State)

@[simp] theorem withUnused_params : (m.withUnused x y).params = m.params := rfl
@[simp] theorem withUnused_read (a : Addr) : (m.withUnused x y).read a = m.read a := rfl
@[simp] theorem withUnused_tp : (m.withUnused x y).tp = m.tp := rfl
@[simp] theorem withUnused_prc : (m.withUnused x y).prc = m.prc := rfl
@[simp] theorem withUnused_ar : (m.withUnused x y).ar = m.ar := rfl
@[simp] theorem withUnused_ir : (m.withUnused x y).ir = m.ir := rfl
@[simp] theorem withUnused_s : (m.withUnused x y).s = m.s := rfl

/-- A change-set never names TR or TAR where the sub-step keeps them. -/
theorem changeSet_withUnused {t : State} (htr : t.tr = m.tr) (htar : t.tar = m.tar) :
    changeSet (m.withUnused x y) (t.withUnused x y) = changeSet m t := by
  refine List.filter_congr fun n _ => ?_
  cases n with
  | tr => simp [State.value, Contents.value, State.withUnused, Contents.withUnused, htr]
  | tar => simp [State.value, Contents.value, State.withUnused, Contents.withUnused, htar]
  | _ => rfl

theorem publish_withUnused (ph : Phase) {t : State} (htr : t.tr = m.tr) (htar : t.tar = m.tar) :
    publish ph (m.withUnused x y) (t.withUnused x y) = (publish ph m t).withUnused x y := by
  rw [publish, changeSet_withUnused x y m htr htar]
  cases ph <;> rfl

end WithUnused

/-! One sub-step. -/

/-- What every update that a sub-step of the engine makes has in common: it leaves the records, TR and TAR alone, keeps
the canonical form of the memory, and does not depend on TR and TAR. -/
def engineUpdate (f : State → State) : Prop :=
  ∀ m, (f m).trace = m.trace ∧ (m.mem.wf = true → (f m).mem.wf = true) ∧ (f m).tr = m.tr ∧ (f m).tar = m.tar ∧
    ∀ x y, f (m.withUnused x y) = (f m).withUnused x y

/-- `u` is `m` after one sub-step inside a decision. -/
def commitsSubstep (m u : State) : Prop := ∃ f, engineUpdate f ∧ u = substep f m

/-- `t` is `m` after the last sub-step of a decision. -/
def commitsLast (m t : State) : Prop := ∃ f, engineUpdate f ∧ t = lastSubstep f m

/-- `u` is `m` after some sub-steps inside a decision. -/
abbrev Substeps : State → State → Prop := Relation.ReflTransGen commitsSubstep

theorem substep_withUnused {f : State → State} (hf : engineUpdate f) (x : Word) (y : Nibble) (m : State) :
    substep f (m.withUnused x y) = (substep f m).withUnused x y := by
  obtain ⟨-, -, htr, htar, hcomm⟩ := hf m
  rw [substep, hcomm, publish_withUnused x y m _ htr htar, substep]

theorem lastSubstep_withUnused {f : State → State} (hf : engineUpdate f) (x : Word) (y : Nibble) (m : State) :
    lastSubstep f (m.withUnused x y) = (lastSubstep f m).withUnused x y := by
  obtain ⟨-, -, htr, htar, hcomm⟩ := hf m
  rw [lastSubstep, hcomm, publish_withUnused x y m _ htr htar, lastSubstep]

/-! Sequences of sub-steps. -/

/-- An operation that is a sequence of sub-steps, and does not depend on TR and TAR. -/
structure SubstepSequence (op : State → State) : Prop where
  substeps : ∀ m, Substeps m (op m)
  withUnused : ∀ x y m, op (m.withUnused x y) = (op m).withUnused x y

theorem sequence_substep {f : State → State}
    (hf : engineUpdate f := by exact fun _ => ⟨rfl, id, rfl, rfl, fun _ _ => rfl⟩) : SubstepSequence (substep f) where
  substeps _ := .single ⟨f, hf, rfl⟩
  withUnused := substep_withUnused hf

theorem sequence_id : SubstepSequence fun m => m where
  substeps _ := .refl
  withUnused _ _ _ := rfl

theorem sequence_comp {op next : State → State} (hnext : SubstepSequence next) (hop : SubstepSequence op) :
    SubstepSequence fun m => next (op m) where
  substeps m := (hop.substeps m).trans (hnext.substeps _)
  withUnused x y m := by rw [hop.withUnused, hnext.withUnused]

/-- An operation with an argument that was read from an earlier state. -/
theorem sequence_compWith {α : Type} {op : State → State} {next : α → State → State} {arg : State → α}
    (hnext : ∀ a, SubstepSequence (next a)) (harg : ∀ x y m, arg (State.withUnused x y m) = arg m)
    (hop : SubstepSequence op) : SubstepSequence fun m => next (arg m) (op m) where
  substeps m := (hop.substeps m).trans ((hnext _).substeps _)
  withUnused x y m := by rw [harg, hop.withUnused, (hnext _).withUnused]

/-! The operations of one sub-step. -/

theorem sequence_operandR : SubstepSequence operandR := sequence_substep
theorem sequence_operandP (adr : Addr) : SubstepSequence (operandP adr) := sequence_substep
theorem sequence_dereference : SubstepSequence dereference := sequence_substep
theorem sequence_selectEntry (p : Nibble) : SubstepSequence (selectEntry p) := sequence_substep
theorem sequence_saveLive : SubstepSequence saveLive := sequence_substep
theorem sequence_loadLive : SubstepSequence loadLive := sequence_substep
theorem sequence_pcbRead (k : Slot) : SubstepSequence (pcbRead k) := sequence_substep
theorem sequence_pcbWrite (k : Slot) : SubstepSequence (pcbWrite k) := sequence_substep
theorem sequence_quantumReload : SubstepSequence quantumReload := sequence_substep
theorem sequence_latchInterrupt : SubstepSequence latchInterrupt := sequence_substep
theorem sequence_advanceProcess : SubstepSequence advanceProcess := sequence_substep
theorem sequence_calLoad : SubstepSequence calLoad := sequence_substep
theorem sequence_calCompute : SubstepSequence calCompute := sequence_substep
theorem sequence_ldaLoad : SubstepSequence ldaLoad := sequence_substep
theorem sequence_brJump : SubstepSequence brJump := sequence_substep
theorem sequence_isaIncrement : SubstepSequence isaIncrement := sequence_substep
theorem sequence_markStopped : SubstepSequence markStopped := sequence_substep
theorem sequence_rollBack : SubstepSequence rollBack := sequence_substep
theorem sequence_countStopped (was : Bool) : SubstepSequence (countStopped was) := sequence_substep
theorem sequence_stopWhenAllStopped : SubstepSequence stopWhenAllStopped := sequence_substep
theorem sequence_requestSwitch : SubstepSequence requestSwitch := sequence_substep
theorem sequence_countProcess : SubstepSequence countProcess := sequence_substep
theorem sequence_resetRecord : SubstepSequence resetRecord := sequence_substep
theorem sequence_loadLiveButS : SubstepSequence loadLiveButS := sequence_substep
theorem sequence_countStarted : SubstepSequence countStarted := sequence_substep
theorem sequence_becomeCurrent (p : Nibble) : SubstepSequence (becomeCurrent p) := sequence_substep
theorem sequence_markStarted : SubstepSequence markStarted := sequence_substep
theorem sequence_spinIfStarted : SubstepSequence spinIfStarted := sequence_substep

/-- A store into one cell, which keeps the canonical form (rule R75). -/
theorem sequence_write (addr : State → Addr) (word : State → Word)
    (haddr : ∀ x y m, addr (State.withUnused x y m) = addr m)
        (hword : ∀ x y m, word (State.withUnused x y m) = word m) :
    SubstepSequence (substep fun m => m.write (addr m) (word m)) :=
  sequence_substep fun m => ⟨rfl, fun hwf => memory_write_wf hwf _ _, rfl, rfl, fun x y => by
    rw [haddr, hword]
    rfl⟩

theorem sequence_staStore : SubstepSequence staStore :=
  sequence_write (fun m => m.ar) (fun m => m.ac) (fun _ _ _ => rfl) fun _ _ _ => rfl

theorem sequence_isaStore : SubstepSequence isaStore :=
  sequence_write (fun m => m.ar) (fun m => m.dr) (fun _ _ _ => rfl) fun _ _ _ => rfl

/-- A skip on a condition that does not read TR or TAR. -/
theorem sequence_skipIf {cond : State → Bool}
    (hcond : ∀ x y m, cond (State.withUnused x y m) = cond m := by exact fun _ _ _ => rfl) :
    SubstepSequence (skipIf cond) :=
  sequence_substep fun m => ⟨rfl, id, rfl, rfl, fun x y => by
    simp only [hcond]
    rfl⟩

/-! The operations with a branch. -/

theorem sequence_operandM (ind : Bool) (adr : Addr) : SubstepSequence (operandM ind adr) := by
  have hdecode : SubstepSequence (substep fun m => { m with ar := adr, i := ind }) := sequence_substep
  cases ind with
  | false => exact hdecode
  | true => exact sequence_comp (next := dereference) sequence_dereference hdecode

/-- A branch on a condition that does not read TR or TAR. -/
theorem sequence_ite {cond : State → Bool} {op other : State → State}
    (hcond : ∀ x y m, cond (State.withUnused x y m) = cond m) (hop : SubstepSequence op)
    (hother : SubstepSequence other) : SubstepSequence fun m => if cond m then op m else other m where
  substeps m := by
    split
    · exact hop.substeps m
    · exact hother.substeps m
  withUnused x y m := by
    simp only [hcond]
    split
    · exact hop.withUnused x y m
    · exact hother.withUnused x y m

theorem sequence_resetLive : SubstepSequence resetLive :=
  sequence_ite (cond := fun m => m.params.rstLive) (fun _ _ _ => rfl) sequence_substep sequence_id

/-- IN5 by the two values of `INT_VECTOR_MODE`. -/
theorem enterVector_eq (m : State) :
    enterVector m =
      if decide (m.params.intVectorMode = .address) then substep (fun m => { m with pc := vectorCell }) m
      else substep (fun m => { m with ar := vectorCell, pc := low8 (m.read vectorCell) }) m := by
  cases h : m.params.intVectorMode with
  | address => rw [enterVector_address h]; rfl
  | content => rw [enterVector_content h]; rfl

theorem sequence_enterVector : SubstepSequence enterVector := by
  rw [funext enterVector_eq]
  exact sequence_ite (cond := fun m => decide (m.params.intVectorMode = .address)) (fun _ _ _ => rfl)
    sequence_substep sequence_substep

theorem sequence_fetch : SubstepSequence fetch :=
  sequence_comp (next := substep fun m => { m with pc := inc m.pc }) sequence_substep
    (sequence_comp (next := substep fun m => { m with ir := m.read m.ar }) sequence_substep
      (sequence_substep (f := fun m => { m with ar := m.pc })))

/-! A meaning that is a sequence of sub-steps: it completes with a last sub-step or stops between two. -/

/-- What a decision that started from `m` may answer. -/
def answersSubsteps (m : State) : Host.Outcome State Fault Refusal → Prop
  | .next t => ∃ u, Substeps m u ∧ commitsLast u t
  | .fault f => ∃ u, Substeps m u ∧ u.trace ≠ [] ∧ f.committed = u.halted
  | .refused _ => False

theorem answersSubsteps_trans {m u : State} {o : Host.Outcome State Fault Refusal} (h : Substeps m u)
    (ho : answersSubsteps u o) : answersSubsteps m o := by
  cases o with
  | next t =>
    obtain ⟨v, hv, hlast⟩ := ho
    exact ⟨v, h.trans hv, hlast⟩
  | fault f =>
    obtain ⟨v, hv, hstop⟩ := ho
    exact ⟨v, h.trans hv, hstop⟩
  | refused r => exact ho

/-- A meaning that is a sequence of sub-steps, never refused, and does not depend on TR and TAR. -/
structure RunsInSubsteps (meaning : State → Host.Outcome State Fault Refusal) : Prop where
  answers : ∀ m, answersSubsteps m (meaning m)
  withUnused : ∀ x y m, meaning (m.withUnused x y) = mapOutcome (State.withUnused x y) (meaning m)

theorem runs_last {f op : State → State} (hf : engineUpdate f) (hop : SubstepSequence op) :
    RunsInSubsteps fun m => .next (lastSubstep f (op m)) where
  answers m := ⟨op m, hop.substeps m, f, hf, rfl⟩
  withUnused x y m := by rw [hop.withUnused, lastSubstep_withUnused hf, mapOutcome]

/-- The end of an instruction (rule R139). -/
theorem runs_finish {op : State → State} (hop : SubstepSequence op) : RunsInSubsteps fun m => finish (op m) :=
  runs_last (fun _ => ⟨rfl, id, rfl, rfl, fun _ _ => rfl⟩) (sequence_comp sequence_substep hop)

theorem runs_oneStepR {f : State → State}
    (hf : engineUpdate f := by exact fun _ => ⟨rfl, id, rfl, rfl, fun _ _ => rfl⟩) : RunsInSubsteps (oneStepR f) :=
  runs_finish (sequence_comp (sequence_substep hf) sequence_operandR)

/-- A meaning after a sequence of sub-steps, with an argument read from the state before them. -/
theorem runs_compWith {α : Type} {op : State → State} {arg : State → α}
    {meaning : α → State → Host.Outcome State Fault Refusal} (hmeaning : ∀ a, RunsInSubsteps (meaning a))
    (harg : ∀ x y m, arg (State.withUnused x y m) = arg m) (hop : SubstepSequence op) :
    RunsInSubsteps fun m => meaning (arg m) (op m) where
  answers m := answersSubsteps_trans (hop.substeps m) ((hmeaning _).answers _)
  withUnused x y m := by rw [harg, hop.withUnused, (hmeaning _).withUnused]

theorem runs_comp {op : State → State} {meaning : State → Host.Outcome State Fault Refusal}
    (hmeaning : RunsInSubsteps meaning) (hop : SubstepSequence op) : RunsInSubsteps fun m => meaning (op m) :=
  runs_compWith (arg := fun _ => ()) (fun _ => hmeaning) (fun _ _ _ => rfl) hop

/-- A resolution, and what follows it. -/
def thenWith (r : Except Fault (Slot × State)) (next : Slot → State → Host.Outcome State Fault Refusal) :
    Host.Outcome State Fault Refusal :=
  match r with
  | .error f => .fault f
  | .ok (k, m) => next k m

/-- A resolution that fails stops after its sub-step on AR; one that succeeds goes on from there (rule R83). -/
theorem runs_resolveAR {next : Slot → State → Host.Outcome State Fault Refusal} (hnext : ∀ k, RunsInSubsteps (next k)) :
    RunsInSubsteps fun m => thenWith (resolveAR m) next where
  answers m := by
    rcases namesSlot_or_namesNoSlot m m.ar with ⟨k, hk⟩ | ⟨v, hv⟩
    · rw [resolveAR_of_namesSlot hk]
      exact answersSubsteps_trans (sequence_dereference.substeps m) ((hnext k).answers _)
    · rw [resolveAR_of_namesNoSlot hv]
      exact ⟨dereference m, sequence_dereference.substeps m, List.cons_ne_nil _ _, rfl⟩
  withUnused x y m := by
    rcases namesSlot_or_namesNoSlot m m.ar with ⟨k, hk⟩ | ⟨v, hv⟩
    · rw [resolveAR_of_namesSlot hk, resolveAR_of_namesSlot (m := m.withUnused x y) hk,
        sequence_dereference.withUnused]
      exact (hnext k).withUnused x y _
    · rw [resolveAR_of_namesNoSlot hv, resolveAR_of_namesNoSlot (m := m.withUnused x y) hv,
        sequence_dereference.withUnused]
      rfl

theorem runs_resolve {next : Slot → State → Host.Outcome State Fault Refusal} (p : Nibble)
    (hnext : ∀ k, RunsInSubsteps (next k)) : RunsInSubsteps fun m => thenWith (resolve p m) next :=
  runs_comp (runs_resolveAR hnext) (sequence_selectEntry p)

/-- A stop after a sequence of sub-steps that is not empty. -/
theorem runs_fault {op : State → State} {fault : State → Fault} (hop : SubstepSequence op)
    (htrace : ∀ m, (op m).trace ≠ []) (hcommitted : ∀ m, (fault m).committed = (op m).halted)
    (hfault : ∀ x y m, (.fault (fault (m.withUnused x y)) : Host.Outcome State Fault Refusal) =
      mapOutcome (State.withUnused x y) (.fault (fault m))) : RunsInSubsteps fun m => .fault (fault m) where
  answers m := ⟨op m, hop.substeps m, htrace m, hcommitted m⟩
  withUnused := hfault

theorem runs_ite {cond : State → Bool} {meaning other : State → Host.Outcome State Fault Refusal}
    (hcond : ∀ x y m, cond (State.withUnused x y m) = cond m) (hmeaning : RunsInSubsteps meaning)
    (hother : RunsInSubsteps other) : RunsInSubsteps fun m => if cond m then meaning m else other m where
  answers m := by
    split
    · exact hmeaning.answers m
    · exact hother.answers m
  withUnused x y m := by
    simp only [hcond]
    split
    · exact hmeaning.withUnused x y m
    · exact hother.withUnused x y m

end Sys2Proof.Machine
end

section
/-!
PROOFS. Every instruction, both protocols and a whole decision are sequences of sub-steps (rules R130, R138, R240).
The statements O42, O45 and O53 rest on it.
-/

namespace Sys2Proof.Machine

/-! The instructions that always complete: their handlers. -/

theorem sequence_calHandler (ind : Bool) (adr : Addr) : SubstepSequence (calHandler ind adr) :=
  sequence_comp (next := calCompute) sequence_calCompute
    (sequence_comp (next := calLoad) sequence_calLoad (sequence_operandM ind adr))

theorem sequence_isaHandler : SubstepSequence isaHandler :=
  sequence_comp (next := isaSkip) sequence_skipIf
    (sequence_comp (next := isaStore) sequence_isaStore sequence_isaIncrement)

theorem sequence_hltHandler : SubstepSequence hltHandler :=
  sequence_comp (next := requestSwitch) sequence_requestSwitch
    (sequence_comp (next := stopWhenAllStopped) sequence_stopWhenAllStopped
      (sequence_compWith (next := countStopped) (arg := fun m => m.s) sequence_countStopped (fun _ _ _ => rfl)
        (sequence_comp (next := rollBack) sequence_rollBack sequence_markStopped)))

theorem sequence_startTarget : SubstepSequence startTarget :=
  sequence_comp (next := quantumReload) sequence_quantumReload
    (sequence_comp (next := markStarted) sequence_markStarted
      (sequence_comp (next := countStarted) sequence_countStarted sequence_loadLiveButS))

theorem sequence_loadedFrom (k : Slot) : SubstepSequence (loadedFrom k) :=
  sequence_comp (next := loadLive) sequence_loadLive (sequence_pcbRead k)

theorem runs_skipR {cond : State → Bool}
    (hcond : ∀ x y m, cond (State.withUnused x y m) = cond m := by exact fun _ _ _ => rfl) :
    RunsInSubsteps fun m => finish (skipIf cond (operandR m)) :=
  runs_finish (sequence_comp (sequence_skipIf hcond) sequence_operandR)

/-! The instructions that resolve a process id. -/

theorem exec_ldp_eq (adr : Addr) (m : State) :
    exec (.ldp adr) m = thenWith (resolveAR (operandP adr m)) fun k m1 => finish (loadedFrom k m1) := by
  cases h : resolveAR (operandP adr m) <;> simp only [exec, execLdp, loadContext, h, thenWith, loadedFrom]

theorem runs_ldp (adr : Addr) : RunsInSubsteps (exec (.ldp adr)) := by
  rw [funext (exec_ldp_eq adr)]
  exact runs_comp (runs_resolveAR fun k => runs_finish (sequence_loadedFrom k)) (sequence_operandP adr)

/-- AWT after its resolution. -/
def awtNext (k : Slot) (m : State) : Host.Outcome State Fault Refusal := finish (spinIfStarted (pcbRead k m))

theorem runs_awtNext (k : Slot) : RunsInSubsteps (awtNext k) :=
  runs_finish (sequence_comp (next := spinIfStarted) sequence_spinIfStarted (sequence_pcbRead k))

theorem runs_awt (ind : Bool) (adr : Addr) : RunsInSubsteps (exec (.awt ind adr)) :=
  runs_comp (meaning := fun m => thenWith (resolveAR m) awtNext) (runs_resolveAR runs_awtNext)
    (sequence_operandM ind adr)

/-- RST after its resolution. -/
def rstNext (k : Slot) (m : State) : Host.Outcome State Fault Refusal :=
  finish (resetLive (pcbWrite k (resetRecord (pcbRead k m))))

theorem runs_rstNext (k : Slot) : RunsInSubsteps (rstNext k) :=
  runs_finish
    (sequence_comp (next := resetLive) sequence_resetLive
      (sequence_comp (next := pcbWrite k) (sequence_pcbWrite k)
        (sequence_comp (next := resetRecord) sequence_resetRecord (sequence_pcbRead k))))

theorem runs_rst : RunsInSubsteps (exec .rst) :=
  runs_compWith (arg := fun m => m.prc) (meaning := fun p m => thenWith (resolve p m) rstNext)
    (fun p => runs_resolve p runs_rstNext) (fun _ _ _ => rfl) sequence_operandR

/-- SWT after the resolution of the target. -/
def swtLoad (k : Slot) (m : State) : Host.Outcome State Fault Refusal := finish (startTarget (pcbRead k m))

/-- SWT after the resolution of the current process. -/
def swtNext (t : Nibble) (k : Slot) (m : State) : Host.Outcome State Fault Refusal :=
  thenWith (resolve t (becomeCurrent t (pcbWrite k m))) swtLoad

theorem runs_swtNext (t : Nibble) (k : Slot) : RunsInSubsteps (swtNext t k) :=
  runs_comp (op := fun m => becomeCurrent t (pcbWrite k m))
    (runs_resolve t fun j => runs_finish
        (sequence_comp (next := startTarget) sequence_startTarget (sequence_pcbRead j)))
    (sequence_comp (next := becomeCurrent t) (sequence_becomeCurrent t) (sequence_pcbWrite k))

/-- SWT after its operand. -/
def swtFrom (m : State) : Host.Outcome State Fault Refusal :=
  thenWith (resolve m.prc (saveLive m)) (swtNext (adrNibble m.ar))

theorem exec_swt_eq (ind : Bool) (adr : Addr) (m : State) : exec (.swt ind adr) m = swtFrom (operandM ind adr m) := by
  cases hcurrent : resolve (operandM ind adr m).prc (saveLive (operandM ind adr m)) with
  | error f => simp only [exec, execSwt, swtFrom, thenWith, hcurrent]
  | ok r =>
    obtain ⟨k, m1⟩ := r
    cases htarget : resolve (adrNibble (operandM ind adr m).ar)
        (becomeCurrent (adrNibble (operandM ind adr m).ar) (pcbWrite k m1)) <;>
      simp only [exec, execSwt, switchTo, swtFrom, swtNext, swtLoad, startTarget, thenWith, hcurrent, htarget]

theorem runs_swt (ind : Bool) (adr : Addr) : RunsInSubsteps (exec (.swt ind adr)) := by
  rw [funext (exec_swt_eq ind adr)]
  exact runs_comp (meaning := swtFrom)
    (runs_compWith (arg := fun m => (m.prc, adrNibble m.ar))
        (meaning := fun a m => thenWith (resolve a.1 m) (swtNext a.2))
      (fun a => runs_resolve a.1 (runs_swtNext a.2)) (fun _ _ _ => rfl) sequence_saveLive)
    (sequence_operandM ind adr)

/-! FORK, whose slot is looked up in one of two ways. -/

/-- FORK with its slot. -/
def forkNext (k : Slot) (m : State) : Host.Outcome State Fault Refusal := finish (countProcess (pcbWrite k m))

theorem runs_forkNext (k : Slot) : RunsInSubsteps (forkNext k) :=
  runs_finish (sequence_comp (next := countProcess) sequence_countProcess (sequence_pcbWrite k))

/-- FORK with `FORK_SLOT` direct, where TP is `p`. -/
def forkDirect (p : Nibble) (m : State) : Host.Outcome State Fault Refusal :=
  match slotOfIndex p with
  | .error v => .fault (.processResolutionError v (saveLive m).halted)
  | .ok k => forkNext k (saveLive m)

theorem runs_forkDirect (p : Nibble) : RunsInSubsteps (forkDirect p) := by
  cases h : slotOfIndex p with
  | ok k =>
    rw [show forkDirect p = fun m => forkNext k (saveLive m) from funext fun m => by simp only [forkDirect, h]]
    exact runs_comp (runs_forkNext k) sequence_saveLive
  | error v =>
    rw [show forkDirect p = fun m => .fault (.processResolutionError v (saveLive m).halted) from
      funext fun m => by simp only [forkDirect, h]]
    exact runs_fault sequence_saveLive (fun _ => List.cons_ne_nil _ _) (fun _ => rfl) fun x y m => by
      rw [sequence_saveLive.withUnused]
      rfl

/-- FORK with `FORK_SLOT` table, where TP is `p`. -/
def forkTable (p : Nibble) (m : State) : Host.Outcome State Fault Refusal := thenWith (resolve p (saveLive m)) forkNext

theorem runs_forkTable (p : Nibble) : RunsInSubsteps (forkTable p) :=
  runs_comp (meaning := fun m => thenWith (resolve p m) forkNext) (runs_resolve p runs_forkNext) sequence_saveLive

/-- FORK after its operand. -/
def forkFrom (m : State) : Host.Outcome State Fault Refusal :=
  if decide (m.params.forkSlot = .direct) then forkDirect m.tp m else forkTable m.tp m

theorem runs_forkFrom : RunsInSubsteps forkFrom :=
  runs_ite (cond := fun m => decide (m.params.forkSlot = .direct)) (fun _ _ _ => rfl)
    (runs_compWith (arg := fun m => m.tp) runs_forkDirect (fun _ _ _ => rfl) sequence_id)
    (runs_compWith (arg := fun m => m.tp) runs_forkTable (fun _ _ _ => rfl) sequence_id)

theorem forkFrom_eq (m : State) : forkFrom m = thenWith (forkSlot (saveLive m)) forkNext := by
  cases hparam : m.params.forkSlot with
  | direct =>
    cases hslot : slotOfIndex (saveLive m).tp <;>
      simp [forkFrom, forkDirect, forkSlot, hparam, hslot, show slotOfIndex m.tp = _ from hslot, thenWith]
  | table => simp [forkFrom, forkTable, forkSlot, hparam, show m.tp = (saveLive m).tp from rfl]

/-- FORK stops where TP is 7, after its operand. -/
theorem exec_fork_eq (m : State) :
    exec .fork m =
      if decide (m.tp = 7) then .fault (.capacityError (operandR m).tp (operandR m).halted) else
          forkFrom (operandR m) := by
  rw [forkFrom_eq]
  by_cases htp : m.tp = 7
  · simp [exec, execFork, htp]
  · simp only [exec, execFork, operandR_tp, htp, if_false, decide_false, Bool.false_eq_true]
    rfl

theorem runs_fork : RunsInSubsteps (exec .fork) := by
  rw [funext exec_fork_eq]
  exact runs_ite (cond := fun m => decide (m.tp = 7)) (fun _ _ _ => rfl)
    (runs_fault sequence_operandR (fun _ => List.cons_ne_nil _ _) (fun _ => rfl) fun x y m => by
      rw [sequence_operandR.withUnused]
      rfl)
    (runs_comp runs_forkFrom sequence_operandR)

/-! Every instruction. -/

theorem exec_runs (i : Instr) : RunsInSubsteps (exec i) := by
  cases i with
  | cal ind adr => exact runs_finish (sequence_calHandler ind adr)
  | lda ind adr => exact runs_finish (sequence_comp (next := ldaLoad) sequence_ldaLoad (sequence_operandM ind adr))
  | sta ind adr => exact runs_finish (sequence_comp (next := staStore) sequence_staStore (sequence_operandM ind adr))
  | br ind adr => exact runs_finish (sequence_comp (next := brJump) sequence_brJump (sequence_operandM ind adr))
  | isa ind adr =>
      exact runs_finish (sequence_comp (next := isaHandler) sequence_isaHandler (sequence_operandM ind adr))
  | swt ind adr => exact runs_swt ind adr
  | awt ind adr => exact runs_awt ind adr
  | ldp adr => exact runs_ldp adr
  | fork => exact runs_fork
  | rst => exact runs_rst
  | hlt => exact runs_finish (sequence_comp (next := hltHandler) sequence_hltHandler sequence_operandR)
  | utm => exact runs_finish (sequence_comp (next := quantumReload) sequence_quantumReload sequence_operandR)
  | spa =>
    exact runs_finish (sequence_comp (next := skipIf cellIsAc) sequence_skipIf
      (sequence_compWith (arg := fun m => m.prc) sequence_selectEntry (fun _ _ _ => rfl) sequence_operandR))
  | sza => exact runs_skipR
  | sze => exact runs_skipR
  | ski => exact runs_skipR
  | sko => exact runs_skipR
  | _ => exact runs_oneStepR

end Sys2Proof.Machine
end

section
/-!
PROOFS. Both protocols and a whole decision are sequences of sub-steps (rules R130, R240), and the statements O45 and
O53 that follow from it.
-/

namespace Sys2Proof.Machine

/-! The two protocols. -/

/-- The context switch from CS6 on. -/
def switchNext (k : Slot) (m : State) : Host.Outcome State Fault Refusal := .next (markSwitched (loadedFrom k m))

theorem runs_switchNext (k : Slot) : RunsInSubsteps (switchNext k) :=
  runs_last (fun _ => ⟨rfl, id, rfl, rfl, fun _ _ => rfl⟩) (sequence_loadedFrom k)

theorem runs_switchIn : RunsInSubsteps switchIn :=
  runs_comp (meaning := fun m => thenWith (resolve m.prc m) switchNext)
    (runs_compWith (arg := fun m => m.prc) (meaning := fun p m => thenWith (resolve p m) switchNext)
      (fun p => runs_resolve p runs_switchNext) (fun _ _ _ => rfl) sequence_id)
    (sequence_comp (next := quantumReload) sequence_quantumReload sequence_advanceProcess)

theorem runs_contextSwitch : RunsInSubsteps contextSwitch :=
  runs_compWith (arg := fun m => m.prc)
    (meaning := fun p m => thenWith (resolve p m) fun k m1 => switchIn (pcbWrite k m1))
    (fun p => runs_resolve p fun k => runs_comp runs_switchIn (sequence_pcbWrite k))
        (fun _ _ _ => rfl) sequence_saveLive

/-- The interrupt entry from IN4 on. -/
def entryNext (k : Slot) (m : State) : Host.Outcome State Fault Refusal :=
  .next (clearRequests (enterVector (pcbWrite k m)))

theorem runs_entryNext (k : Slot) : RunsInSubsteps (entryNext k) :=
  runs_last (fun _ => ⟨rfl, id, rfl, rfl, fun _ _ => rfl⟩)
    (sequence_comp (next := enterVector) sequence_enterVector (sequence_pcbWrite k))

theorem runs_interruptEntry : RunsInSubsteps interruptEntry :=
  runs_compWith (arg := fun m => m.prc) (meaning := fun p m => thenWith (resolve p m) entryNext)
    (fun p => runs_resolve p runs_entryNext) (fun _ _ _ => rfl)
    (sequence_comp (next := saveLive) sequence_saveLive sequence_latchInterrupt)

/-! Fetch, decode, dispatch. -/

/-- A fetch-execute decision that fetches the word `w`. -/
def executeWord (w : Word) (m : State) : Host.Outcome State Fault Refusal :=
  match decode w with
  | .ok i => exec i (fetch m)
  | .error _ => illegalWord (fetch m)

theorem runs_executeWord (w : Word) : RunsInSubsteps (executeWord w) := by
  cases h : decode w with
  | ok i =>
    rw [show executeWord w = fun m => exec i (fetch m) from funext fun m => by simp only [executeWord, h]]
    exact runs_comp (exec_runs i) sequence_fetch
  | error e =>
    rw [show executeWord w = fun m => .fault (.decodeError (fetch m).ir (fetch m).halted) from
      funext fun m => by simp only [executeWord, h, illegalWord]]
    exact runs_fault sequence_fetch (fun _ => List.cons_ne_nil _ _) (fun _ => rfl) fun x y m => by
      rw [sequence_fetch.withUnused]
      rfl

theorem runs_fetchExecute : RunsInSubsteps fetchExecute :=
  runs_compWith (arg := fun m => m.read m.pc) runs_executeWord (fun _ _ _ => rfl) sequence_id

/-! One decision. -/

/-- The decision on one branch of the arbiter. -/
def decisionOn : Branch → State → Host.Outcome State Fault Refusal
  | .contextSwitch => contextSwitch
  | .ioInterrupt => interruptEntry
  | .execute => fetchExecute

theorem decision_eq (m : State) : decision m = decisionOn (arbiter m) m := by
  unfold decision
  cases arbiter m <;> rfl

theorem runs_decisionOn (b : Branch) : RunsInSubsteps (decisionOn b) := by
  cases b with
  | contextSwitch => exact runs_contextSwitch
  | ioInterrupt => exact runs_interruptEntry
  | execute => exact runs_fetchExecute

theorem runs_decision : RunsInSubsteps decision := by
  rw [funext decision_eq]
  exact runs_compWith (arg := arbiter) runs_decisionOn (fun _ _ _ => rfl) sequence_id

/-- A step from other values in TR and TAR: the gate reads neither, and the decision is a sequence of sub-steps. -/
theorem step_withUnused (m : State) (x : Word) (y : Nibble) :
    step (m.withUnused x y) = mapOutcome (State.withUnused x y) (step m) := by
  have hgate : gate (m.withUnused x y) = gate m := rfl
  rw [step, step, hgate]
  cases gate m with
  | busy => rfl
  | stopped => rfl
  | decide => exact runs_decision.withUnused x y (beginDecision m)

/-! What a sequence of sub-steps leaves alone. -/

theorem substeps_unused {m u : State} (h : Substeps m u) : u.tr = m.tr ∧ u.tar = m.tar := by
  induction h with
  | refl => exact ⟨rfl, rfl⟩
  | tail _ hstep ih =>
    obtain ⟨f, hf, rfl⟩ := hstep
    obtain ⟨-, -, htr, htar, -⟩ := hf _
    exact ⟨htr.trans ih.1, htar.trans ih.2⟩

theorem substeps_wf {m u : State} (h : Substeps m u) (hwf : m.mem.wf = true) : u.mem.wf = true := by
  induction h with
  | refl => exact hwf
  | tail _ hstep ih =>
    obtain ⟨f, hf, rfl⟩ := hstep
    obtain ⟨-, hkeeps, -⟩ := hf _
    exact hkeeps ih

/-- What a step answers: it was stopped by GS 0, or it was a sequence of sub-steps and a last one. -/
theorem step_next_cases {m t : State} (h : step m = .next t) :
    (m.mid = false ∧ m.gs = false ∧ t = stopRun m) ∨
      m.live ∧ ∃ u, Substeps (beginDecision m) u ∧ commitsLast u t := by
  cases hmid : m.mid with
  | true => simp [step, gate, hmid] at h
  | false =>
    cases hgs : m.gs with
    | false =>
      rw [step_of_stopped hmid hgs] at h
      cases h
      exact .inl ⟨rfl, rfl, rfl⟩
    | true =>
      have hanswer := runs_decision.answers (beginDecision m)
      rw [← step_of_live ⟨hmid, hgs⟩, h] at hanswer
      exact .inr ⟨⟨hmid, hgs⟩, hanswer⟩

/-- What a step that stops leaves: the state between two sub-steps, halted. -/
theorem step_fault_cases {m : State} {f : Fault} (h : step m = .fault f) :
    ∃ u, Substeps (beginDecision m) u ∧ u.trace ≠ [] ∧ f.committed = u.halted := by
  cases hmid : m.mid with
  | true => simp [step, gate, hmid] at h
  | false =>
    cases hgs : m.gs with
    | false =>
      rw [step_of_stopped hmid hgs] at h
      cases h
    | true =>
      have hanswer := runs_decision.answers (beginDecision m)
      rwa [← step_of_live ⟨hmid, hgs⟩, h] at hanswer

/-- Settles O45: the outcome by the commutation of every sub-step, the two registers by what every sub-step keeps. -/
theorem unusedRegistersInfluenceNothing : Obligations.UnusedRegistersInfluenceNothing := by
  unfold Obligations.UnusedRegistersInfluenceNothing
  refine ⟨step_withUnused, fun m t hnext => ?_⟩
  rcases step_next_cases hnext with ⟨-, -, rfl⟩ | ⟨-, u, hsubsteps, f, hf, rfl⟩
  · exact ⟨rfl, rfl⟩
  · obtain ⟨htr, htar⟩ := substeps_unused hsubsteps
    obtain ⟨-, -, htr', htar', -⟩ := hf u
    exact ⟨htr'.trans htr, htar'.trans htar⟩

/-! The records of a decision. -/

/-- The records published so far of a decision that started from `start` are right, all mid-instruction, and end with
what the engine holds now. -/
def recordsSoFar (start : Contents) (m : State) : Prop :=
  recordsRight start m.trace ∧ contentsAfter start m.trace = m.toContents ∧ ∀ p ∈ m.trace, p.phase = .midInstruction

theorem recordsSoFar_beginDecision (m : State) : recordsSoFar m.toContents (beginDecision m) :=
  ⟨trivial, rfl, fun _ hp => nomatch hp⟩

theorem recordsSoFar_substeps {start : Contents} {m u : State} (h : Substeps m u) (hm : recordsSoFar start m) :
    recordsSoFar start u := by
  induction h with
  | refl => exact hm
  | tail _ hstep ih =>
    obtain ⟨f, hf, rfl⟩ := hstep
    obtain ⟨hright, hcontents, hphases⟩ := ih
    obtain ⟨htrace, -⟩ := hf _
    obtain ⟨hright', hcontents'⟩ := substep_recordsRight hright hcontents htrace
    refine ⟨hright', hcontents', ?_⟩
    rw [substep_trace, htrace]
    exact List.forall_mem_cons.mpr ⟨rfl, hphases⟩

/-- Settles O53: every sub-step adds a right record to right ones; the last sub-step adds the one that is
end-of-instruction, and a stop adds none. -/
theorem pacerMarksTheEndOfEveryDecision : Obligations.PacerMarksTheEndOfEveryDecision := by
  unfold Obligations.PacerMarksTheEndOfEveryDecision
  intro m hgs
  refine ⟨fun t hnext => ?next, fun f hfault => ?fault⟩
  case next =>
    rcases step_next_cases hnext with ⟨-, hstopped, -⟩ | ⟨-, u, hsubsteps, f, hf, rfl⟩
    · simp [hgs] at hstopped
    · obtain ⟨hright, hcontents, hphases⟩ := recordsSoFar_substeps hsubsteps (recordsSoFar_beginDecision m)
      obtain ⟨htrace, -⟩ := hf u
      have hlast := lastSubstep_trace f u
      rw [htrace] at hlast
      exact ⟨_, u.trace, hlast, rfl, rfl, rfl, lastSubstep_acknowledged f u, hphases,
        (lastSubstep_recordsRight hright hcontents htrace).1⟩
  case fault =>
    obtain ⟨u, hsubsteps, hpublished, hcommitted⟩ := step_fault_cases hfault
    obtain ⟨hright, hcontents, hphases⟩ := recordsSoFar_substeps hsubsteps (recordsSoFar_beginDecision m)
    rw [hcommitted]
    refine ⟨hpublished, hphases, hright, ?_⟩
    change u.halted.toContents = { contentsAfter m.toContents u.trace with run := false, mid := false }
    rw [hcontents]
    rfl

end Sys2Proof.Machine
end

section
/-!
PROOFS. What an instruction can do, said once for all 33: the elements it writes, the cell it writes, how it ends, and
where its entry points come from (rules R138, R139, R141, R263), and the statements O50, O51, O52 and O54.
-/

namespace Sys2Proof.Machine

/-- The elements an instruction that completes writes, its operand and its end included. -/
def written : Instr → List Element
  | .cal _ _ => [.ar, .i, .dr, .ac, .sc, .tm, .c]
  | .lda _ _ => [.ar, .i, .ac, .sc, .tm, .c]
  | .sta _ _ => [.ar, .i, .sc, .tm, .c]
  | .br _ _ => [.ar, .i, .pc, .sc, .tm, .c]
  | .isa _ _ => [.ar, .i, .dr, .pc, .sc, .tm, .c]
  | .swt _ _ => [.ar, .pc, .ac, .tm, .prc, .ns, .sc, .i, .e, .c, .s, .a0, .a1, .psr]
  | .awt _ _ => [.ar, .pc, .psr, .i, .sc, .tm, .c]
  | .ldp _ => [.ar, .pc, .ac, .e, .a0, .a1, .s, .psr, .i, .sc, .tm, .c]
  | .add | .sub | .and | .or => [.a0, .a1, .i, .sc, .tm, .c]
  | .sza | .sze | .ski | .sko => [.pc, .i, .sc, .tm, .c]
  | .cle | .cme => [.e, .i, .sc, .tm, .c]
  | .cma | .ica => [.ac, .i, .sc, .tm, .c]
  | .cir | .cil => [.ac, .e, .i, .sc, .tm, .c]
  | .esw | .dsw => [.sw, .i, .sc, .tm, .c]
  | .hlt => [.s, .pc, .ns, .gs, .i, .sc, .tm, .c]
  | .fork => [.ar, .tp, .psr, .i, .sc, .tm, .c]
  | .rst => [.ar, .psr, .i, .sc, .tm, .c, .pc, .ac, .e, .a0, .a1, .s]
  | .spa => [.pc, .ar, .i, .sc, .tm, .c]
  | .utm => [.ar, .i, .sc, .tm, .c]
  | .inp => [.ac, .fgi, .i, .sc, .tm, .c]
  | .out => [.outr, .fgo, .i, .sc, .tm, .c]
  | .ei | .di => [.ien, .i, .sc, .tm, .c]

/-- How an instruction ends (rule R139): all but SWT and UTM hand on the timer, all but HLT and AWT the C flip-flop. -/
def endsNormally (i : Instr) (m t : State) : Prop :=
  ∃ tm c, t.endsInstruction tm c ∧ (i.mnemonic ≠ .swt → i.mnemonic ≠ .utm → tm = m.tm) ∧
    (i.mnemonic ≠ .hlt → i.mnemonic ≠ .awt → c = m.c)

/-- Every entry point held in the second state was held in the first (decision D10). -/
def keepsEntryPoints (m t : State) : Prop := ∀ p, t.holdsEntryPoint p → m.holdsEntryPoint p

/-- What an instruction that completes has done. -/
structure Effect (i : Instr) (m t : State) : Prop where
  elements : m.sameExcept (written i) t
  control : m.sameControl t
  ends : endsNormally i m t
  memory : ∀ a, t.read a ≠ m.read a →
    ∃ ind adr, a = effectiveOperand ind adr m ∧ (i = .sta ind adr ∨ i = .isa ind adr)
  entryPoints : keepsEntryPoints m t

/-! Entry points. -/

section EntryPoints
variable {m t : State}

theorem holdsEntryPoint_psr (m : State) : m.holdsEntryPoint m.psr.pc0 := .inl rfl

theorem holdsEntryPoint_slot (m : State) (k : Slot) : m.holdsEntryPoint (m.slot k).pc0 := .inr ⟨k, rfl⟩

theorem keepsEntryPoints_of (hpsr : m.holdsEntryPoint t.psr.pc0) (hslots : ∀ k, m.holdsEntryPoint (t.slot k).pc0) :
    keepsEntryPoints m t := by
  rintro p (hp | ⟨k, hp⟩)
  · exact hp ▸ hpsr
  · exact hp ▸ hslots k

/-- Where no slot is written, the scratch register's entry point alone can be another. -/
theorem keepsEntryPoints_of_sameSlots (hpsr : m.holdsEntryPoint t.psr.pc0) (hslots : m.sameSlots t) :
    keepsEntryPoints m t :=
  keepsEntryPoints_of hpsr fun k => hslots k ▸ holdsEntryPoint_slot m k

/-- Where one slot is written, its record must have an entry point that was held. -/
theorem keepsEntryPoints_of_sameSlotsBut {k : Slot} {p : Psr} (hslot : t.slot k = p) (hslots : m.sameSlotsBut k t)
    (hp : m.holdsEntryPoint p.pc0) (hpsr : m.holdsEntryPoint t.psr.pc0) : keepsEntryPoints m t := by
  refine keepsEntryPoints_of hpsr fun j => ?_
  by_cases hj : j = k
  · exact hj ▸ hslot ▸ hp
  · exact hslots j hj ▸ holdsEntryPoint_slot m j

end EntryPoints

/-! The effect of the instructions that write no slot and no cell. -/

section EffectOf
variable {i : Instr} {m t : State}

theorem effect_of_changesOnly (hframe : m.changesOnly (written i) t) (hpsr : m.holdsEntryPoint t.psr.pc0)
    (hends : endsNormally i m t) : Effect i m t := by
  obtain ⟨helements, hmemory, hslots, hcontrol⟩ := hframe
  exact { elements := helements, control := hcontrol, ends := hends, memory := fun a ha => absurd (hmemory a) ha,
          entryPoints := keepsEntryPoints_of_sameSlots hpsr hslots }

theorem holdsEntryPoint_of_kept {L : List Element} (h : m.sameExcept L t) (hn : .psr ∉ L) :
    m.holdsEntryPoint t.psr.pc0 := kept_psr h hn ▸ holdsEntryPoint_psr m

theorem effect_of_writesOnly {w : Word} {K : List Element} {post : State → State → Prop} (hw : writesOnly i w K post)
    (hwritten : K ++ [.i, .sc, .tm, .c] = written i) (hpsr : .psr ∉ written i) (h : exec i m = .next t) :
    Effect i m t := by
  obtain ⟨-, hwrites⟩ := hw
  obtain ⟨t', hnext, -, -, hends, hframe⟩ := hwrites m
  obtain rfl : t' = t := Host.Outcome.next.inj (hnext.symm.trans h)
  rw [hwritten] at hframe
  exact effect_of_changesOnly hframe (holdsEntryPoint_of_kept hframe.1 hpsr)
    ⟨_, _, hends, fun _ _ => rfl, fun _ _ => rfl⟩

end EffectOf

/-! The effect of each of the others. -/

section Effects
variable {ind : Bool} {adr : Addr} {m t : State}

theorem effect_cal (h : exec (.cal ind adr) m = .next t) : Effect (.cal ind adr) m t := by
  obtain ⟨t', hnext, -, -, -, -, hends, hframe⟩ := (calComputesIntoTheAccumulator ind adr).2 m
  obtain rfl : t' = t := Host.Outcome.next.inj (hnext.symm.trans h)
  exact effect_of_changesOnly hframe (holdsEntryPoint_of_kept hframe.1 (by decide))
    ⟨_, _, hends, fun _ _ => rfl, fun _ _ => rfl⟩

theorem effect_lda (h : exec (.lda ind adr) m = .next t) : Effect (.lda ind adr) m t := by
  obtain ⟨t', hnext, -, -, -, hends, hframe⟩ := (ldaLoadsTheAccumulator ind adr).2 m
  obtain rfl : t' = t := Host.Outcome.next.inj (hnext.symm.trans h)
  exact effect_of_changesOnly hframe (holdsEntryPoint_of_kept hframe.1 (by decide))
    ⟨_, _, hends, fun _ _ => rfl, fun _ _ => rfl⟩

theorem effect_br (h : exec (.br ind adr) m = .next t) : Effect (.br ind adr) m t := by
  obtain ⟨t', hnext, -, -, -, hends, hframe⟩ := (brBranches ind adr).2 m
  obtain rfl : t' = t := Host.Outcome.next.inj (hnext.symm.trans h)
  exact effect_of_changesOnly hframe (holdsEntryPoint_of_kept hframe.1 (by decide))
    ⟨_, _, hends, fun _ _ => rfl, fun _ _ => rfl⟩

theorem effect_sta (h : exec (.sta ind adr) m = .next t) : Effect (.sta ind adr) m t := by
  obtain ⟨t', hnext, -, -, -, hmemory, -, hends, helements, hslots, hcontrol⟩ := (staStoresTheAccumulator ind adr).2 m
  obtain rfl : t' = t := Host.Outcome.next.inj (hnext.symm.trans h)
  exact
    { elements := helements, control := hcontrol, ends := ⟨_, _, hends, fun _ _ => rfl, fun _ _ => rfl⟩
      memory := fun a ha => ⟨ind, adr, not_imp_comm.mp (hmemory a) ha, .inl rfl⟩
      entryPoints := keepsEntryPoints_of_sameSlots (holdsEntryPoint_of_kept helements (by decide)) hslots }

theorem effect_isa (h : exec (.isa ind adr) m = .next t) : Effect (.isa ind adr) m t := by
  obtain ⟨t', hnext, -, -, -, -, hmemory, -, hends, helements, hslots, hcontrol⟩ :=
    (isaIncrementsAndSkipsOnMatch ind adr).2 m
  obtain rfl : t' = t := Host.Outcome.next.inj (hnext.symm.trans h)
  exact
    { elements := helements, control := hcontrol, ends := ⟨_, _, hends, fun _ _ => rfl, fun _ _ => rfl⟩
      memory := fun a ha => ⟨ind, adr, not_imp_comm.mp (hmemory a) ha, .inr rfl⟩
      entryPoints := keepsEntryPoints_of_sameSlots (holdsEntryPoint_of_kept helements (by decide)) hslots }

theorem effect_hlt (h : exec .hlt m = .next t) : Effect .hlt m t := by
  obtain ⟨t', hnext, -, -, -, -, -, hends, hframe, -⟩ := hltStopsTheProcess.2 m
  obtain rfl : t' = t := Host.Outcome.next.inj (hnext.symm.trans h)
  exact effect_of_changesOnly hframe (holdsEntryPoint_of_kept hframe.1 (by decide))
    ⟨_, _, hends, fun _ _ => rfl, fun hhlt => absurd rfl hhlt⟩

theorem effect_utm (h : exec .utm m = .next t) : Effect .utm m t := by
  obtain ⟨t', hnext, -, -, hends, hframe⟩ := utmReloadsTheTimer.2 m
  obtain rfl : t' = t := Host.Outcome.next.inj (hnext.symm.trans h)
  exact effect_of_changesOnly hframe (holdsEntryPoint_of_kept hframe.1 (by decide))
    ⟨_, _, hends, fun _ hutm => absurd rfl hutm, fun _ _ => rfl⟩

/-! The instructions that resolve a process id complete only where the table cells name slots. -/

theorem namesSlot_of_awt_next (h : exec (.awt ind adr) m = .next t) :
    ∃ k, m.namesSlot (effectiveOperand ind adr m) k := by
  rcases namesSlot_or_namesNoSlot m (effectiveOperand ind adr m) with hk | ⟨v, hv⟩
  · exact hk
  · cases (exec_awt_of_namesNoSlot hv).symm.trans h

theorem namesSlot_of_ldp_next (h : exec (.ldp adr) m = .next t) : ∃ k, m.namesSlot adr k := by
  rcases namesSlot_or_namesNoSlot m adr with hk | ⟨v, hv⟩
  · exact hk
  · cases (exec_ldp_of_namesNoSlot hv).symm.trans h

theorem namesSlot_of_rst_next (h : exec .rst m = .next t) : ∃ k, m.namesSlot (m.prc.setWidth 8) k := by
  rcases namesSlot_or_namesNoSlot m (m.prc.setWidth 8) with hk | ⟨v, hv⟩
  · exact hk
  · cases (exec_rst_of_namesNoSlot hv).symm.trans h

theorem namesSlot_of_swt_next (h : exec (.swt ind adr) m = .next t) :
    ∃ k j, m.namesSlot (m.prc.setWidth 8) k ∧ m.namesSlot ((swtTarget ind adr m).setWidth 8) j := by
  rcases namesSlot_or_namesNoSlot m (m.prc.setWidth 8) with ⟨k, hk⟩ | ⟨v, hv⟩
  · rcases namesSlot_or_namesNoSlot m ((swtTarget ind adr m).setWidth 8) with ⟨j, hj⟩ | ⟨v, hv⟩
    · exact ⟨k, j, hk, hj⟩
    · cases (exec_swt_of_namesNoSlot_target hk hv).symm.trans h
  · cases (exec_swt_of_namesNoSlot hv).symm.trans h

/-- FORK finds the table full, or its slot, or an index or a table word that is no slot's. -/
theorem fork_cases (m : State) :
    m.tp = 7 ∨ (m.tp ≠ 7 ∧ ∃ k, m.forkTarget k) ∨ (m.params.forkSlot = .direct ∧ 8 ≤ m.tp.toNat) ∨
      ∃ v, m.params.forkSlot = .table ∧ m.tp ≠ 7 ∧ m.namesNoSlot (m.tp.setWidth 8) v := by
  by_cases htp : m.tp = 7
  · exact .inl htp
  · cases hparam : m.params.forkSlot with
    | direct =>
      by_cases hindex : 8 ≤ m.tp.toNat
      · exact .inr (.inr (.inl ⟨rfl, hindex⟩))
      · exact .inr (.inl ⟨htp, BitVec.ofNat 3 m.tp.toNat, by simp [State.forkTarget, hparam]; omega⟩)
    | table =>
      rcases namesSlot_or_namesNoSlot m (m.tp.setWidth 8) with ⟨k, hk⟩ | ⟨v, hv⟩
      · exact .inr (.inl ⟨htp, k, by simpa [State.forkTarget, hparam] using hk⟩)
      · exact .inr (.inr (.inr ⟨v, rfl, htp, hv⟩))

/-- FORK completes only below the full table and with a slot. -/
theorem forkTarget_of_fork_next (h : exec .fork m = .next t) : m.tp ≠ 7 ∧ ∃ k, m.forkTarget k := by
  obtain ⟨hfull, hdirect, htable⟩ := forkFaults m
  rcases fork_cases m with htp | hslot | ⟨hparam, hindex⟩ | ⟨v, hparam, htp, hv⟩
  · obtain ⟨u, hfault, -⟩ := hfull htp
    cases hfault.symm.trans h
  · exact hslot
  · obtain ⟨u, hfault, -⟩ := hdirect hparam hindex
    cases hfault.symm.trans h
  · obtain ⟨u, hfault, -⟩ := htable v hparam htp hv
    cases hfault.symm.trans h

theorem effect_awt (h : exec (.awt ind adr) m = .next t) : Effect (.awt ind adr) m t := by
  obtain ⟨k, hk⟩ := namesSlot_of_awt_next h
  obtain ⟨t', hnext, hpsr, -, -, -, hends, hframe⟩ := awtWaitsForTheTarget ind adr m k hk
  obtain rfl : t' = t := Host.Outcome.next.inj (hnext.symm.trans h)
  exact effect_of_changesOnly hframe (hpsr ▸ holdsEntryPoint_slot m k)
    ⟨_, _, hends, fun _ _ => rfl, fun _ hawt => absurd rfl hawt⟩

theorem effect_ldp (h : exec (.ldp adr) m = .next t) : Effect (.ldp adr) m t := by
  obtain ⟨k, hk⟩ := namesSlot_of_ldp_next h
  obtain ⟨t', hnext, hpsr, -, -, -, -, hends, hframe⟩ := ldpLoadsTheStoredContext adr m k hk
  obtain rfl : t' = t := Host.Outcome.next.inj (hnext.symm.trans h)
  exact effect_of_changesOnly hframe (hpsr ▸ holdsEntryPoint_slot m k)
    ⟨_, _, hends, fun _ _ => rfl, fun _ _ => rfl⟩

theorem effect_fork (h : exec .fork m = .next t) : Effect .fork m t := by
  obtain ⟨htp, k, hk⟩ := forkTarget_of_fork_next h
  obtain ⟨t', hnext, hslot, hslots, hpsr, -, -, -, -, hends, hmemory, hcontrol, helements⟩ :=
    forkCopiesTheProcess m k htp hk
  obtain rfl : t' = t := Host.Outcome.next.inj (hnext.symm.trans h)
  exact
    { elements := helements, control := hcontrol, ends := ⟨_, _, hends, fun _ _ => rfl, fun _ _ => rfl⟩
      memory := fun a ha => absurd (hmemory a) ha
      entryPoints :=
        keepsEntryPoints_of_sameSlotsBut hslot hslots (holdsEntryPoint_psr m) (hpsr ▸ holdsEntryPoint_psr m) }

theorem effect_rst (h : exec .rst m = .next t) : Effect .rst m t := by
  obtain ⟨k, hk⟩ := namesSlot_of_rst_next h
  obtain ⟨t', hnext, hslot, hslots, hpsr, -, -, hends, hmemory, hcontrol, hkeep, hreset⟩ :=
    rstResetsTheStoredRecord m k hk
  obtain rfl : t' = t := Host.Outcome.next.inj (hnext.symm.trans h)
  have helements : m.sameExcept (written .rst) t' := by
    cases hlive : m.params.rstLive with
    | false => exact fun n hn => hkeep hlive n fun hmem => hn (List.mem_append_left _ hmem)
    | true => exact (hreset hlive).2.2
  exact
    { elements := helements, control := hcontrol, ends := ⟨_, _, hends, fun _ _ => rfl, fun _ _ => rfl⟩
      memory := fun a ha => absurd (hmemory a) ha
      entryPoints :=
        keepsEntryPoints_of_sameSlotsBut hslot hslots (holdsEntryPoint_slot m k) (hpsr ▸ holdsEntryPoint_slot m k) }

/-- The record that a switch loads is the one it saved or one that was stored. -/
theorem holdsEntryPoint_of_loaded {k j : Slot} {p : Psr} (h : p = if j = k then m.savedRecord else m.slot j) :
    m.holdsEntryPoint p.pc0 := by
  subst h
  split
  · exact holdsEntryPoint_psr m
  · exact holdsEntryPoint_slot m j

theorem effect_swt (h : exec (.swt ind adr) m = .next t) : Effect (.swt ind adr) m t := by
  obtain ⟨k, j, hk, hj⟩ := namesSlot_of_swt_next h
  obtain ⟨t', hnext, hslot, hslots, -, hpsr, -, -, -, -, -, hends, hmemory, hcontrol, helements⟩ :=
    swtSwitchesToTheTarget ind adr m k j hk hj
  obtain rfl : t' = t := Host.Outcome.next.inj (hnext.symm.trans h)
  exact
    { elements := helements, control := hcontrol
      ends := ⟨_, _, hends, fun hswt => absurd rfl hswt, fun _ _ => rfl⟩
      memory := fun a ha => absurd (hmemory a) ha
      entryPoints :=
        keepsEntryPoints_of_sameSlotsBut hslot hslots (holdsEntryPoint_psr m) (holdsEntryPoint_of_loaded hpsr) }

/-- What an instruction that completes has done, for all 33. -/
theorem exec_effect {i : Instr} (h : exec i m = .next t) : Effect i m t := by
  cases i with
  | cal ind adr => exact effect_cal h
  | lda ind adr => exact effect_lda h
  | sta ind adr => exact effect_sta h
  | br ind adr => exact effect_br h
  | isa ind adr => exact effect_isa h
  | swt ind adr => exact effect_swt h
  | awt ind adr => exact effect_awt h
  | ldp adr => exact effect_ldp h
  | add => exact effect_of_writesOnly add_writesOnly rfl (by decide) h
  | sub => exact effect_of_writesOnly sub_writesOnly rfl (by decide) h
  | and => exact effect_of_writesOnly and_writesOnly rfl (by decide) h
  | or => exact effect_of_writesOnly or_writesOnly rfl (by decide) h
  | sza => exact effect_of_writesOnly szaSzeSkipOnZero.1 rfl (by decide) h
  | sze => exact effect_of_writesOnly szaSzeSkipOnZero.2 rfl (by decide) h
  | cle => exact effect_of_writesOnly cle_writesOnly rfl (by decide) h
  | cma => exact effect_of_writesOnly cma_writesOnly rfl (by decide) h
  | cme => exact effect_of_writesOnly cme_writesOnly rfl (by decide) h
  | cir => exact effect_of_writesOnly cir_writesOnly rfl (by decide) h
  | cil => exact effect_of_writesOnly cil_writesOnly rfl (by decide) h
  | ica => exact effect_of_writesOnly ica_writesOnly rfl (by decide) h
  | esw => exact effect_of_writesOnly esw_writesOnly rfl (by decide) h
  | dsw => exact effect_of_writesOnly dsw_writesOnly rfl (by decide) h
  | hlt => exact effect_hlt h
  | fork => exact effect_fork h
  | rst => exact effect_rst h
  | spa => exact effect_of_writesOnly spaSkipsOnTheTableEntry rfl (by decide) h
  | utm => exact effect_utm h
  | inp => exact effect_of_writesOnly inp_writesOnly rfl (by decide) h
  | out => exact effect_of_writesOnly out_writesOnly rfl (by decide) h
  | ski => exact effect_of_writesOnly skiSkoSkipOnFlag.1 rfl (by decide) h
  | sko => exact effect_of_writesOnly skiSkoSkipOnFlag.2 rfl (by decide) h
  | ei => exact effect_of_writesOnly ei_writesOnly rfl (by decide) h
  | di => exact effect_of_writesOnly di_writesOnly rfl (by decide) h

end Effects

/-- Settles O50: how every instruction that completes ends. -/
theorem instructionsEndTheSameWay : Obligations.InstructionsEndTheSameWay := by
  unfold Obligations.InstructionsEndTheSameWay
  intro i m t hnext
  obtain ⟨-, ⟨hrun, hparams⟩, ⟨tm, c, ⟨hsc, htm, hc, hmid⟩, htimer, hcarry⟩, -, -⟩ := exec_effect hnext
  refine ⟨hsc, hmid, hrun, hparams, fun hzero => ?expired, fun hswt hutm => ?timer, fun hhlt hawt hrunning => ?carry⟩
  case expired => rw [hc, if_pos (htm.symm.trans hzero)]
  case timer => rw [htm, htimer hswt hutm]
  case carry => rw [hc, if_neg (htm ▸ hrunning), hcarry hhlt hawt]

/-- Settles O54: at expiry C takes SW, which is 1, so the arbiter's first condition holds. -/
theorem expiryForcesAContextSwitch : Obligations.ExpiryForcesAContextSwitch := by
  unfold Obligations.ExpiryForcesAContextSwitch
  intro i m t hnext hgs htm hsw
  obtain ⟨-, hmid, -, -, hexpired, -⟩ := instructionsEndTheSameWay i m t hnext
  exact step_of_wantsSwitch ⟨hmid, hgs⟩ (.inl ⟨(hexpired htm).trans hsw, hsw⟩)

/-! Stops. -/

/-- The instructions that can stop (rule R138). -/
def canFault : List Mnemonic := [.fork, .rst, .swt, .awt, .ldp]

theorem exec_completes {i : Instr} (h : i.mnemonic ∉ canFault) (m : State) : ∃ t, exec i m = .next t := by
  cases i with
  | swt => simp [canFault, Instr.mnemonic] at h
  | awt => simp [canFault, Instr.mnemonic] at h
  | ldp => simp [canFault, Instr.mnemonic] at h
  | fork => simp [canFault, Instr.mnemonic] at h
  | rst => simp [canFault, Instr.mnemonic] at h
  | _ => exact ⟨_, rfl⟩

/-- What an instruction that stops has done. -/
structure StopEffect (i : Instr) (m : State) (f : Fault) : Prop where
  elements : m.sameExcept [.ar, .prc, .psr, .i] f.committed
  memory : m.sameMemory f.committed
  idle : f.committed.run = false ∧ f.committed.mid = false
  code : f.code = 2 ∨ f.code = 3 ∧ i = .fork ∧ m.tp = 7

/-- A stop by a resolution, from what it leaves. -/
theorem stopEffect_of_resolution {i : Instr} {m t : State} {v : Word} {K : List Element} (h : m.stopsWith K t)
    (hK : ∀ n ∈ K, n ∈ [Element.ar, .prc, .psr, .i]) : StopEffect i m (.processResolutionError v t) := by
  obtain ⟨helements, hmemory, -, hrun, hmid, -⟩ := h
  exact { elements := fun n hn => helements n fun hmem => hn (hK n hmem), memory := hmemory, idle := ⟨hrun, hmid⟩,
          code := .inl rfl }

section Stops
variable {ind : Bool} {adr : Addr} {m : State} {f : Fault}

theorem stopEffect_swt (h : exec (.swt ind adr) m = .fault f) : StopEffect (.swt ind adr) m f := by
  rcases namesSlot_or_namesNoSlot m (m.prc.setWidth 8) with ⟨k, hk⟩ | ⟨v, hv⟩
  · rcases namesSlot_or_namesNoSlot m ((swtTarget ind adr m).setWidth 8) with ⟨j, hj⟩ | ⟨v, hv⟩
    · cases (exec_swt_of_namesSlot hk hj).symm.trans h
    · obtain ⟨t, hfault, -, -, -, -, -, -, hrun, hmid, -, hmemory, helements⟩ := (swtFaults ind adr m v).2 k hk hv
      obtain rfl := Host.Outcome.fault.inj (hfault.symm.trans h)
      exact { elements := helements, memory := hmemory, idle := ⟨hrun, hmid⟩, code := .inl rfl }
  · obtain ⟨t, hfault, -, -, -, hstops⟩ := (swtFaults ind adr m v).1 hv
    obtain rfl := Host.Outcome.fault.inj (hfault.symm.trans h)
    exact stopEffect_of_resolution hstops (by simp)

theorem stopEffect_awt (h : exec (.awt ind adr) m = .fault f) : StopEffect (.awt ind adr) m f := by
  rcases namesSlot_or_namesNoSlot m (effectiveOperand ind adr m) with ⟨k, hk⟩ | ⟨v, hv⟩
  · cases (exec_awt_of_namesSlot hk).symm.trans h
  · obtain ⟨t, hfault, -, -, hstops⟩ := ((failedResolutionStopsTheInstruction m v).2 adr).1 ind hv
    obtain rfl := Host.Outcome.fault.inj (hfault.symm.trans h)
    exact stopEffect_of_resolution hstops (by simp)

theorem stopEffect_ldp (h : exec (.ldp adr) m = .fault f) : StopEffect (.ldp adr) m f := by
  rcases namesSlot_or_namesNoSlot m adr with ⟨k, hk⟩ | ⟨v, hv⟩
  · cases (exec_ldp_of_namesSlot hk).symm.trans h
  · obtain ⟨t, hfault, -, -, hstops⟩ := ((failedResolutionStopsTheInstruction m v).2 adr).2 hv
    obtain rfl := Host.Outcome.fault.inj (hfault.symm.trans h)
    exact stopEffect_of_resolution hstops (by simp)

theorem stopEffect_rst (h : exec .rst m = .fault f) : StopEffect .rst m f := by
  rcases namesSlot_or_namesNoSlot m (m.prc.setWidth 8) with ⟨k, hk⟩ | ⟨v, hv⟩
  · cases (exec_rst_of_namesSlot hk).symm.trans h
  · obtain ⟨t, hfault, -, -, hstops⟩ := (failedResolutionStopsTheInstruction m v).1 hv
    obtain rfl := Host.Outcome.fault.inj (hfault.symm.trans h)
    exact stopEffect_of_resolution hstops (by simp)

theorem stopEffect_fork (h : exec .fork m = .fault f) : StopEffect .fork m f := by
  obtain ⟨hfull, hdirect, htable⟩ := forkFaults m
  rcases fork_cases m with htp | ⟨htp, k, hk⟩ | ⟨hparam, hindex⟩ | ⟨v, hparam, htp, hv⟩
  · obtain ⟨t, hfault, -, helements, hmemory, -, hrun, hmid, -⟩ := hfull htp
    obtain rfl := Host.Outcome.fault.inj (hfault.symm.trans h)
    exact { elements := fun n hn => helements n fun hmem => hn (by simp_all), memory := hmemory, idle := ⟨hrun, hmid⟩,
            code := .inr ⟨rfl, rfl, htp⟩ }
  · cases (exec_fork_of_target htp hk).symm.trans h
  · obtain ⟨t, hfault, -, -, hstops⟩ := hdirect hparam hindex
    obtain rfl := Host.Outcome.fault.inj (hfault.symm.trans h)
    exact stopEffect_of_resolution hstops (by simp)
  · obtain ⟨t, hfault, -, -, -, hstops⟩ := htable v hparam htp hv
    obtain rfl := Host.Outcome.fault.inj (hfault.symm.trans h)
    exact stopEffect_of_resolution hstops (by simp)

/-- What an instruction that stops has done: it is one of five, and each of them stops in its own checks. -/
theorem exec_stopEffect {i : Instr} (h : exec i m = .fault f) : i.mnemonic ∈ canFault ∧ StopEffect i m f := by
  have hcan : i.mnemonic ∈ canFault := by
    by_contra hnot
    obtain ⟨t, hnext⟩ := exec_completes hnot m
    cases hnext.symm.trans h
  refine ⟨hcan, ?_⟩
  cases i with
  | swt ind adr => exact stopEffect_swt h
  | awt ind adr => exact stopEffect_awt h
  | ldp adr => exact stopEffect_ldp h
  | rst => exact stopEffect_rst h
  | fork => exact stopEffect_fork h
  | _ => simp [canFault, Instr.mnemonic] at hcan

end Stops

/-- Settles O51: a stop writes AR, PRC, the scratch register and I at most. -/
theorem faultingHandlersDoNotEnd : Obligations.FaultingHandlersDoNotEnd := by
  unfold Obligations.FaultingHandlersDoNotEnd
  intro i m f hfault
  obtain ⟨-, helements, hmemory, ⟨hrun, hmid⟩, -⟩ := exec_stopEffect hfault
  exact ⟨kept_sc helements (by decide), kept_tm helements (by decide), kept_c helements (by decide),
    kept_tp helements (by decide), hmemory, hrun, hmid⟩

/-- Settles O52: a refusal is no outcome of a sequence of sub-steps; a stop is one of the five instructions'. -/
theorem onlyFiveInstructionsFault : Obligations.OnlyFiveInstructionsFault := by
  unfold Obligations.OnlyFiveInstructionsFault
  refine fun i m => ⟨fun r hrefused => ?refused, fun f hfault => ?fault⟩
  case refused =>
    have hanswer := (exec_runs i).answers m
    rwa [hrefused] at hanswer
  case fault =>
    obtain ⟨hcan, -, -, -, hcode⟩ := exec_stopEffect hfault
    exact ⟨hcan, hcode⟩

end Sys2Proof.Machine
end

section
/-!
PROOFS. The whole machine: what a step that answers a next state has done, said once, and the statements O42, O46, O47,
O48 and O49.
-/

namespace Sys2Proof.Machine

/-- What a step that answers `t` has done (rules R214, R240). -/
inductive StepEffect (m t : State) : Prop
  /-- GS was 0. -/
  | stopped (hgs : m.gs = false) (hstop : t = stopRun m)
  /-- A context switch, from slot `k` to slot `j`. -/
  | switch (k j : Slot) (hlive : m.live) (hswitch : m.wantsSwitch) (ht : t = switched k j (beginDecision m))
  /-- An interrupt entry, saved in slot `k`. -/
  | entry (k : Slot) (hlive : m.live) (hswitch : ¬ m.wantsSwitch) (hinterrupt : m.wantsInterrupt)
      (ht : t = trapped k (beginDecision m))
  /-- The instruction that PC addresses. -/
  | execute (i : Instr) (hready : m.readyToExecute) (hdecode : decode (m.read m.pc) = .ok i)
      (heffect : Effect i (afterFetch m) t) (hexec : exec i (afterFetch m) = .next t)

theorem stepEffect_of_switch {m t : State} (hlive : m.live) (hswitch : m.wantsSwitch) (h : step m = .next t) :
    StepEffect m t := by
  obtain ⟨k, j, hk, hj⟩ := namesSlot_of_switch_next hlive hswitch h
  rw [step_of_wantsSwitch hlive hswitch, contextSwitch_eq_next (m := beginDecision m) hk hj] at h
  exact .switch k j hlive hswitch (Host.Outcome.next.inj h).symm

theorem stepEffect_of_entry {m t : State} (hlive : m.live) (hswitch : ¬ m.wantsSwitch) (hinterrupt : m.wantsInterrupt)
    (h : step m = .next t) : StepEffect m t := by
  rw [step_of_wantsInterrupt hlive hswitch hinterrupt] at h
  rcases namesSlot_or_namesNoSlot m (m.prc.setWidth 8) with ⟨k, hk⟩ | ⟨v, hv⟩
  · rw [interruptEntry_eq_next (m := beginDecision m) hk] at h
    exact .entry k hlive hswitch hinterrupt (Host.Outcome.next.inj h).symm
  · cases (interruptEntry_eq_fault (m := beginDecision m) hv).symm.trans h

theorem stepEffect_of_execute {m t : State} (hready : m.readyToExecute) (h : step m = .next t) : StepEffect m t := by
  rw [step_of_ready hready] at h
  cases hdecode : decode (m.read m.pc) with
  | ok i =>
    rw [fetchExecute_of_ok hdecode] at h
    exact .execute i hready hdecode (exec_effect h) h
  | error e => cases (fetchExecute_of_error hdecode).symm.trans h

theorem step_effect {m t : State} (h : step m = .next t) : StepEffect m t := by
  rcases step_next_cases h with ⟨-, hgs, ht⟩ | ⟨hlive, -⟩
  · exact .stopped hgs ht
  · by_cases hswitch : m.wantsSwitch
    · exact stepEffect_of_switch hlive hswitch h
    · by_cases hinterrupt : m.wantsInterrupt
      · exact stepEffect_of_entry hlive hswitch hinterrupt h
      · exact stepEffect_of_execute ⟨hlive, hswitch, hinterrupt⟩ h

/-! The frames of the three branches, from the state before the step. -/

section Frames
variable {m : State}

theorem switch_sameExcept (k j : Slot) (m : State) :
    m.sameExcept [.ar, .pc, .ac, .tm, .prc, .sc, .e, .c, .s, .a0, .a1, .psr] (switched k j (beginDecision m)) :=
  (changesOnly_of_setSlot (switched_changesOnly k j (beginDecision m))).2.2.1

theorem entry_sameExcept (k : Slot) (m : State) :
    m.sameExcept [.ar, .pc, .sc, .r, .sw, .ien, .fgi, .fgo, .psr] (trapped k (beginDecision m)) :=
  (changesOnly_of_setSlot (trapped_changesOnly k (beginDecision m))).2.2.1

/-- An element that neither the fetch nor the instruction writes is as before the step. -/
theorem execute_sameExcept {i : Instr} {t : State} (h : Effect i (afterFetch m) t) :
    m.sameExcept ([.ar, .ir, .pc] ++ written i) t := fun n hn =>
  (h.elements n fun hmem => hn (List.mem_append_right _ hmem)).trans
    ((afterFetch_changesOnly m).1 n fun hmem => hn (List.mem_append_left _ hmem))

end Frames

/-! Elements that few or no instructions write. -/

theorem r_not_written (i : Instr) : .r ∉ [.ar, .ir, .pc] ++ written i := by cases i <;> simp [written]

theorem inpr_not_written (i : Instr) : .inpr ∉ [.ar, .ir, .pc] ++ written i := by cases i <;> simp [written]

theorem gs_written {i : Instr} (h : .gs ∈ [.ar, .ir, .pc] ++ written i) : i = .hlt := by
  cases i <;> simp [written] at h ⊢

theorem fgi_written {i : Instr} (h : .fgi ∈ [.ar, .ir, .pc] ++ written i) : i = .inp := by
  cases i <;> simp [written] at h ⊢

theorem fgo_written {i : Instr} (h : .fgo ∈ [.ar, .ir, .pc] ++ written i) : i = .out := by
  cases i <;> simp [written] at h ⊢

/-- Settles O42: the canonical form is kept by every sub-step; MID, SC and R are read off the end of each branch. -/
theorem everyStepKeepsTheInvariant : Obligations.EveryStepKeepsTheInvariant := by
  unfold Obligations.EveryStepKeepsTheInvariant
  intro m t ⟨hwf, hmid, hsc, hr⟩ hnext
  have hwf' : t.mem.wf = true := by
    rcases step_next_cases hnext with ⟨-, -, rfl⟩ | ⟨-, u, hsubsteps, f, hf, rfl⟩
    · exact hwf
    · obtain ⟨-, hkeeps, -⟩ := hf u
      exact hkeeps (substeps_wf hsubsteps hwf)
  refine ⟨hwf', ?_⟩
  cases step_effect hnext with
  | stopped _ hstop =>
    subst hstop
    exact ⟨hmid, hsc, hr⟩
  | switch k j _ _ ht =>
    subst ht
    exact ⟨rfl, rfl, (kept_r (switch_sameExcept k j m) (by decide)).trans hr⟩
  | entry k _ _ _ ht =>
    subst ht
    exact ⟨rfl, rfl, rfl⟩
  | execute i _ _ heffect _ =>
    obtain ⟨_, _, ⟨hsc', -, -, hmid'⟩, -⟩ := heffect.ends
    exact ⟨hmid', hsc', (kept_r (execute_sameExcept heffect) (r_not_written i)).trans hr⟩

/-- Settles O46: the protocols keep every cell, and so does every instruction but STA and ISA. -/
theorem onlyStaAndIsaWriteMemory : Obligations.OnlyStaAndIsaWriteMemory := by
  unfold Obligations.OnlyStaAndIsaWriteMemory
  intro m t a hnext ha
  cases step_effect hnext with
  | stopped _ hstop => exact absurd (hstop ▸ rfl) ha
  | switch k j _ _ ht =>
    obtain ⟨-, -, -, hmemory, -⟩ := changesOnly_of_setSlot (switched_changesOnly k j (beginDecision m))
    exact absurd (ht ▸ hmemory a) ha
  | entry k _ _ _ ht =>
    obtain ⟨-, -, -, hmemory, -⟩ := changesOnly_of_setSlot (trapped_changesOnly k (beginDecision m))
    exact absurd (ht ▸ hmemory a) ha
  | execute i hready hdecode heffect _ =>
    obtain ⟨ind, adr, hoperand, rfl | rfl⟩ := heffect.memory a ha
    · exact ⟨hready, ind, adr, hoperand, .inl hdecode⟩
    · exact ⟨hready, ind, adr, hoperand, .inr hdecode⟩

/-- A save keeps the entry points: the record saved has that of the scratch register. -/
theorem keepsEntryPoints_of_save {L : List Element} {m t : State} {k : Slot}
    (h : (m.setSlot k m.savedRecord).changesOnly L t) (hpsr : m.holdsEntryPoint t.psr.pc0) : keepsEntryPoints m t := by
  obtain ⟨hslot, hslots, -⟩ := changesOnly_of_setSlot h
  exact keepsEntryPoints_of_sameSlotsBut hslot hslots (holdsEntryPoint_psr m) hpsr

/-- Settles O47: a record is stored from the live context with the entry point of the scratch register, or is the one
that was stored, at its entry point. -/
theorem entryPointsAreOnlyCopied : Obligations.EntryPointsAreOnlyCopied := by
  unfold Obligations.EntryPointsAreOnlyCopied
  intro m t p hnext hp
  cases step_effect hnext with
  | stopped _ hstop =>
    subst hstop
    exact hp
  | switch k j _ _ ht =>
    subst ht
    exact keepsEntryPoints_of_save (switched_changesOnly k j (beginDecision m))
      (holdsEntryPoint_of_loaded (switched_psr k j (beginDecision m))) p hp
  | entry k _ _ _ ht =>
    subst ht
    exact keepsEntryPoints_of_save (trapped_changesOnly k (beginDecision m))
      (trapped_psr k (beginDecision m) ▸ holdsEntryPoint_psr (beginDecision m)) p hp
  | execute i _ _ heffect _ => exact heffect.entryPoints p hp

/-- Settles O48: GS is among the elements that HLT alone writes, and HLT clears it where NS has reached TP. -/
theorem onlyHltClearsGs : Obligations.OnlyHltClearsGs := by
  unfold Obligations.OnlyHltClearsGs
  intro m t hnext hgs
  cases step_effect hnext with
  | stopped _ hstop => exact absurd (hstop ▸ rfl) hgs
  | switch k j _ _ ht => exact absurd (ht ▸ kept_gs (switch_sameExcept k j m) (by decide)) hgs
  | entry k _ _ _ ht => exact absurd (ht ▸ kept_gs (entry_sameExcept k m) (by decide)) hgs
  | execute i hready hdecode heffect hexec =>
    have hwritten : .gs ∈ [.ar, .ir, .pc] ++ written i :=
      not_imp_comm.mp (kept_gs (execute_sameExcept heffect)) hgs
    obtain rfl := gs_written hwritten
    obtain ⟨t', hnext', -, -, -, hgs', -, -, ⟨helements, -⟩, -⟩ := hltStopsTheProcess.2 (afterFetch m)
    obtain rfl : t' = t := Host.Outcome.next.inj (hnext'.symm.trans hexec)
    have htp : t'.tp = (afterFetch m).tp := kept_tp helements (by decide)
    by_cases hall : t'.ns = (afterFetch m).tp
    · exact ⟨by rw [hgs', if_pos hall], hready, hdecode, hall.trans htp.symm⟩
    · exact absurd (by rw [hgs', if_neg hall]; rfl) hgs

/-- Settles O49: the two flags are among the elements that INP and OUT alone write, and the entry clears both. -/
theorem deviceFlagsAreOnlyCleared : Obligations.DeviceFlagsAreOnlyCleared := by
  unfold Obligations.DeviceFlagsAreOnlyCleared
  intro m t hnext
  cases step_effect hnext with
  | stopped _ hstop =>
    subst hstop
    exact ⟨rfl, fun hfgi => absurd rfl hfgi, fun hfgo => absurd rfl hfgo⟩
  | switch k j _ _ ht =>
    have helements := ht ▸ switch_sameExcept k j m
    exact ⟨kept_inpr helements (by decide), fun hfgi => absurd (kept_fgi helements (by decide)) hfgi,
      fun hfgo => absurd (kept_fgo helements (by decide)) hfgo⟩
  | entry k hlive hswitch hinterrupt ht =>
    subst ht
    exact ⟨kept_inpr (entry_sameExcept k m) (by decide), fun _ => ⟨rfl, hlive, hswitch, .inl hinterrupt⟩,
      fun _ => ⟨rfl, hlive, hswitch, .inl hinterrupt⟩⟩
  | execute i hready hdecode heffect hexec =>
    obtain ⟨hlive, hswitch, -⟩ := hready
    have helements := execute_sameExcept heffect
    refine ⟨kept_inpr helements (inpr_not_written i), fun hfgi => ?input, fun hfgo => ?output⟩
    case input =>
      obtain rfl := fgi_written (not_imp_comm.mp (kept_fgi helements) hfgi)
      obtain ⟨t', hnext', ⟨-, hclear⟩, -⟩ := inp_writesOnly.2 (afterFetch m)
      obtain rfl : t' = t := Host.Outcome.next.inj (hnext'.symm.trans hexec)
      exact ⟨hclear, hlive, hswitch, .inr hdecode⟩
    case output =>
      obtain rfl := fgo_written (not_imp_comm.mp (kept_fgo helements) hfgo)
      obtain ⟨t', hnext', ⟨-, hclear⟩, -⟩ := out_writesOnly.2 (afterFetch m)
      obtain rfl : t' = t := Host.Outcome.next.inj (hnext'.symm.trans hexec)
      exact ⟨hclear, hlive, hswitch, .inr hdecode⟩

end Sys2Proof.Machine
end

section
/-!
PROOFS. The register arithmetic and the two memories (`20_memory.md`, `41_alu.md` section 1), the loop of a continuous
run and the edits of the controller (`50_pacer_and_host.md` sections 2 and 3), and the statements O55, O56, O57, O58 and
O60.
-/

namespace Sys2Proof.Machine

/-- Settles O55: the laws of the two memories. -/
theorem writesChangeOnePlace : Obligations.WritesChangeOnePlace := by
  unfold Obligations.WritesChangeOnePlace
  refine ⟨fun m a b w => ?_, fun m k j p => ?_, fun x a w hwf => memory_write_wf hwf a w, fun x y => memory_ext⟩
  · rw [read_write]
    simp only [eq_comm]
  · rw [slot_setSlot]
    simp only [eq_comm]

/-- Settles O56: the operations are the library's on bit vectors of any width. -/
theorem arithmeticWrapsAround : Obligations.ArithmeticWrapsAround := by
  unfold Obligations.ArithmeticWrapsAround
  refine fun n a b => ⟨BitVec.toNat_ofNat _ _, BitVec.toNat_ofNat _ _, rfl, ?_⟩
  rw [addN_eq, subN_eq, BitVec.sub_add_cancel]

/-! The loop of a continuous run. -/

theorem continuousLoop_of_idle (n : Nat) {m : State} (h : m.run = false) : continuousLoop n m = .next m := by
  cases n <;> simp [continuousLoop, h]

section CoreRun
variable {M : Host.Core} {n : Nat} {s : M.State}

theorem core_run_of_next {t : M.State} (h : M.step s = .next t) : M.run (n + 1) s = M.run n t := by
  simp [Host.Core.run, h]

theorem core_run_of_fault {f : M.Fault} (h : M.step s = .fault f) : M.run (n + 1) s = .fault f := by
  simp [Host.Core.run, h]

theorem core_run_of_refused {r : M.Refusal} (h : M.step s = .refused r) : M.run (n + 1) s = .refused r := by
  simp [Host.Core.run, h]

end CoreRun

section Turn
variable {n : Nat} {m : State}

/-- A turn of the loop on a machine that runs is a step. -/
theorem continuousLoop_of_next {t : State} (h : m.run = true) (hstep : step m = .next t) :
    continuousLoop (n + 1) m = continuousLoop n t := by simp [continuousLoop, h, hstep]

theorem continuousLoop_of_fault {f : Fault} (h : m.run = true) (hstep : step m = .fault f) :
    continuousLoop (n + 1) m = .fault f := by simp [continuousLoop, h, hstep]

theorem continuousLoop_of_refused {r : Refusal} (h : m.run = true) (hstep : step m = .refused r) :
    continuousLoop (n + 1) m = .refused r := by simp [continuousLoop, h, hstep]

theorem run_succ_of_next {t : State} (hstep : step m = .next t) : core.run (n + 1) m = core.run n t :=
  core_run_of_next (M := core) hstep

theorem run_one_of_fault {f : Fault} (hstep : step m = .fault f) : core.run 1 m = .fault f :=
  core_run_of_fault (M := core) hstep

theorem run_one_of_refused {r : Refusal} (hstep : step m = .refused r) : core.run 1 m = .refused r :=
  core_run_of_refused (M := core) hstep

/-- The loop is as many steps as it has had turns. -/
theorem continuousLoop_eq_run (n : Nat) (m : State) : ∃ k, k ≤ n ∧ continuousLoop n m = core.run k m := by
  induction n generalizing m with
  | zero => exact ⟨0, le_rfl, rfl⟩
  | succ n ih =>
    cases hrun : m.run with
    | false => exact ⟨0, Nat.zero_le _, continuousLoop_of_idle _ hrun⟩
    | true =>
      cases hstep : step m with
      | next t =>
        obtain ⟨k, hk, hloop⟩ := ih t
        exact ⟨k + 1, Nat.succ_le_succ hk,
          (continuousLoop_of_next hrun hstep).trans (hloop.trans (run_succ_of_next hstep).symm)⟩
      | fault f =>
        exact ⟨1, by omega, (continuousLoop_of_fault hrun hstep).trans (run_one_of_fault hstep).symm⟩
      | refused r =>
        exact ⟨1, by omega, (continuousLoop_of_refused hrun hstep).trans (run_one_of_refused hstep).symm⟩

/-- RUN is cleared by no decision that completes, but by a step that finds GS 0. -/
theorem run_kept_or_stopped {t : State} (hstep : step m = .next t) : t.run = m.run ∨ t.gs = false := by
  cases step_effect hstep with
  | stopped hgs hstop => exact .inr (hstop ▸ hgs)
  | switch k j _ _ ht => exact .inl (ht ▸ (switched_changesOnly k j (beginDecision m)).2.2.2.1)
  | entry k _ _ _ ht => exact .inl (ht ▸ (trapped_changesOnly k (beginDecision m)).2.2.2.1)
  | execute i _ _ heffect _ => exact .inl heffect.control.1

/-- A loop that answers a state with RUN 1 has made all its turns. -/
theorem continuousLoop_running {n : Nat} {m t : State} (h : continuousLoop n m = .next t) (hrun : t.run = true) :
    core.run n m = .next t := by
  induction n generalizing m with
  | zero => exact h
  | succ n ih =>
    cases hm : m.run with
    | false =>
      rw [continuousLoop_of_idle _ hm] at h
      cases h
      simp [hm] at hrun
    | true =>
      cases hstep : step m with
      | next u =>
        rw [continuousLoop_of_next hm hstep] at h
        exact (run_succ_of_next hstep).trans (ih h)
      | fault f => cases (continuousLoop_of_fault hm hstep).symm.trans h
      | refused r => cases (continuousLoop_of_refused hm hstep).symm.trans h

/-- A loop that ends found GS 0. -/
theorem continuousLoop_ended {n : Nat} {m t : State} (h : continuousLoop n m = .next t) (hm : m.run = true)
    (hrun : t.run = false) : t.gs = false := by
  induction n generalizing m with
  | zero =>
    cases h
    simp [hm] at hrun
  | succ n ih =>
    cases hstep : step m with
    | next u =>
      rw [continuousLoop_of_next hm hstep] at h
      cases hu : u.run with
      | true => exact ih h hu
      | false =>
        rw [continuousLoop_of_idle _ hu] at h
        cases h
        exact (run_kept_or_stopped hstep).resolve_left (by simp [hm, hrun])
    | fault f => cases (continuousLoop_of_fault hm hstep).symm.trans h
    | refused r => cases (continuousLoop_of_refused hm hstep).symm.trans h

theorem continuousLoop_stopped {n : Nat} {m : State} {f : Fault} (h : continuousLoop n m = .fault f) :
    f.committed.run = false := by
  induction n generalizing m with
  | zero => cases h
  | succ n ih =>
    cases hm : m.run with
    | false => cases (continuousLoop_of_idle _ hm).symm.trans h
    | true =>
      cases hstep : step m with
      | next u =>
        rw [continuousLoop_of_next hm hstep] at h
        exact ih h
      | fault g =>
        obtain rfl := Host.Outcome.fault.inj ((continuousLoop_of_fault hm hstep).symm.trans h)
        obtain ⟨u, -, -, hcommitted⟩ := step_fault_cases hstep
        rw [hcommitted, halted_run]
      | refused r => cases (continuousLoop_of_refused hm hstep).symm.trans h

end Turn

/-- Settles O57: by induction on the bound, turn by turn. -/
theorem continuousRunIsASequenceOfSteps : Obligations.ContinuousRunIsASequenceOfSteps := by
  unfold Obligations.ContinuousRunIsASequenceOfSteps
  exact fun n m => ⟨continuousLoop_eq_run n m,
    fun t hloop => ⟨continuousLoop_running hloop, continuousLoop_ended hloop⟩, fun f => continuousLoop_stopped⟩

/-! Values written from outside (rules R21, R218). -/

theorem ofInt_toNat (n : Nat) (v : Int) : ((BitVec.ofInt n v).toNat : Int) = v % 2 ^ n := by
  have hpos : (0 : Int) ≤ v % (2 ^ n : Nat) := Int.emod_nonneg _ (by positivity)
  rw [BitVec.toNat_ofInt, Int.toNat_of_nonneg hpos]
  norm_cast

theorem normalise_toNat (n : Nat) (v : Int) : ((normalise n v).toNat : Int) = v % 2 ^ n := ofInt_toNat n v

theorem normaliseBit_toNat (v : Int) : ((normaliseBit v).toNat : Int) = v % 2 := by
  have hbit : ∀ b : BitVec 1, (b.getLsbD 0).toNat = b.toNat := by decide
  rw [normaliseBit, hbit, ofInt_toNat]
  rfl

/-! One element written from outside. -/

section SetElement
variable (m : State) (n : Element) (v : Int)

/-- The element holds the value reduced to its width. -/
theorem setElement_value (h : n ≠ .psr) : ((m.setElement n v).value n : Int) = v % 2 ^ n.bits := by
  cases n with
  | psr => exact absurd rfl h
  | dr | ac | ir | tr => exact normalise_toNat 12 v
  | ar | pc | tm => exact normalise_toNat 8 v
  | inpr | prc | tar | tp | ns | outr | sc => exact normalise_toNat 4 v
  | i | e | r | c | sw | ien | fgi | fgo | s | gs | a0 | a1 => exact normaliseBit_toNat v

/-- Nothing else differs. -/
theorem setElement_changesOnly : m.changesOnly [n] (m.setElement n v) := by
  refine ⟨fun k hk => ?_, fun a => ?_, fun k => ?_, ?_⟩
  · cases n <;> cases k <;> simp at hk <;> rfl
  · cases n <;> rfl
  · cases n <;> rfl
  · cases n <;> exact ⟨rfl, rfl⟩

theorem setElement_samePacing : m.samePacing (m.setElement n v) := by cases n <;> exact ⟨⟨rfl, rfl⟩, rfl, rfl, rfl⟩

/-- The twelve names of rule R218. -/
theorem editable_iff :
    n.editable = true ↔ n ∈ [Element.ar, .pc, .prc, .inpr, .ns, .tar, .ien, .sw, .fgi, .fgo, .s, .gs] := by
  cases n <;> simp [Element.editable]

end SetElement

/-! The edits (rules R218, R219). -/

section Edits
variable {m : State}

theorem edit_of_mid (d : Edit) (h : m.mid = true) : perform (.edit d) m = .next m := by simp [perform, edit, h]

theorem edit_element (n : Element) (v : Int) (h : m.mid = false) :
    perform (.edit (.element n v)) m = .next (if n.editable then m.setElement n v else m) := by
  simp [perform, edit, h]

theorem edit_cell_of_none {a : Addr} {text : CellText} (h : m.mid = false) (htext : assemble text = none) :
    perform (.edit (.cell a text)) m = .refused .textHasNoWord := by
  simp [perform, edit, h, htext]

theorem edit_cell_of_some {a : Addr} {text : CellText} {w : Word} (h : m.mid = false) (htext : assemble text = some w) :
    perform (.edit (.cell a text)) m = .next (m.write a w) := by
  simp [perform, edit, h, htext]

theorem edit_pcbField (k : Slot) (f : PsrField) (v : Int) (h : m.mid = false) :
    perform (.edit (.pcbField k f v)) m = .next (m.setSlot k ((m.slot k).setField f v)) := by
  simp [perform, edit, h]

end Edits

/-- Settles O58: with MID 1 and for another name nothing is written; else the one element. -/
theorem editsWriteOneEditableElement : Obligations.EditsWriteOneEditableElement := by
  unfold Obligations.EditsWriteOneEditableElement
  intro n v m
  cases hmid : m.mid with
  | true => exact ⟨m, edit_of_mid _ hmid, fun _ => rfl, fun _ => rfl, nofun⟩
  | false =>
    refine ⟨_, edit_element n v hmid, nofun, fun hn => ?readOnly, fun _ hn => ?editable⟩
    case readOnly => rw [if_neg (mt (editable_iff n).mp hn)]
    case editable =>
      rw [if_pos ((editable_iff n).mpr hn)]
      have hpsr : n ≠ .psr := by
        rintro rfl
        simp at hn
      exact ⟨setElement_value m n v hpsr, setElement_changesOnly m n v, setElement_samePacing m n v⟩

/-! One field of a record written from outside. -/

theorem setField_field (p : Psr) (f : PsrField) (v : Int) : ((p.setField f v).field f : Int) = v % 2 ^ f.bits := by
  cases f with
  | s | a1 | a0 | e => exact normaliseBit_toNat v
  | ac => exact normalise_toNat 12 v
  | pc0 | pc => exact normalise_toNat 8 v

theorem setField_other (p : Psr) {f g : PsrField} (v : Int) (h : g ≠ f) : (p.setField f v).field g = p.field g := by
  cases f <;> cases g <;> simp at h <;> rfl

/-- Settles O60: a cell by the law of the primary memory, a field by that of the slots. -/
theorem editsWriteOneCellOrField : Obligations.EditsWriteOneCellOrField := by
  unfold Obligations.EditsWriteOneCellOrField
  refine fun m => ⟨fun a text => ⟨edit_of_mid _, edit_cell_of_none, fun w hmid htext => ?cell⟩,
    fun k f v => ⟨edit_of_mid _, fun hmid => ?field⟩⟩
  case cell =>
    obtain ⟨hread, hmemory, -, -, -⟩ := changesOnly_of_write (changesOnly_refl [] (m.write a w))
    exact ⟨_, edit_cell_of_some hmid htext, hread, hmemory, fun n _ => write_value m a w n, fun _ => rfl,
      ⟨rfl, rfl⟩, rfl, rfl, rfl⟩
  case field =>
    obtain ⟨hslot, hslots, -, -, -⟩ :=
      changesOnly_of_setSlot (changesOnly_refl [] (m.setSlot k ((m.slot k).setField f v)))
    refine ⟨_, edit_pcbField k f v hmid, ?_, fun g hg => ?_, hslots, fun n _ => setSlot_value m k _ n, fun _ => rfl,
      ⟨rfl, rfl⟩, rfl, rfl, rfl⟩
    · rw [hslot, setField_field]
    · rw [hslot, setField_other _ v hg]

end Sys2Proof.Machine
end

section
/-!
PROOFS. The load of a document (`50_pacer_and_host.md` section 4, rules R221 to R225): what each section's entries
write, section by section, and the statement O59.
-/

namespace Sys2Proof.Machine

/-! What a list of entries leaves, each applied to the state before it. -/

section Foldl
variable {α σ β : Type} {f : σ → α → σ} {view : σ → β} {l : List α}

/-- What no entry touches is kept. -/
theorem foldl_keeps (s : σ) (h : ∀ x ∈ l, ∀ s, view (f s x) = view s) : view (l.foldl f s) = view s := by
  induction l generalizing s with
  | nil => rfl
  | cons y rest ih =>
    rw [List.foldl_cons, ih _ fun x hx => h x (List.mem_cons_of_mem _ hx)]
    exact h y List.mem_cons_self s

/-- What one entry sets and no other touches has that entry's value. -/
theorem foldl_sets {x : α} {value : β} (s : σ) (hx : x ∈ l) (hset : ∀ s, view (f s x) = value)
    (hothers : ∀ y ∈ l, y ≠ x → ∀ s, view (f s y) = view s) : view (l.foldl f s) = value := by
  induction l generalizing s with
  | nil => cases hx
  | cons y rest ih =>
    rw [List.foldl_cons]
    by_cases hrest : x ∈ rest
    · exact ih _ hrest fun z hz => hothers z (List.mem_cons_of_mem _ hz)
    · obtain rfl : x = y := (List.mem_cons.mp hx).resolve_right hrest
      rw [foldl_keeps _ fun z hz => hothers z (List.mem_cons_of_mem _ hz) fun heq => hrest (heq ▸ hz)]
      exact hset s

end Foldl

/-- Where the keys differ, a key determines its entry. -/
theorem eq_of_keysDiffer {α β : Type} [DecidableEq α] {l : List (α × β)} (h : keysDiffer l = true) {x y : α × β}
    (hx : x ∈ l) (hy : y ∈ l) (hkey : x.1 = y.1) : x = y := by
  induction l with
  | nil => cases hx
  | cons e rest ih =>
    obtain ⟨k, v⟩ := e
    simp only [keysDiffer, Bool.and_eq_true, List.all_eq_true, decide_eq_true_eq] at h
    obtain ⟨hfirst, hrest⟩ := h
    rcases List.mem_cons.mp hx with rfl | hx <;> rcases List.mem_cons.mp hy with rfl | hy
    · rfl
    · exact absurd hkey.symm (hfirst y hy)
    · exact absurd hkey (hfirst x hx)
    · exact ih hrest hx hy

/-! Names. -/

@[simp] theorem elementOf?_text (n : Element) : elementOf? n.text = some n := by cases n <;> decide

theorem text_of_elementOf? {t : String} {n : Element} (h : elementOf? t = some n) : n.text = t := by
  simpa using List.find?_some h

/-- Entries of other names name other elements. -/
theorem ne_of_elementOf? {t : String} {n k : Element} (h : elementOf? t = some n) (ht : t ≠ k.text) : k ≠ n :=
  fun hkn => ht (hkn ▸ (text_of_elementOf? h).symm)

/-! The sections REG and FF. -/

/-- What the sections REG and FF do not touch: the two memories, RUN, MID, the parameters and the pacer's part. -/
def State.beside (m : State) : Memory × Vector Psr 8 × Bool × Bool × Params × List SubStep × Bool :=
  (m.mem, m.slots, m.run, m.mid, m.params, m.trace, m.acknowledged)

theorem setElement_beside (m : State) (n : Element) (v : Int) : (m.setElement n v).beside = m.beside := by
  cases n <;> rfl

theorem applyReg_beside (m : State) (entry : String × RegValue) : (applyReg m entry).beside = m.beside := by
  unfold applyReg
  split
  · exact setElement_beside m _ _
  · rfl
  · rfl

theorem applyFlipFlop_beside (m : State) (entry : String × Bool) : (applyFlipFlop m entry).beside = m.beside := by
  unfold applyFlipFlop
  split
  · exact setElement_beside m _ _
  · rfl

theorem setElement_value_other (m : State) {n k : Element} (v : Int) (h : k ≠ n) :
    (m.setElement n v).value k = m.value k := (setElement_changesOnly m n v).1 k (by simpa using h)

theorem applyReg_value_other (m : State) {entry : String × RegValue} {k : Element} (h : entry.1 ≠ k.text) :
    (applyReg m entry).value k = m.value k := by
  unfold applyReg
  split
  case h_1 hn _ => exact setElement_value_other m _ (ne_of_elementOf? hn h)
  case h_2 hn _ =>
    have hk : k ≠ .psr := ne_of_elementOf? hn h
    cases k <;> simp at hk <;> rfl
  case h_3 => rfl

theorem applyFlipFlop_value_other (m : State) {entry : String × Bool} {k : Element} (h : entry.1 ≠ k.text) :
    (applyFlipFlop m entry).value k = m.value k := by
  unfold applyFlipFlop
  split
  case h_1 hn => exact setElement_value_other m _ (ne_of_elementOf? hn h)
  case h_2 => rfl

theorem applyReg_number (m : State) (n : Element) (v : Int) : applyReg m (n.text, .number v) = m.setElement n v := by
  simp [applyReg]

theorem applyReg_psr (m : State) (vs : List Int) :
    applyReg m ("PSR", .fields vs) = { m with psr := (psrOfFields? vs).getD m.psr } := by
  simp [applyReg, show elementOf? "PSR" = some .psr from elementOf?_text .psr]

theorem applyFlipFlop_text (m : State) (n : Element) (b : Bool) :
    applyFlipFlop m (n.text, b) = m.setElement n b.toNat := by
  simp [applyFlipFlop]

/-- Seven fields give the record that holds them (rule R221). -/
theorem holdsFields_of_psrOfFields? {vs : List Int} {p : Psr} (h : psrOfFields? vs = some p) : p.holdsFields vs := by
  unfold psrOfFields? at h
  split at h
  · cases h
    exact ⟨normaliseBit_toNat _, normaliseBit_toNat _, normaliseBit_toNat _, normaliseBit_toNat _,
      normalise_toNat 12 _, normalise_toNat 8 _, normalise_toNat 8 _⟩
  · cases h

/-! What a document that passes the validation names. -/

section Valid
variable {d : LoadDocument}

theorem valid_iff : d.valid = true ↔ (∀ e ∈ d.reg, validReg e = true) ∧ (∀ e ∈ d.ff, validFlipFlop e = true) ∧
    (∀ e ∈ d.cells, validCells e = true) ∧ ∀ e ∈ d.rows, validRow e = true := by
  simp [LoadDocument.valid, and_assoc]

theorem keyed_iff : d.keyed = true ↔ keysDiffer d.reg = true ∧ keysDiffer d.ff = true ∧ keysDiffer d.cells = true ∧
    keysDiffer d.rows = true := by
  simp [LoadDocument.keyed, and_assoc]

/-- A number is given to a register that is not the scratch register. -/
theorem validReg_number {n : Element} {v : Int} (h : validReg (n.text, .number v) = true) :
    n ≠ .psr ∧ n.isFlipFlop = false := by
  cases n <;> simp [validReg, Element.isFlipFlop] at h ⊢

theorem validReg_psr {vs : List Int} (h : validReg ("PSR", .fields vs) = true) : (psrOfFields? vs).isSome = true := by
  simpa [validReg, show elementOf? "PSR" = some .psr from elementOf?_text .psr] using h

theorem validFlipFlop_text {n : Element} {b : Bool} : validFlipFlop (n.text, b) = n.isFlipFlop := by
  simp [validFlipFlop]

/-- The entries of section FF name flip-flops, so a register is none of them. -/
theorem ne_text_of_validFlipFlop {e : String × Bool} {n : Element} (h : validFlipFlop e = true)
    (hn : n.isFlipFlop = false) : e.1 ≠ n.text := by
  intro he
  have hvalid : validFlipFlop (n.text, e.2) = true := he ▸ h
  rw [validFlipFlop_text, hn] at hvalid
  cases hvalid

theorem bits_of_isFlipFlop {n : Element} (h : n.isFlipFlop = true) : n.bits = 1 := by
  cases n <;> simp [Element.isFlipFlop] at h <;> rfl

theorem validRow_iff {e : Int × List Int} :
    validRow e = true ↔ 0 ≤ e.1 ∧ e.1 ≤ 7 ∧ (psrOfFields? e.2).isSome = true := by
  simp [validRow, and_assoc]

theorem validCells_bounds {e : Int × List CellText} (h : validCells e = true) : 0 ≤ e.1 ∧ e.1 + e.2.length ≤ 256 := by
  simp only [validCells, Bool.and_eq_true, decide_eq_true_eq] at h
  obtain ⟨⟨⟨hlow, -⟩, hhigh⟩, -⟩ := h
  exact ⟨hlow, hhigh⟩

end Valid

/-! The elements after the sections REG and FF. -/

/-- The state with the sections REG and FF applied. -/
def withRegisters (d : LoadDocument) (m : State) : State := d.ff.foldl applyFlipFlop (d.reg.foldl applyReg m)

section WithRegisters
variable {d : LoadDocument} {m : State} {n : Element}

theorem withRegisters_beside : (withRegisters d m).beside = m.beside :=
  (foldl_keeps _ fun e _ s => applyFlipFlop_beside s e).trans (foldl_keeps m fun e _ s => applyReg_beside s e)

/-- An element that section FF does not name is as section REG leaves it. -/
theorem withRegisters_value_of_not_ff (h : ∀ e ∈ d.ff, e.1 ≠ n.text) :
    (withRegisters d m).value n = (d.reg.foldl applyReg m).value n :=
  foldl_keeps (view := fun s : State => s.value n) _ fun e he s => applyFlipFlop_value_other s (h e he)

theorem withRegisters_value_of_unnamed (hreg : ∀ e ∈ d.reg, e.1 ≠ n.text) (hff : ∀ e ∈ d.ff, e.1 ≠ n.text) :
    (withRegisters d m).value n = m.value n :=
  (withRegisters_value_of_not_ff hff).trans
    (foldl_keeps (view := fun s : State => s.value n) m fun e he s => applyReg_value_other s (hreg e he))

theorem withRegisters_value_of_number {v : Int} (hvalid : d.valid = true) (hkeyed : d.keyed = true)
    (h : (n.text, .number v) ∈ d.reg) : ((withRegisters d m).value n : Int) = v % 2 ^ n.bits := by
  obtain ⟨hregs, hffs, -, -⟩ := valid_iff.mp hvalid
  obtain ⟨hpsr, hregister⟩ := validReg_number (hregs _ h)
  rw [withRegisters_value_of_not_ff fun e he => ne_text_of_validFlipFlop (hffs e he) hregister]
  refine foldl_sets (view := fun s : State => (s.value n : Int)) m h (fun s => ?_) fun e he hne s => ?_
  · rw [applyReg_number, setElement_value s n v hpsr]
  · have hkey : e.1 ≠ n.text := fun hkey => hne (eq_of_keysDiffer (keyed_iff.mp hkeyed).1 he h hkey)
    rw [applyReg_value_other s hkey]

theorem withRegisters_psr {vs : List Int} (hvalid : d.valid = true) (hkeyed : d.keyed = true)
    (h : ("PSR", .fields vs) ∈ d.reg) : (withRegisters d m).psr.holdsFields vs := by
  obtain ⟨hregs, hffs, -, -⟩ := valid_iff.mp hvalid
  obtain ⟨p, hp⟩ := Option.isSome_iff_exists.mp (validReg_psr (hregs _ h))
  have hff : (withRegisters d m).psr = (d.reg.foldl applyReg m).psr :=
    packed_injective (BitVec.eq_of_toNat_eq
      (withRegisters_value_of_not_ff (n := .psr) fun e he => ne_text_of_validFlipFlop (hffs e he) rfl))
  have hreg : (d.reg.foldl applyReg m).psr = p := by
    refine foldl_sets (view := fun s : State => s.psr) m h (fun s => ?_) fun e he hne s => ?_
    · rw [applyReg_psr, hp]
      rfl
    · have hkey : e.1 ≠ "PSR" := fun hkey => hne (eq_of_keysDiffer (keyed_iff.mp hkeyed).1 he h hkey)
      exact packed_injective (BitVec.eq_of_toNat_eq (applyReg_value_other s (k := .psr) hkey))
  rw [hff, hreg]
  exact holdsFields_of_psrOfFields? hp

theorem withRegisters_value_of_ff {b : Bool} (hvalid : d.valid = true) (hkeyed : d.keyed = true)
    (h : (n.text, b) ∈ d.ff) : (withRegisters d m).value n = b.toNat := by
  obtain ⟨-, hffs, -, -⟩ := valid_iff.mp hvalid
  have hflag : n.isFlipFlop = true := validFlipFlop_text.symm.trans (hffs _ h)
  refine foldl_sets (view := fun s : State => s.value n) _ h (fun s => ?_) fun e he hne s => ?_
  · rw [applyFlipFlop_text]
    have hvalue := setElement_value s n b.toNat (by rintro rfl; cases hflag)
    have hb := b.toNat_lt
    rw [bits_of_isFlipFlop hflag, pow_one] at hvalue
    omega
  · have hkey : e.1 ≠ n.text := fun hkey => hne (eq_of_keysDiffer (keyed_iff.mp hkeyed).2.1 he h hkey)
    exact applyFlipFlop_value_other s hkey

end WithRegisters

/-! The section M2. -/

section Rows
variable {d : LoadDocument}

/-- A row writes slots only. -/
theorem applyRow_slots (m : State) (e : Int × List Int) : ∃ slots, applyRow m e = { m with slots := slots } := by
  unfold applyRow
  split
  · exact ⟨_, rfl⟩
  · exact ⟨_, rfl⟩

theorem applyRow_eq (m : State) {e : Int × List Int} {p : Psr} (h : psrOfFields? e.2 = some p) :
    applyRow m e = m.setSlot (BitVec.ofInt 3 e.1) p := by
  simp only [applyRow, h]

/-- The slot of a valid row's key. -/
theorem ofInt_toNat_of_valid {e : Int × List Int} (h : validRow e = true) :
    ((BitVec.ofInt 3 e.1).toNat : Int) = e.1 := by
  obtain ⟨hlow, hhigh, -⟩ := validRow_iff.mp h
  rw [ofInt_toNat, Int.emod_eq_of_lt hlow (by omega)]

theorem applyRow_slot_other (m : State) {e : Int × List Int} {k : Slot} (hvalid : validRow e = true)
    (h : e.1 ≠ (k.toNat : Int)) : (applyRow m e).slot k = m.slot k := by
  obtain ⟨-, -, hfields⟩ := validRow_iff.mp hvalid
  obtain ⟨p, hp⟩ := Option.isSome_iff_exists.mp hfields
  have hk : BitVec.ofInt 3 e.1 ≠ k := fun hk => h (by rw [← hk, ofInt_toNat_of_valid hvalid])
  rw [applyRow_eq m hp, slot_setSlot, if_neg hk]

theorem applyRow_slot_self (m : State) {e : Int × List Int} {p : Psr} (h : psrOfFields? e.2 = some p) :
    (applyRow m e).slot (BitVec.ofInt 3 e.1) = p := by
  rw [applyRow_eq m h, slot_setSlot, if_pos rfl]

/-- What the rows do not touch. -/
theorem foldl_applyRow_slots (rows : List (Int × List Int)) (m : State) :
    ∃ slots, rows.foldl applyRow m = { m with slots := slots } := by
  induction rows generalizing m with
  | nil => exact ⟨m.slots, rfl⟩
  | cons e rest ih =>
    obtain ⟨slots, hslots⟩ := applyRow_slots m e
    obtain ⟨slots', hslots'⟩ := ih (applyRow m e)
    exact ⟨slots', by rw [List.foldl_cons, hslots', hslots]⟩

theorem foldl_applyRow_slot_of_unnamed {m : State} {k : Slot} (hvalid : d.valid = true)
    (h : ∀ vs, ((k.toNat : Int), vs) ∉ d.rows) : (d.rows.foldl applyRow m).slot k = m.slot k := by
  obtain ⟨-, -, -, hrows⟩ := valid_iff.mp hvalid
  refine foldl_keeps (view := fun s : State => s.slot k) m fun e he s =>
      applyRow_slot_other s (hrows e he) fun hkey => ?_
  exact h e.2 (hkey ▸ he)

theorem foldl_applyRow_slot_of_named {m : State} {k : Int} {vs : List Int} (hvalid : d.valid = true)
    (hkeyed : d.keyed = true) (h : (k, vs) ∈ d.rows) :
    ((d.rows.foldl applyRow m).slot (BitVec.ofInt 3 k)).holdsFields vs := by
  obtain ⟨-, -, -, hrows⟩ := valid_iff.mp hvalid
  obtain ⟨p, hp⟩ := Option.isSome_iff_exists.mp (validRow_iff.mp (hrows _ h)).2.2
  have hslot : (d.rows.foldl applyRow m).slot (BitVec.ofInt 3 k) = p := by
    refine foldl_sets (view := fun s : State => s.slot (BitVec.ofInt 3 k)) m h (fun s => applyRow_slot_self s hp)
      fun e he hne s => applyRow_slot_other s (hrows e he) fun hkey => hne ?_
    exact eq_of_keysDiffer (keyed_iff.mp hkeyed).2.2.2 he h (hkey.trans (ofInt_toNat_of_valid (hrows _ h)))
  rw [hslot]
  exact holdsFields_of_psrOfFields? hp

end Rows

/-! The section M. -/

section Cells

/-- The texts write the memory only. -/
theorem applyTexts_mem {texts : List CellText} {m t : State} {a : Nat} (h : applyTexts m a texts = some t) :
    ∃ mem, t = { m with mem := mem } := by
  induction texts generalizing m a with
  | nil =>
    cases h
    exact ⟨_, rfl⟩
  | cons text rest ih =>
    unfold applyTexts at h
    split at h
    · obtain ⟨mem, rfl⟩ := ih h
      exact ⟨mem, rfl⟩
    · cases h

theorem applyCells_mem {cells : List (Int × List CellText)} {m t : State} (h : applyCells m cells = some t) :
    ∃ mem, t = { m with mem := mem } := by
  induction cells generalizing m with
  | nil =>
    cases h
    exact ⟨_, rfl⟩
  | cons e rest ih =>
    unfold applyCells at h
    split at h
    case h_1 u htexts =>
      obtain ⟨mem, rfl⟩ := applyTexts_mem htexts
      obtain ⟨mem', rfl⟩ := ih h
      exact ⟨mem', rfl⟩
    case h_2 => cases h

/-- The texts fill consecutive cells from the address, and no other (rule R222). -/
theorem applyTexts_read {texts : List CellText} {m t : State} {a : Nat} (h : applyTexts m a texts = some t)
    (hbound : a + texts.length ≤ 256) :
    (∀ j text, texts[j]? = some text → assemble text = some (t.read (BitVec.ofNat 8 (a + j)))) ∧
      ∀ c : Addr, c.toNat < a ∨ a + texts.length ≤ c.toNat → t.read c = m.read c := by
  induction texts generalizing m a with
  | nil =>
    cases h
    exact ⟨fun j text hj => by simp at hj, fun _ _ => rfl⟩
  | cons text rest ih =>
    rw [List.length_cons] at hbound
    unfold applyTexts at h
    split at h
    case h_2 => cases h
    case h_1 w hword =>
      obtain ⟨hset, hkeep⟩ := ih h (by omega)
      have haddr : (BitVec.ofNat 8 a).toNat = a := Nat.mod_eq_of_lt (by omega)
      constructor
      · intro j text' hj
        cases j with
        | zero =>
          cases hj
          rw [Nat.add_zero, hkeep _ (.inl (by omega)), read_write, if_pos rfl, hword]
        | succ j =>
          rw [show a + (j + 1) = a + 1 + j by omega]
          exact hset j text' hj
      · intro c hc
        rw [List.length_cons] at hc
        have hne : BitVec.ofNat 8 a ≠ c := by
          rintro rfl
          omega
        rw [hkeep c (by omega), read_write, if_neg hne]

/-- A cell that no entry fills is kept. -/
theorem applyCells_read_of_not_filled {cells : List (Int × List CellText)} {m t : State}
    (h : applyCells m cells = some t) (hvalid : ∀ e ∈ cells, validCells e = true) {c : Addr}
    (hc : ∀ e ∈ cells, ¬ fills e c.toNat) : t.read c = m.read c := by
  induction cells generalizing m with
  | nil =>
    cases h
    rfl
  | cons e rest ih =>
    obtain ⟨hvalidFirst, hvalidRest⟩ := List.forall_mem_cons.mp hvalid
    obtain ⟨hfirst, hrest⟩ := List.forall_mem_cons.mp hc
    obtain ⟨hlow, hhigh⟩ := validCells_bounds hvalidFirst
    unfold applyCells at h
    split at h
    case h_2 => cases h
    case h_1 u htexts =>
      obtain ⟨-, hkeep⟩ := applyTexts_read htexts (by omega)
      rw [ih h hvalidRest hrest, hkeep c]
      simp only [fills] at hfirst
      omega

/-- A cell that one entry alone fills holds the word of its text. -/
theorem applyCells_read_of_filled {cells : List (Int × List CellText)} {m t : State}
    (h : applyCells m cells = some t) (hvalid : ∀ e ∈ cells, validCells e = true) {e : Int × List CellText}
    (he : e ∈ cells) {j : Nat} {text : CellText} (hj : e.2[j]? = some text)
    (honly : ∀ e' ∈ cells, fills e' (e.1 + j) → e' = e) :
    assemble text = some (t.read (BitVec.ofInt 8 (e.1 + j))) := by
  induction cells generalizing m with
  | nil => cases he
  | cons e0 rest ih =>
    obtain ⟨hvalidFirst, hvalidRest⟩ := List.forall_mem_cons.mp hvalid
    unfold applyCells at h
    split at h
    case h_2 => cases h
    case h_1 u htexts =>
      by_cases hmem : e ∈ rest
      · exact ih h hvalidRest hmem fun e' he' => honly e' (List.mem_cons_of_mem _ he')
      · obtain rfl : e = e0 := (List.mem_cons.mp he).resolve_right hmem
        obtain ⟨hlow, hhigh⟩ := validCells_bounds hvalidFirst
        obtain ⟨hlength, -⟩ := List.getElem?_eq_some_iff.mp hj
        have hnat : e.1 + j = ((e.1.toNat + j : Nat) : Int) := by omega
        have haddr : (BitVec.ofNat 8 (e.1.toNat + j)).toNat = e.1.toNat + j := Nat.mod_eq_of_lt (by omega)
        have hlater : ∀ e' ∈ rest, ¬ fills e' (BitVec.ofNat 8 (e.1.toNat + j)).toNat := by
          intro e' he' hfills
          rw [haddr, ← hnat] at hfills
          exact hmem (honly e' (List.mem_cons_of_mem _ he') hfills ▸ he')
        rw [hnat, BitVec.ofInt_natCast, applyCells_read_of_not_filled h hvalidRest hlater]
        exact (applyTexts_read htexts (by omega)).1 j text hj

end Cells

/-! The load. -/

section Load
variable {d : LoadDocument} {m t : State}

/-- A load that completes has passed its checks, and has applied the four sections in their order. -/
theorem load_next (h : perform (.load d) m = .next t) :
    d.keyed = true ∧ d.valid = true ∧ ∃ u, applyCells (withRegisters d m) d.cells = some u ∧
      t = deriveTimerAndCount d.rows.length (d.rows.foldl applyRow u) := by
  simp only [perform, load] at h
  split at h
  · cases h
  · split at h
    · cases h
    · rename_i hkeyed
      split at h
      · cases h
      · rename_i hvalid
        split at h
        · cases h
        · split at h
          · rename_i t' happly
            cases h
            obtain ⟨u, hcells, hderive⟩ := Option.map_eq_some_iff.mp happly
            exact ⟨by simpa using hkeyed, by simpa using hvalid, u, hcells, hderive.symm⟩
          · cases h

/-- A load that stops has failed its validation. -/
theorem load_fault {f : Fault} (h : perform (.load d) m = .fault f) : f = .loadValidationError (initialized m) := by
  simp only [perform, load] at h
  split at h
  · cases h
  · split at h
    · cases h
    · split at h
      · cases h
        rfl
      · split at h
        · cases h
        · split at h <;> cases h

/-- The derived TM and TP are all that the derivation writes (rule R223). -/
theorem deriveTimerAndCount_changesOnly (rows : Nat) (m : State) :
    m.changesOnly [.tm, .tp] (deriveTimerAndCount rows m) :=
  ⟨fun n hn => by cases n <;> simp at hn <;> rfl, fun _ => rfl, fun _ => rfl, rfl, rfl⟩

/-- The elements that a load leaves are those of the sections REG and FF, but for the derived TM and TP. -/
theorem value_of_loaded {u : State} (hcells : applyCells (withRegisters d m) d.cells = some u) {n : Element}
    (htm : n ≠ .tm) (htp : n ≠ .tp) :
    (deriveTimerAndCount d.rows.length (d.rows.foldl applyRow u)).value n = (withRegisters d m).value n := by
  obtain ⟨mem, rfl⟩ := applyCells_mem hcells
  rw [(deriveTimerAndCount_changesOnly _ _).1 n (by simp [htm, htp])]
  obtain ⟨slots, hslots⟩ := foldl_applyRow_slots d.rows { withRegisters d m with mem := mem }
  rw [hslots]
  cases n <;> rfl

/-- The cells that a load leaves are those of section M. -/
theorem read_of_loaded (rows : List (Int × List Int)) (u : State) (a : Addr) :
    (deriveTimerAndCount rows.length (rows.foldl applyRow u)).read a = u.read a := by
  obtain ⟨slots, hslots⟩ := foldl_applyRow_slots rows u
  rw [hslots]
  rfl

theorem withRegisters_read (a : Addr) : (withRegisters d m).read a = m.read a :=
  congrArg (fun b => b.1.read a) (withRegisters_beside (d := d) (m := m))

/-- Section M finds the slots as they were. -/
theorem slot_of_cells {u : State} (hcells : applyCells (withRegisters d m) d.cells = some u) (k : Slot) :
    u.slot k = m.slot k := by
  obtain ⟨mem, rfl⟩ := applyCells_mem hcells
  exact congrArg (fun b => b.2.1.get k.toFin) (withRegisters_beside (d := d) (m := m))

/-- A load leaves RUN, MID, the parameters and the pacer's part alone. -/
theorem samePacing_of_loaded {u : State} (hcells : applyCells (withRegisters d m) d.cells = some u) :
    m.samePacing (deriveTimerAndCount d.rows.length (d.rows.foldl applyRow u)) := by
  obtain ⟨mem, rfl⟩ := applyCells_mem hcells
  obtain ⟨slots, hslots⟩ := foldl_applyRow_slots d.rows { withRegisters d m with mem := mem }
  have hbeside := withRegisters_beside (d := d) (m := m)
  simp only [State.beside, Prod.mk.injEq] at hbeside
  obtain ⟨-, -, hrun, hmid, hparams, htrace, hack⟩ := hbeside
  rw [hslots]
  exact ⟨⟨hrun, hparams⟩, hmid, htrace, hack⟩

/-- The derived TP: the number of rows, 1 for none (rule R223). -/
theorem tp_of_deriveTimerAndCount (rows : List (Int × List Int)) (u : State) :
    (deriveTimerAndCount rows.length u).tp = if rows = [] then 1 else BitVec.ofNat 4 rows.length := by
  simp only [deriveTimerAndCount, List.length_eq_zero_iff]

end Load

/-- Settles O59: the registers by the sections REG and FF, the cells by section M, the slots by section M2, and TM and
TP by what is derived from them. -/
theorem loadDerivesTimerAndCount : Obligations.LoadDerivesTimerAndCount := by
  unfold Obligations.LoadDerivesTimerAndCount
  refine fun d m => ⟨fun t hnext => ?next, fun f => load_fault⟩
  obtain ⟨hkeyed, hvalid, u, hcells, rfl⟩ := load_next hnext
  obtain ⟨-, hvalidFlags, hvalidCells, -⟩ := valid_iff.mp hvalid
  refine ⟨rfl, tp_of_deriveTimerAndCount _ _, samePacing_of_loaded hcells, ?number, ?psr, ?flipFlop, ?unnamed, ?filled,
    ?notFilled, ?row, ?noRow⟩
  case number =>
    intro n v htm htp hn
    rw [value_of_loaded hcells htm htp, withRegisters_value_of_number hvalid hkeyed hn]
  case psr =>
    intro vs hvs
    have hpsr := packed_injective (BitVec.eq_of_toNat_eq (value_of_loaded hcells (n := .psr) nofun nofun))
    rw [hpsr]
    exact withRegisters_psr hvalid hkeyed hvs
  case flipFlop =>
    intro n b hn
    have hflag : n.isFlipFlop = true := validFlipFlop_text.symm.trans (hvalidFlags _ hn)
    rw [value_of_loaded hcells (by rintro rfl; cases hflag) (by rintro rfl; cases hflag),
      withRegisters_value_of_ff hvalid hkeyed hn]
  case unnamed =>
    intro n htm htp hreg hff
    rw [value_of_loaded hcells htm htp]
    exact withRegisters_value_of_unnamed (fun e he hkey => hreg e.2 (hkey ▸ he)) fun e he hkey => hff e.2 (hkey ▸ he)
  case filled =>
    intro e he j text hj honly
    rw [read_of_loaded]
    exact applyCells_read_of_filled hcells hvalidCells he hj honly
  case notFilled =>
    intro a ha
    rw [read_of_loaded, applyCells_read_of_not_filled hcells hvalidCells ha, withRegisters_read]
  case row => exact fun k vs hrow => foldl_applyRow_slot_of_named hvalid hkeyed hrow
  case noRow => exact fun k hk => (foldl_applyRow_slot_of_unnamed hvalid hk).trans (slot_of_cells hcells k)

end Sys2Proof.Machine
end
